-- ==== Sys2Proof/Word.lean ====
section
/-! DEFINITION. The two word types of the machine (00_scope.md R9): 8-bit data and registers, 16-bit addresses. -/

namespace Sys2Proof

/-- An 8-bit value (u8). -/
abbrev Byte := BitVec 8

/-- A 16-bit address (u16). -/
abbrev Word := BitVec 16

end Sys2Proof
end

