-- ==== Sys2Proof/Config.lean ====
section
/-! DEFINITION. The named parameters of 00_scope.md R10 as plain data (their values: Machine/Defaults.lean), and the
free values of R11. A parameter is a field of `Config`, a claim about every state is a claim about every parameter. -/

namespace Sys2Proof

/-- The three bus configurations (20_memory.md R110). -/
inductive Mode where
  | breadboard
  | flatTest
  | console
  deriving DecidableEq, Repr

/-- `VIDEO_STD` (00_scope.md R10). -/
inductive VideoStd where
  | ntsc
  | pal
  deriving DecidableEq, Repr

/-- `COLOR_MODE` (00_scope.md R10): changes no transition (44_video_engine.md R401). -/
inductive ColorMode where
  | color
  | mono
  deriving DecidableEq, Repr

/-- The peripherals behind the windows of 20_memory.md R111 and R120. -/
inductive Periph where
  | crtRam
  | crtRegs
  | serial
  | parallel
  | timerSwitch
  deriving DecidableEq, Repr

/-- The offset function of a peripheral range of `BB_MAP` (20_memory.md R111, column "offset passed"), any function on the
16-bit addresses, as data: the two kinds of the default table, and a table of the offsets of the addresses from `base` up.
-/
inductive OffsetRule where
  | minus (base : Nat)
  | mask (bits : Nat)
  | table (base : Nat) (offsets : List Nat)
  deriving DecidableEq, Repr

/-- What a range of `BB_MAP` is mapped to (20_memory.md R111). -/
inductive MapTarget where
  | ram
  | rom
  | periph (p : Periph) (offset : OffsetRule)
  deriving DecidableEq, Repr

/-- One range of `BB_MAP`, both ends included (20_memory.md R111). -/
structure MapRange where
  first  : Nat
  last   : Nat
  target : MapTarget
  deriving DecidableEq, Repr

/-- What `VIDEO_STD` selects: `LINES`, `FB_HEIGHT` and `DEFAULT_VISIBLE_START` (44_video_engine.md R401, R440). -/
structure FrameGeometry where
  lines        : Nat
  fbHeight     : Nat
  visibleStart : Nat
  deriving DecidableEq, Repr

/-- The named parameters of 00_scope.md R10. `SUCCESS_ADDR` and `STUCK_N` are arguments of the harness functions. -/
structure Config where
  mode               : Mode
  videoStd           : VideoStd
  colorMode          : ColorMode
  difficulty0        : Bool
  difficulty1        : Bool
  audioEnabled       : Bool
  fallbackBreadboard : Word
  fallbackConsole    : Word
  fallbackFlatTest   : Word
  bbMap              : List MapRange
  bbRomBase          : Word
  bbResetVector      : Word
  writeDelays        : List Nat
  jamCycles          : Nat
  magicAne           : Byte
  magicLxa           : Byte
  shCorruptShaTas    : Bool
  resmpOffset        : List Nat
  audioBaseClock     : Nat
  audioDivisor       : List Nat
  lineCc             : Nat
  hblankCc           : Nat
  ntsc               : FrameGeometry
  pal                : FrameGeometry
  deriving DecidableEq, Repr

/-- The byte the n-th draw gives to a read of a peripheral window (00_scope.md R11, 20_memory.md R122): free, no value
of it can be proved. -/
opaque Config.freeByte : Nat → Byte

/-- The value the n-th draw gives to bit 7 of INPT0 to INPT5 (00_scope.md R11, 44_video_engine.md R405): free. -/
opaque Config.freeBit : Nat → Bool

end Sys2Proof
end

