-- ==== Sys2Proof/Machine/Defaults.lean ====
section
/-! DEFINITION. The default values of the named parameters (92_eei_decisions.md), log entry 2. -/

namespace Sys2Proof.Machine

/-- The default `BB_MAP` (20_memory.md R111, D16). -/
def defaultBbMap : List MapRange :=
  [ ⟨0x0000, 0x3FFF, .ram⟩,
    ⟨0x4000, 0x47FF, .periph .crtRam (.minus 0x4000)⟩,
    ⟨0x4800, 0x4FFF, .periph .crtRegs (.mask 0x01)⟩,
    ⟨0x5000, 0x5FFF, .periph .serial (.mask 0x03)⟩,
    ⟨0x6000, 0x7FFF, .periph .parallel (.mask 0x0F)⟩,
    ⟨0x8000, 0xFFFF, .rom⟩ ]

/-- The defaults of 92_eei_decisions.md: D15 fallback entries, D16 and D17 breadboard map, base and vector, D7 write
delay `3·k` for k = 1 to 8, D4 jam cost, D44 magic constants, D45 corruption, D36 RESMP table, D39 audio, D27 and D33
geometry. DESIGN CHOICE (log entries 1 and 2): MODE, VIDEO_STD and the four display and input toggles have no default
there. -/
def defaultConfig : Config where
  mode := .flatTest
  videoStd := .ntsc
  colorMode := .color
  difficulty0 := false
  difficulty1 := false
  audioEnabled := true
  fallbackBreadboard := 0x8000
  fallbackConsole := 0xF000
  fallbackFlatTest := 0x0400
  bbMap := defaultBbMap
  bbRomBase := 0x8000
  bbResetVector := 0x8000
  writeDelays := [3, 6, 9, 12, 15, 18, 21, 24]
  jamCycles := 2
  magicAne := 0xEE
  magicLxa := 0xEE
  shCorruptShaTas := true
  resmpOffset := [3, 3, 3, 3, 3, 6, 3, 10]
  audioBaseClock := 31400
  audioDivisor := [0, 15, 465, 465, 2, 2, 31, 31, 511, 31, 31, 1, 6, 6, 93, 93]
  lineCc := 228
  hblankCc := 68
  ntsc := { lines := 262, fbHeight := 192, visibleStart := 40 }
  pal := { lines := 312, fbHeight := 228, visibleStart := 48 }

/-- The geometry `VIDEO_STD` selects (44_video_engine.md R401). -/
def frameGeometry (cfg : Config) : FrameGeometry :=
  match cfg.videoStd with
  | .ntsc => cfg.ntsc
  | .pal => cfg.pal

/-- `FALLBACK_ENTRY` of a mode (70_reset_and_hazards.md R584). -/
def fallbackEntry (cfg : Config) (mode : Mode) : Word :=
  match mode with
  | .breadboard => cfg.fallbackBreadboard
  | .flatTest => cfg.fallbackFlatTest
  | .console => cfg.fallbackConsole

/-- `WRITE_DELAY(k)`: the table of the configuration, and `3·k` beyond it (20_memory.md R118, D7; log entry 16). -/
def writeDelay (cfg : Config) (k : Nat) : Nat := cfg.writeDelays.getD (k - 1) (3 * k)

/-- `RESMP_OFFSET[c]` (44_video_engine.md R422). -/
def resmpOffsetOf (cfg : Config) (copyMode : Nat) : Nat := cfg.resmpOffset.getD copyMode 0

/-- `CPU_PER_LINE` (10_state.md R50). -/
def cpuPerLine (cfg : Config) : Nat := cfg.lineCc / 3

/-- The visible width: a fixed parameter (00_scope.md R9). -/
def visibleWidth : Nat := 160

/-- A configuration the hardware's constraints allow: a line is its blank prefix and 160 visible pixels (R50) and a whole
number of CPU cycles (44_video_engine.md R401), a frame has lines, and an executed halt opcode takes time. -/
def validConfig (cfg : Config) : Bool :=
  cfg.lineCc == cfg.hblankCc + visibleWidth && cfg.lineCc % 3 == 0 && 0 < cfg.ntsc.lines && 0 < cfg.pal.lines
    && 0 < cfg.jamCycles

end Sys2Proof.Machine
end

