-- ==== Sys2Proof/Syntax.lean ====
section
/-! DEFINITION. The instructions of spec/opcode_table.json as syntax: one constructor per mnemonic of its 256 rows, whose
operand argument carries the addressing mode of the row and the operand bytes that follow the opcode (log entry 10). -/

namespace Sys2Proof

/-- The memory addressing modes with their operand bytes (30_encoding.md R166 to R171, R173, R174). -/
inductive MemMode where
  | zp  (z : Byte)
  | zpx (z : Byte)
  | zpy (z : Byte)
  | abs (a : Word)
  | abx (a : Word)
  | aby (a : Word)
  | izx (z : Byte)
  | izy (z : Byte)
  deriving DecidableEq, Repr

/-- The operand of a reading instruction: immediate (30_encoding.md R165) or a memory mode. -/
inductive ReadOperand where
  | imm (v : Byte)
  | mem (m : MemMode)
  deriving DecidableEq, Repr

/-- The operand of a shift: accumulator (30_encoding.md R164) or a memory mode. -/
inductive ModifyOperand where
  | acc
  | mem (m : MemMode)
  deriving DecidableEq, Repr

/-- The operand of JMP: absolute or indirect (30_encoding.md R169, R172). -/
inductive JumpOperand where
  | abs (a : Word)
  | ind (ptr : Word)
  deriving DecidableEq, Repr

/-- The 28 rows of NOP (42_control.md R321, 43_undocumented.md R372 to R374): the mode, and which of the opcodes of that
mode in ascending order, but that index 0 of `imp` is the documented `$EA`. -/
inductive NopForm where
  | imp (k : Fin 7)
  | imm (k : Fin 5) (v : Byte)
  | zp  (k : Fin 3) (z : Byte)
  | zpx (k : Fin 6) (z : Byte)
  | abs (a : Word)
  | abx (k : Fin 6) (a : Word)
  deriving DecidableEq, Repr

inductive Instr where
  -- 40_load_store.md
  | lda (o : ReadOperand)
  | ldx (o : ReadOperand)
  | ldy (o : ReadOperand)
  | sta (m : MemMode)
  | stx (m : MemMode)
  | sty (m : MemMode)
  | tax
  | tay
  | txa
  | tya
  | tsx
  | txs
  | pha
  | php
  | pla
  | plp
  -- 41_alu.md
  | adc (o : ReadOperand)
  | sbc (o : ReadOperand)
  | and (o : ReadOperand)
  | ora (o : ReadOperand)
  | eor (o : ReadOperand)
  | cmp (o : ReadOperand)
  | cpx (o : ReadOperand)
  | cpy (o : ReadOperand)
  | bit (m : MemMode)
  | inc (m : MemMode)
  | dec (m : MemMode)
  | inx
  | iny
  | dex
  | dey
  | asl (o : ModifyOperand)
  | lsr (o : ModifyOperand)
  | rol (o : ModifyOperand)
  | ror (o : ModifyOperand)
  -- 42_control.md
  | bpl (off : Byte)
  | bmi (off : Byte)
  | bvc (off : Byte)
  | bvs (off : Byte)
  | bcc (off : Byte)
  | bcs (off : Byte)
  | bne (off : Byte)
  | beq (off : Byte)
  | jmp (t : JumpOperand)
  | jsr (t : Word)
  | rts
  | rti
  | brk
  | clc
  | sec
  | cli
  | sei
  | cld
  | sed
  | clv
  | nop (f : NopForm)
  -- 43_undocumented.md
  | slo (m : MemMode)
  | rla (m : MemMode)
  | sre (m : MemMode)
  | rra (m : MemMode)
  | sax (m : MemMode)
  | lax (m : MemMode)
  | dcp (m : MemMode)
  | isc (m : MemMode)
  | anc (k : Fin 2) (v : Byte)
  | alr (v : Byte)
  | arr (v : Byte)
  | sbx (v : Byte)
  | ane (v : Byte)
  | lxa (v : Byte)
  | sha (m : MemMode)
  | shx (a : Word)
  | shy (a : Word)
  | tas (a : Word)
  | las (a : Word)
  | usbc (v : Byte)
  | jam (k : Fin 12)
  deriving DecidableEq, Repr

end Sys2Proof
end

