-- ==== Sys2Proof/Machine/State.lean ====
section
/-! DEFINITION. The state of the four blocks (10_state.md) as plain data, the stop reasons, and the state after reset. -/

namespace Sys2Proof.Machine

/-! ## CPU Engine -/

/-- The flag set of 10_state.md R30 (R36 to R42). -/
structure Flags where
  c : Bool
  z : Bool
  i : Bool
  d : Bool
  b : Bool
  v : Bool
  n : Bool
  deriving DecidableEq, Repr

/-! ## Video/Audio Engine -/

/-- The write-register file: every register that keeps a value, masked to the bits of 44_video_engine.md R403
(10_state.md R57, R65). VSYNC, RESMP0 and RESMP1 are kept as the masked byte, in bit D1 (log entry 12). GRP0, GRP1 and
ENABL are in the shadows (R58). -/
structure VideoRegs where
  vsync  : Byte := 0
  vblank : Byte := 0
  nusiz0 : Byte := 0
  nusiz1 : Byte := 0
  colup0 : Byte := 0
  colup1 : Byte := 0
  colupf : Byte := 0
  colubk : Byte := 0
  ctrlpf : Byte := 0
  refp0  : Byte := 0
  refp1  : Byte := 0
  pf0    : Byte := 0
  pf1    : Byte := 0
  pf2    : Byte := 0
  audc0  : Byte := 0
  audc1  : Byte := 0
  audf0  : Byte := 0
  audf1  : Byte := 0
  audv0  : Byte := 0
  audv1  : Byte := 0
  enam0  : Byte := 0
  enam1  : Byte := 0
  hmp0   : Byte := 0
  hmp1   : Byte := 0
  hmm0   : Byte := 0
  hmm1   : Byte := 0
  hmbl   : Byte := 0
  vdelp0 : Byte := 0
  vdelp1 : Byte := 0
  vdelbl : Byte := 0
  resmp0 : Byte := 0
  resmp1 : Byte := 0
  deriving DecidableEq, Repr

/-- The 15 collision latches (10_state.md R60), each named by its pair of objects (44_video_engine.md R404). -/
structure Collisions where
  m0p1 : Bool := false
  m0p0 : Bool := false
  m1p0 : Bool := false
  m1p1 : Bool := false
  p0pf : Bool := false
  p0bl : Bool := false
  p1pf : Bool := false
  p1bl : Bool := false
  m0pf : Bool := false
  m0bl : Bool := false
  m1pf : Bool := false
  m1bl : Bool := false
  blpf : Bool := false
  p0p1 : Bool := false
  m0m1 : Bool := false
  deriving DecidableEq, Repr

/-- One entry of the pending-write queue (10_state.md R63). -/
structure PendingWrite where
  remaining : Nat
  reg       : BitVec 6
  value     : Byte
  deriving DecidableEq, Repr

/-- The state of the video engine (10_state.md R51 to R65); the defaults of its fields are the reset values of
44_video_engine.md R445. The framebuffer lists its nonzero cells, key `row · 160 + x` (R64). -/
structure Video where
  h            : Nat := 0
  line         : Nat := 0
  frameCount   : Nat := 0
  wsyncHalt    : Bool := false
  frameReady   : Bool := false
  hmoveBlank   : Bool := false
  regs         : VideoRegs := {}
  grp0New      : Byte := 0
  grp0Old      : Byte := 0
  grp1New      : Byte := 0
  grp1Old      : Byte := 0
  enablNew     : Bool := false
  enablOld     : Bool := false
  posP0        : Nat := 0
  posP1        : Nat := 0
  posM0        : Nat := 0
  posM1        : Nat := 0
  posBL        : Nat := 0
  cx           : Collisions := {}
  prevVblank   : Bool := false
  visibleStart : Option Nat := none
  prevVsync    : Bool := false
  queue        : List PendingWrite := []
  fb           : List Host.Cell := []
  deriving DecidableEq, Repr

/-- The video engine after its reset (44_video_engine.md R445). -/
def Video.reset : Video := {}

/-! ## Bus -/

/-- Direction of a bus transaction (10_state.md R72). -/
inductive BusDir where
  | read
  | write
  deriving DecidableEq, Repr

/-- A byte buffer (10_state.md R74): its size, and its nonzero bytes by offset, offsets rising. -/
structure Image where
  size  : Nat
  bytes : List Host.Cell
  deriving DecidableEq, Repr

/-- What the last reset's loader was given (20_memory.md R125 to R128). With the active mode it determines the contents
the loader left in every memory cell; `mem`, `ram` and `rom` list only the cells that differ from them (log entry 8). -/
structure Loaded where
  image       : Image
  romBase     : Word
  resetVector : Word
  deriving DecidableEq, Repr

/-- A recorded peripheral event (20_memory.md R122, 45_orchestrator.md R510). -/
inductive PeriphEvent where
  | write (p : Periph) (offset : Nat) (value : Byte)
  | clock (cycles : Nat)
  deriving DecidableEq, Repr

/-! ## The whole machine -/

/-- Every piece of state the spec gives the machine (10_state.md), the configuration and inputs of 00_scope.md R10 and
R11 as data, and three fields of the model's own: `cycles`, `draws` and `events` (log entries 4, 5, 6). -/
structure State where
  a            : Byte
  x            : Byte
  y            : Byte
  sp           : Byte
  pc           : Word
  p            : Flags
  jammed       : Bool
  nmiPending   : Bool
  mode         : Mode
  mem          : List Host.Cell
  ram          : List Host.Cell
  rom          : List Host.Cell
  lastAddr     : Word
  lastData     : Byte
  lastRw       : BusDir
  image        : Image
  loaded       : Loaded
  video        : Video
  totalCycles  : Nat
  budgetTarget : Nat
  cfg          : Config
  irqLine      : Bool
  cycles       : Nat
  draws        : Nat
  events       : List PeriphEvent
  deriving DecidableEq, Repr

/-- Why a step stops with a fault: never. The core raises no exception, fault or trap of any kind (60_exceptions.md
R540), so the type has no constructor. Safe: nothing is stopped that the hardware carries on with. -/
inductive Fault where
  deriving DecidableEq, Repr

/-- Why the model gives a case no meaning. -/
inductive Refusal where
  /-- An instruction that has no meaning yet, by its mnemonic. Raised by no arm of `exec`. Safe. -/
  | notModelled (mnemonic : String)
  /-- `refuse BankSwitchedCartridge`: a console image over 4096 bytes (20_memory.md R126). Raised by the host operation
  `hostReset` alone, never by a step. Safe. -/
  | bankSwitchedCartridge
  deriving DecidableEq, Repr

/-- The empty byte buffer: nothing has been loaded. -/
def Image.empty : Image := ⟨0, []⟩

/-- The state after `reset()` with the default configuration and no image loaded (70_reset_and_hazards.md R580 to R585,
10_state.md R84): `hostReset` leaves exactly this state unchanged (`hostReset_reset` of Laws/Reset.lean). In flat test
mode with an empty image every byte is 0, so the reset vector reads 0 and PC is FALLBACK_ENTRY (R584); the two vector
reads leave the mirror at `$FFFD`. DESIGN CHOICE, unsafe (log entries 1 to 6): the mode and image, the toggles without a
default, the IRQ line inactive, the model's own counters 0 and event list empty. -/
def State.reset : State where
  a := 0
  x := 0
  y := 0
  sp := 0xFD
  pc := 0x0400
  p := { c := false, z := false, i := true, d := false, b := false, v := false, n := false }
  jammed := false
  nmiPending := false
  mode := .flatTest
  mem := []
  ram := []
  rom := []
  lastAddr := 0xFFFD
  lastData := 0
  lastRw := .read
  image := Image.empty
  loaded := ⟨Image.empty, 0x8000, 0x8000⟩
  video := Video.reset
  totalCycles := 0
  budgetTarget := 0
  cfg := defaultConfig
  irqLine := false
  cycles := 0
  draws := 0
  events := []

/-- The orchestrator's `omode` is `dual` (10_state.md R80): computed from the active mode. -/
def State.dual (s : State) : Bool := s.mode == .console

end Sys2Proof.Machine
end

