-- ==== Sys2Proof/Machine/Cells.lean ====
section
/-! DEFINITION. Sparse byte arrays: lists of (index, byte) cells in one canonical form, indexes strictly rising and no
cell equal to what an unlisted index reads as (`base`). Every memory array and the framebuffer are held so. -/

namespace Sys2Proof.Machine

/-- The listed byte at an index. -/
def cellLookup : List Host.Cell → Nat → Option Byte
  | [], _ => none
  | (k, w) :: rest, a => if a = k then some w else cellLookup rest a

/-- The byte an index reads as. -/
def cellRead (base : Nat → Byte) (m : List Host.Cell) (a : Nat) : Byte := (cellLookup m a).getD (base a)

/-- List a byte at an index, in place of the one listed there. -/
def cellInsert : List Host.Cell → Nat → Byte → List Host.Cell
  | [], a, v => [(a, v)]
  | (k, w) :: rest, a, v =>
    if a < k then (a, v) :: (k, w) :: rest
    else if a = k then (a, v) :: rest
    else (k, w) :: cellInsert rest a v

/-- List nothing at an index. -/
def cellErase (m : List Host.Cell) (a : Nat) : List Host.Cell := m.filter fun cell => cell.1 != a

/-- Write a byte, keeping the canonical form: writing what an unlisted index reads as removes the cell. -/
def cellWrite (base : Nat → Byte) (m : List Host.Cell) (a : Nat) (v : Byte) : List Host.Cell :=
  if v = base a then cellErase m a else cellInsert m a v

/-- Every index is at least `lo` and the indexes rise strictly. -/
def keysFrom : Nat → List Host.Cell → Bool
  | _, [] => true
  | lo, (k, _) :: rest => decide (lo ≤ k) && keysFrom (k + 1) rest

/-- The canonical form of an array of `size` bytes over `base`. -/
def cellsWf (base : Nat → Byte) (size : Nat) (m : List Host.Cell) : Bool :=
  keysFrom 0 m && m.all fun cell => decide (cell.1 < size) && cell.2 != base cell.1

end Sys2Proof.Machine
end

