-- ==== Sys2Proof/WellFormed.lean ====
section
/-! DEFINITION. Which addressing modes an instruction has an opcode for (30_encoding.md R179 and the "Encodings" of each
instruction's rule). An instruction is well formed when its operand is one of them. -/

namespace Sys2Proof

/-- The modes of a group of instructions, one bit per memory mode, `zp zpx zpy abs abx aby izx izy`. -/
def MemMode.isOneOf (m : MemMode) (zp zpx zpy abs abx aby izx izy : Bool) : Bool :=
  match m with
  | .zp _ => zp
  | .zpx _ => zpx
  | .zpy _ => zpy
  | .abs _ => abs
  | .abx _ => abx
  | .aby _ => aby
  | .izx _ => izx
  | .izy _ => izy

/-- `zp zpx abs abx aby izx izy`: STA (R203) and the undocumented read-modify-write operations (R352 to R355, R358,
R359); with `imm`, the accumulator group (R200, R250 to R255). -/
def MemMode.accumulatorGroup (m : MemMode) : Bool := m.isOneOf true true false true true true true true

/-- `zp zpx abs abx`: the shifts (R265 to R268), INC and DEC (R259, R260), and with `imm` LDY (R202). -/
def MemMode.xIndexedGroup (m : MemMode) : Bool := m.isOneOf true true false true true false false false

/-- `zp zpy abs aby`: with `imm`, LDX (R201). -/
def MemMode.yIndexedGroup (m : MemMode) : Bool := m.isOneOf true false true true false true false false

/-- `zp abs`: BIT (R258), and with `imm` CPX and CPY (R256, R257). -/
def MemMode.plainGroup (m : MemMode) : Bool := m.isOneOf true false false true false false false false

/-- `zp zpy abs`: STX (R204). -/
def MemMode.stxGroup (m : MemMode) : Bool := m.isOneOf true false true true false false false false

/-- `zp zpx abs`: STY (R205). -/
def MemMode.styGroup (m : MemMode) : Bool := m.isOneOf true true false true false false false false

/-- `zp zpy abs izx`: SAX (R356). -/
def MemMode.saxGroup (m : MemMode) : Bool := m.isOneOf true false true true false false true false

/-- `zp zpy abs aby izx izy`: LAX (R357). -/
def MemMode.laxGroup (m : MemMode) : Bool := m.isOneOf true false true true false true true true

/-- `aby izy`: SHA (R366). -/
def MemMode.shaGroup (m : MemMode) : Bool := m.isOneOf false false false false false true false true

def ReadOperand.within (o : ReadOperand) (group : MemMode → Bool) : Bool :=
  match o with
  | .imm _ => true
  | .mem m => group m

def ModifyOperand.within (o : ModifyOperand) (group : MemMode → Bool) : Bool :=
  match o with
  | .acc => true
  | .mem m => group m

/-- The instruction has an opcode (30_encoding.md R179). -/
def Instr.wellFormed : Instr → Bool
  | .lda o => o.within MemMode.accumulatorGroup
  | .ldx o => o.within MemMode.yIndexedGroup
  | .ldy o => o.within MemMode.xIndexedGroup
  | .sta m => m.accumulatorGroup
  | .stx m => m.stxGroup
  | .sty m => m.styGroup
  | .tax => true
  | .tay => true
  | .txa => true
  | .tya => true
  | .tsx => true
  | .txs => true
  | .pha => true
  | .php => true
  | .pla => true
  | .plp => true
  | .adc o => o.within MemMode.accumulatorGroup
  | .sbc o => o.within MemMode.accumulatorGroup
  | .and o => o.within MemMode.accumulatorGroup
  | .ora o => o.within MemMode.accumulatorGroup
  | .eor o => o.within MemMode.accumulatorGroup
  | .cmp o => o.within MemMode.accumulatorGroup
  | .cpx o => o.within MemMode.plainGroup
  | .cpy o => o.within MemMode.plainGroup
  | .bit m => m.plainGroup
  | .inc m => m.xIndexedGroup
  | .dec m => m.xIndexedGroup
  | .inx => true
  | .iny => true
  | .dex => true
  | .dey => true
  | .asl o => o.within MemMode.xIndexedGroup
  | .lsr o => o.within MemMode.xIndexedGroup
  | .rol o => o.within MemMode.xIndexedGroup
  | .ror o => o.within MemMode.xIndexedGroup
  | .bpl _ => true
  | .bmi _ => true
  | .bvc _ => true
  | .bvs _ => true
  | .bcc _ => true
  | .bcs _ => true
  | .bne _ => true
  | .beq _ => true
  | .jmp _ => true
  | .jsr _ => true
  | .rts => true
  | .rti => true
  | .brk => true
  | .clc => true
  | .sec => true
  | .cli => true
  | .sei => true
  | .cld => true
  | .sed => true
  | .clv => true
  | .nop _ => true
  | .slo m => m.accumulatorGroup
  | .rla m => m.accumulatorGroup
  | .sre m => m.accumulatorGroup
  | .rra m => m.accumulatorGroup
  | .sax m => m.saxGroup
  | .lax m => m.laxGroup
  | .dcp m => m.accumulatorGroup
  | .isc m => m.accumulatorGroup
  | .anc _ _ => true
  | .alr _ => true
  | .arr _ => true
  | .sbx _ => true
  | .ane _ => true
  | .lxa _ => true
  | .sha m => m.shaGroup
  | .shx _ => true
  | .shy _ => true
  | .tas _ => true
  | .las _ => true
  | .usbc _ => true
  | .jam _ => true

end Sys2Proof
end

