-- ==== Sys2Proof/Decode.lean ====
section
/-! DEFINITION. Decoding (30_encoding.md R160, R161, R179, R184): the map of R179 as sixteen rows of sixteen layouts, the
opcode byte alone selecting the layout; and the encoder, written from the "Encodings" of each instruction's own rule. -/

namespace Sys2Proof

/-- Why a byte string is no instruction: it ends before the operand bytes do. Every opcode is defined (R183). -/
inductive DecodeError where
  | noOpcode
  | missingOperand (opcode : Byte)
  deriving DecidableEq, Repr

/-- A 16-bit quantity from its low and high byte (20_memory.md R102). -/
def wordOf (lo hi : Byte) : Word := hi ++ lo

/-- Bits 7..0 of a 16-bit quantity. -/
def loByte (w : Word) : Byte := w.extractLsb' 0 8

/-- Bits 15..8 of a 16-bit quantity. -/
def hiByte (w : Word) : Byte := w.extractLsb' 8 8

/-- The format an opcode selects (30_encoding.md R161): no operand byte, one (`d8`), or two (`lo`, `hi`). -/
inductive Layout where
  | one  (i : Instr)
  | byte (f : Byte → Instr)
  | word (f : Word → Instr)

/-- Length in bytes (30_encoding.md R184). -/
def Layout.length : Layout → Nat
  | .one _ => 1
  | .byte _ => 2
  | .word _ => 3

/-- The instruction of a layout for given operand bytes (those the format lacks are not looked at). -/
def Layout.build (l : Layout) (b1 b2 : Byte) : Instr :=
  match l with
  | .one i => i
  | .byte f => f b1
  | .word f => f (wordOf b1 b2)

/-- Row 0x of the map of 30_encoding.md R179. -/
def opcodeRow0 : List Layout :=
  [ .one .brk,
    .byte fun z => .ora (.mem (.izx z)),
    .one (.jam 0),
    .byte fun z => .slo (.izx z),
    .byte fun z => .nop (.zp 0 z),
    .byte fun z => .ora (.mem (.zp z)),
    .byte fun z => .asl (.mem (.zp z)),
    .byte fun z => .slo (.zp z),
    .one .php,
    .byte fun v => .ora (.imm v),
    .one (.asl .acc),
    .byte fun v => .anc 0 v,
    .word fun a => .nop (.abs a),
    .word fun a => .ora (.mem (.abs a)),
    .word fun a => .asl (.mem (.abs a)),
    .word fun a => .slo (.abs a) ]

/-- Row 1x of the map of 30_encoding.md R179. -/
def opcodeRow1 : List Layout :=
  [ .byte fun off => .bpl off,
    .byte fun z => .ora (.mem (.izy z)),
    .one (.jam 1),
    .byte fun z => .slo (.izy z),
    .byte fun z => .nop (.zpx 0 z),
    .byte fun z => .ora (.mem (.zpx z)),
    .byte fun z => .asl (.mem (.zpx z)),
    .byte fun z => .slo (.zpx z),
    .one .clc,
    .word fun a => .ora (.mem (.aby a)),
    .one (.nop (.imp 1)),
    .word fun a => .slo (.aby a),
    .word fun a => .nop (.abx 0 a),
    .word fun a => .ora (.mem (.abx a)),
    .word fun a => .asl (.mem (.abx a)),
    .word fun a => .slo (.abx a) ]

/-- Row 2x of the map of 30_encoding.md R179. -/
def opcodeRow2 : List Layout :=
  [ .word fun t => .jsr t,
    .byte fun z => .and (.mem (.izx z)),
    .one (.jam 2),
    .byte fun z => .rla (.izx z),
    .byte fun z => .bit (.zp z),
    .byte fun z => .and (.mem (.zp z)),
    .byte fun z => .rol (.mem (.zp z)),
    .byte fun z => .rla (.zp z),
    .one .plp,
    .byte fun v => .and (.imm v),
    .one (.rol .acc),
    .byte fun v => .anc 1 v,
    .word fun a => .bit (.abs a),
    .word fun a => .and (.mem (.abs a)),
    .word fun a => .rol (.mem (.abs a)),
    .word fun a => .rla (.abs a) ]

/-- Row 3x of the map of 30_encoding.md R179. -/
def opcodeRow3 : List Layout :=
  [ .byte fun off => .bmi off,
    .byte fun z => .and (.mem (.izy z)),
    .one (.jam 3),
    .byte fun z => .rla (.izy z),
    .byte fun z => .nop (.zpx 1 z),
    .byte fun z => .and (.mem (.zpx z)),
    .byte fun z => .rol (.mem (.zpx z)),
    .byte fun z => .rla (.zpx z),
    .one .sec,
    .word fun a => .and (.mem (.aby a)),
    .one (.nop (.imp 2)),
    .word fun a => .rla (.aby a),
    .word fun a => .nop (.abx 1 a),
    .word fun a => .and (.mem (.abx a)),
    .word fun a => .rol (.mem (.abx a)),
    .word fun a => .rla (.abx a) ]

/-- Row 4x of the map of 30_encoding.md R179. -/
def opcodeRow4 : List Layout :=
  [ .one .rti,
    .byte fun z => .eor (.mem (.izx z)),
    .one (.jam 4),
    .byte fun z => .sre (.izx z),
    .byte fun z => .nop (.zp 1 z),
    .byte fun z => .eor (.mem (.zp z)),
    .byte fun z => .lsr (.mem (.zp z)),
    .byte fun z => .sre (.zp z),
    .one .pha,
    .byte fun v => .eor (.imm v),
    .one (.lsr .acc),
    .byte fun v => .alr v,
    .word fun a => .jmp (.abs a),
    .word fun a => .eor (.mem (.abs a)),
    .word fun a => .lsr (.mem (.abs a)),
    .word fun a => .sre (.abs a) ]

/-- Row 5x of the map of 30_encoding.md R179. -/
def opcodeRow5 : List Layout :=
  [ .byte fun off => .bvc off,
    .byte fun z => .eor (.mem (.izy z)),
    .one (.jam 5),
    .byte fun z => .sre (.izy z),
    .byte fun z => .nop (.zpx 2 z),
    .byte fun z => .eor (.mem (.zpx z)),
    .byte fun z => .lsr (.mem (.zpx z)),
    .byte fun z => .sre (.zpx z),
    .one .cli,
    .word fun a => .eor (.mem (.aby a)),
    .one (.nop (.imp 3)),
    .word fun a => .sre (.aby a),
    .word fun a => .nop (.abx 2 a),
    .word fun a => .eor (.mem (.abx a)),
    .word fun a => .lsr (.mem (.abx a)),
    .word fun a => .sre (.abx a) ]

/-- Row 6x of the map of 30_encoding.md R179. -/
def opcodeRow6 : List Layout :=
  [ .one .rts,
    .byte fun z => .adc (.mem (.izx z)),
    .one (.jam 6),
    .byte fun z => .rra (.izx z),
    .byte fun z => .nop (.zp 2 z),
    .byte fun z => .adc (.mem (.zp z)),
    .byte fun z => .ror (.mem (.zp z)),
    .byte fun z => .rra (.zp z),
    .one .pla,
    .byte fun v => .adc (.imm v),
    .one (.ror .acc),
    .byte fun v => .arr v,
    .word fun a => .jmp (.ind a),
    .word fun a => .adc (.mem (.abs a)),
    .word fun a => .ror (.mem (.abs a)),
    .word fun a => .rra (.abs a) ]

/-- Row 7x of the map of 30_encoding.md R179. -/
def opcodeRow7 : List Layout :=
  [ .byte fun off => .bvs off,
    .byte fun z => .adc (.mem (.izy z)),
    .one (.jam 7),
    .byte fun z => .rra (.izy z),
    .byte fun z => .nop (.zpx 3 z),
    .byte fun z => .adc (.mem (.zpx z)),
    .byte fun z => .ror (.mem (.zpx z)),
    .byte fun z => .rra (.zpx z),
    .one .sei,
    .word fun a => .adc (.mem (.aby a)),
    .one (.nop (.imp 4)),
    .word fun a => .rra (.aby a),
    .word fun a => .nop (.abx 3 a),
    .word fun a => .adc (.mem (.abx a)),
    .word fun a => .ror (.mem (.abx a)),
    .word fun a => .rra (.abx a) ]

/-- Row 8x of the map of 30_encoding.md R179. -/
def opcodeRow8 : List Layout :=
  [ .byte fun v => .nop (.imm 0 v),
    .byte fun z => .sta (.izx z),
    .byte fun v => .nop (.imm 1 v),
    .byte fun z => .sax (.izx z),
    .byte fun z => .sty (.zp z),
    .byte fun z => .sta (.zp z),
    .byte fun z => .stx (.zp z),
    .byte fun z => .sax (.zp z),
    .one .dey,
    .byte fun v => .nop (.imm 2 v),
    .one .txa,
    .byte fun v => .ane v,
    .word fun a => .sty (.abs a),
    .word fun a => .sta (.abs a),
    .word fun a => .stx (.abs a),
    .word fun a => .sax (.abs a) ]

/-- Row 9x of the map of 30_encoding.md R179. -/
def opcodeRow9 : List Layout :=
  [ .byte fun off => .bcc off,
    .byte fun z => .sta (.izy z),
    .one (.jam 8),
    .byte fun z => .sha (.izy z),
    .byte fun z => .sty (.zpx z),
    .byte fun z => .sta (.zpx z),
    .byte fun z => .stx (.zpy z),
    .byte fun z => .sax (.zpy z),
    .one .tya,
    .word fun a => .sta (.aby a),
    .one .txs,
    .word fun a => .tas a,
    .word fun a => .shy a,
    .word fun a => .sta (.abx a),
    .word fun a => .shx a,
    .word fun a => .sha (.aby a) ]

/-- Row Ax of the map of 30_encoding.md R179. -/
def opcodeRowA : List Layout :=
  [ .byte fun v => .ldy (.imm v),
    .byte fun z => .lda (.mem (.izx z)),
    .byte fun v => .ldx (.imm v),
    .byte fun z => .lax (.izx z),
    .byte fun z => .ldy (.mem (.zp z)),
    .byte fun z => .lda (.mem (.zp z)),
    .byte fun z => .ldx (.mem (.zp z)),
    .byte fun z => .lax (.zp z),
    .one .tay,
    .byte fun v => .lda (.imm v),
    .one .tax,
    .byte fun v => .lxa v,
    .word fun a => .ldy (.mem (.abs a)),
    .word fun a => .lda (.mem (.abs a)),
    .word fun a => .ldx (.mem (.abs a)),
    .word fun a => .lax (.abs a) ]

/-- Row Bx of the map of 30_encoding.md R179. -/
def opcodeRowB : List Layout :=
  [ .byte fun off => .bcs off,
    .byte fun z => .lda (.mem (.izy z)),
    .one (.jam 9),
    .byte fun z => .lax (.izy z),
    .byte fun z => .ldy (.mem (.zpx z)),
    .byte fun z => .lda (.mem (.zpx z)),
    .byte fun z => .ldx (.mem (.zpy z)),
    .byte fun z => .lax (.zpy z),
    .one .clv,
    .word fun a => .lda (.mem (.aby a)),
    .one .tsx,
    .word fun a => .las a,
    .word fun a => .ldy (.mem (.abx a)),
    .word fun a => .lda (.mem (.abx a)),
    .word fun a => .ldx (.mem (.aby a)),
    .word fun a => .lax (.aby a) ]

/-- Row Cx of the map of 30_encoding.md R179. -/
def opcodeRowC : List Layout :=
  [ .byte fun v => .cpy (.imm v),
    .byte fun z => .cmp (.mem (.izx z)),
    .byte fun v => .nop (.imm 3 v),
    .byte fun z => .dcp (.izx z),
    .byte fun z => .cpy (.mem (.zp z)),
    .byte fun z => .cmp (.mem (.zp z)),
    .byte fun z => .dec (.zp z),
    .byte fun z => .dcp (.zp z),
    .one .iny,
    .byte fun v => .cmp (.imm v),
    .one .dex,
    .byte fun v => .sbx v,
    .word fun a => .cpy (.mem (.abs a)),
    .word fun a => .cmp (.mem (.abs a)),
    .word fun a => .dec (.abs a),
    .word fun a => .dcp (.abs a) ]

/-- Row Dx of the map of 30_encoding.md R179. -/
def opcodeRowD : List Layout :=
  [ .byte fun off => .bne off,
    .byte fun z => .cmp (.mem (.izy z)),
    .one (.jam 10),
    .byte fun z => .dcp (.izy z),
    .byte fun z => .nop (.zpx 4 z),
    .byte fun z => .cmp (.mem (.zpx z)),
    .byte fun z => .dec (.zpx z),
    .byte fun z => .dcp (.zpx z),
    .one .cld,
    .word fun a => .cmp (.mem (.aby a)),
    .one (.nop (.imp 5)),
    .word fun a => .dcp (.aby a),
    .word fun a => .nop (.abx 4 a),
    .word fun a => .cmp (.mem (.abx a)),
    .word fun a => .dec (.abx a),
    .word fun a => .dcp (.abx a) ]

/-- Row Ex of the map of 30_encoding.md R179. -/
def opcodeRowE : List Layout :=
  [ .byte fun v => .cpx (.imm v),
    .byte fun z => .sbc (.mem (.izx z)),
    .byte fun v => .nop (.imm 4 v),
    .byte fun z => .isc (.izx z),
    .byte fun z => .cpx (.mem (.zp z)),
    .byte fun z => .sbc (.mem (.zp z)),
    .byte fun z => .inc (.zp z),
    .byte fun z => .isc (.zp z),
    .one .inx,
    .byte fun v => .sbc (.imm v),
    .one (.nop (.imp 0)),
    .byte fun v => .usbc v,
    .word fun a => .cpx (.mem (.abs a)),
    .word fun a => .sbc (.mem (.abs a)),
    .word fun a => .inc (.abs a),
    .word fun a => .isc (.abs a) ]

/-- Row Fx of the map of 30_encoding.md R179. -/
def opcodeRowF : List Layout :=
  [ .byte fun off => .beq off,
    .byte fun z => .sbc (.mem (.izy z)),
    .one (.jam 11),
    .byte fun z => .isc (.izy z),
    .byte fun z => .nop (.zpx 5 z),
    .byte fun z => .sbc (.mem (.zpx z)),
    .byte fun z => .inc (.zpx z),
    .byte fun z => .isc (.zpx z),
    .one .sed,
    .word fun a => .sbc (.mem (.aby a)),
    .one (.nop (.imp 6)),
    .word fun a => .isc (.aby a),
    .word fun a => .nop (.abx 5 a),
    .word fun a => .sbc (.mem (.abx a)),
    .word fun a => .inc (.abx a),
    .word fun a => .isc (.abx a) ]

/-- The map of 30_encoding.md R179, in opcode order. -/
def opcodeMap : List Layout :=
  opcodeRow0 ++ opcodeRow1 ++ opcodeRow2 ++ opcodeRow3 ++ opcodeRow4 ++ opcodeRow5 ++ opcodeRow6 ++ opcodeRow7 ++
  opcodeRow8 ++ opcodeRow9 ++ opcodeRowA ++ opcodeRowB ++ opcodeRowC ++ opcodeRowD ++ opcodeRowE ++ opcodeRowF

/-- The layout an opcode byte selects. The map has 256 entries (`opcodeMap_length` of Laws/Decode.lean), so the default
is never met. -/
def layoutOf (op : Byte) : Layout := opcodeMap.getD op.toNat (.one (.nop (.imp 0)))

/-- Decode the instruction at the head of a byte string, and the bytes after it. -/
def decode : List Byte → Except DecodeError (Instr × List Byte)
  | [] => .error .noOpcode
  | op :: rest =>
    match layoutOf op, rest with
    | .one i, rest => .ok (i, rest)
    | .byte f, b :: rest => .ok (f b, rest)
    | .word f, lo :: hi :: rest => .ok (f (wordOf lo hi), rest)
    | _, _ => .error (.missingOperand op)

/-- The bytes of an instruction word numbered as opcode_table.json numbers it: byte 0 in bits 7..0, the bits from
`nbits` on zero. -/
def tableBytes (nbits w : Nat) : List Byte :=
  let v := w % 2 ^ nbits
  [BitVec.ofNat 8 v, BitVec.ofNat 8 (v / 256), BitVec.ofNat 8 (v / 65536)]

/-- The instruction the decoder reads from an opcode-table word. -/
def decodeTableWord (nbits w : Nat) : Option Instr :=
  match decode (tableBytes nbits w) with
  | .ok (i, _) => some i
  | .error _ => none

/-! ## The encoder -/

/-- Opcode, then the operand word, low byte first (30_encoding.md R161, R169). -/
def wordForm (op : Byte) (a : Word) : List Byte := [op, loByte a, hiByte a]

/-- The k-th opcode of a list of opcodes that share mnemonic and mode. -/
def nth {n : Nat} (ops : List Byte) (k : Fin n) : Byte := ops.getD k.val 0

/-- The opcodes an instruction has for the memory modes. -/
structure ModeOpcodes where
  zp  : Option Byte := none
  zpx : Option Byte := none
  zpy : Option Byte := none
  abs : Option Byte := none
  abx : Option Byte := none
  aby : Option Byte := none
  izx : Option Byte := none
  izy : Option Byte := none

/-- A memory-mode operand behind the opcode the instruction gives its mode, if it gives one. -/
def MemMode.encode (m : MemMode) (ops : ModeOpcodes) : Option (List Byte) :=
  match m with
  | .zp z => ops.zp.map fun op => [op, z]
  | .zpx z => ops.zpx.map fun op => [op, z]
  | .zpy z => ops.zpy.map fun op => [op, z]
  | .abs a => ops.abs.map fun op => wordForm op a
  | .abx a => ops.abx.map fun op => wordForm op a
  | .aby a => ops.aby.map fun op => wordForm op a
  | .izx z => ops.izx.map fun op => [op, z]
  | .izy z => ops.izy.map fun op => [op, z]

def ReadOperand.encode (o : ReadOperand) (imm : Byte) (ops : ModeOpcodes) : Option (List Byte) :=
  match o with
  | .imm v => some [imm, v]
  | .mem m => m.encode ops

def ModifyOperand.encode (o : ModifyOperand) (acc : Byte) (ops : ModeOpcodes) : Option (List Byte) :=
  match o with
  | .acc => some [acc]
  | .mem m => m.encode ops

/-- The bytes of an instruction; `none` where its operand has a mode that the instruction has no opcode for. -/
def encode : Instr → Option (List Byte)
  | .lda o =>
      o.encode 0xA9
        { zp := some 0xA5, zpx := some 0xB5, abs := some 0xAD, abx := some 0xBD,
          aby := some 0xB9, izx := some 0xA1, izy := some 0xB1 }
  | .ldx o => o.encode 0xA2 { zp := some 0xA6, zpy := some 0xB6, abs := some 0xAE, aby := some 0xBE }
  | .ldy o => o.encode 0xA0 { zp := some 0xA4, zpx := some 0xB4, abs := some 0xAC, abx := some 0xBC }
  | .sta m =>
      m.encode
        { zp := some 0x85, zpx := some 0x95, abs := some 0x8D, abx := some 0x9D,
          aby := some 0x99, izx := some 0x81, izy := some 0x91 }
  | .stx m => m.encode { zp := some 0x86, zpy := some 0x96, abs := some 0x8E }
  | .sty m => m.encode { zp := some 0x84, zpx := some 0x94, abs := some 0x8C }
  | .tax => some [0xAA]
  | .tay => some [0xA8]
  | .txa => some [0x8A]
  | .tya => some [0x98]
  | .tsx => some [0xBA]
  | .txs => some [0x9A]
  | .pha => some [0x48]
  | .php => some [0x08]
  | .pla => some [0x68]
  | .plp => some [0x28]
  | .adc o =>
      o.encode 0x69
        { zp := some 0x65, zpx := some 0x75, abs := some 0x6D, abx := some 0x7D,
          aby := some 0x79, izx := some 0x61, izy := some 0x71 }
  | .sbc o =>
      o.encode 0xE9
        { zp := some 0xE5, zpx := some 0xF5, abs := some 0xED, abx := some 0xFD,
          aby := some 0xF9, izx := some 0xE1, izy := some 0xF1 }
  | .and o =>
      o.encode 0x29
        { zp := some 0x25, zpx := some 0x35, abs := some 0x2D, abx := some 0x3D,
          aby := some 0x39, izx := some 0x21, izy := some 0x31 }
  | .ora o =>
      o.encode 0x09
        { zp := some 0x05, zpx := some 0x15, abs := some 0x0D, abx := some 0x1D,
          aby := some 0x19, izx := some 0x01, izy := some 0x11 }
  | .eor o =>
      o.encode 0x49
        { zp := some 0x45, zpx := some 0x55, abs := some 0x4D, abx := some 0x5D,
          aby := some 0x59, izx := some 0x41, izy := some 0x51 }
  | .cmp o =>
      o.encode 0xC9
        { zp := some 0xC5, zpx := some 0xD5, abs := some 0xCD, abx := some 0xDD,
          aby := some 0xD9, izx := some 0xC1, izy := some 0xD1 }
  | .cpx o => o.encode 0xE0 { zp := some 0xE4, abs := some 0xEC }
  | .cpy o => o.encode 0xC0 { zp := some 0xC4, abs := some 0xCC }
  | .bit m => m.encode { zp := some 0x24, abs := some 0x2C }
  | .inc m => m.encode { zp := some 0xE6, zpx := some 0xF6, abs := some 0xEE, abx := some 0xFE }
  | .dec m => m.encode { zp := some 0xC6, zpx := some 0xD6, abs := some 0xCE, abx := some 0xDE }
  | .inx => some [0xE8]
  | .iny => some [0xC8]
  | .dex => some [0xCA]
  | .dey => some [0x88]
  | .asl o => o.encode 0x0A { zp := some 0x06, zpx := some 0x16, abs := some 0x0E, abx := some 0x1E }
  | .lsr o => o.encode 0x4A { zp := some 0x46, zpx := some 0x56, abs := some 0x4E, abx := some 0x5E }
  | .rol o => o.encode 0x2A { zp := some 0x26, zpx := some 0x36, abs := some 0x2E, abx := some 0x3E }
  | .ror o => o.encode 0x6A { zp := some 0x66, zpx := some 0x76, abs := some 0x6E, abx := some 0x7E }
  | .bpl off => some [0x10, off]
  | .bmi off => some [0x30, off]
  | .bvc off => some [0x50, off]
  | .bvs off => some [0x70, off]
  | .bcc off => some [0x90, off]
  | .bcs off => some [0xB0, off]
  | .bne off => some [0xD0, off]
  | .beq off => some [0xF0, off]
  | .jmp (.abs a) => some (wordForm 0x4C a)
  | .jmp (.ind a) => some (wordForm 0x6C a)
  | .jsr t => some (wordForm 0x20 t)
  | .rts => some [0x60]
  | .rti => some [0x40]
  | .brk => some [0x00]
  | .clc => some [0x18]
  | .sec => some [0x38]
  | .cli => some [0x58]
  | .sei => some [0x78]
  | .cld => some [0xD8]
  | .sed => some [0xF8]
  | .clv => some [0xB8]
  | .nop (.imp k) => some [nth [0xEA, 0x1A, 0x3A, 0x5A, 0x7A, 0xDA, 0xFA] k]
  | .nop (.imm k v) => some [nth [0x80, 0x82, 0x89, 0xC2, 0xE2] k, v]
  | .nop (.zp k z) => some [nth [0x04, 0x44, 0x64] k, z]
  | .nop (.zpx k z) => some [nth [0x14, 0x34, 0x54, 0x74, 0xD4, 0xF4] k, z]
  | .nop (.abs a) => some (wordForm 0x0C a)
  | .nop (.abx k a) => some (wordForm (nth [0x1C, 0x3C, 0x5C, 0x7C, 0xDC, 0xFC] k) a)
  | .slo m =>
      m.encode
        { zp := some 0x07, zpx := some 0x17, abs := some 0x0F, abx := some 0x1F,
          aby := some 0x1B, izx := some 0x03, izy := some 0x13 }
  | .rla m =>
      m.encode
        { zp := some 0x27, zpx := some 0x37, abs := some 0x2F, abx := some 0x3F,
          aby := some 0x3B, izx := some 0x23, izy := some 0x33 }
  | .sre m =>
      m.encode
        { zp := some 0x47, zpx := some 0x57, abs := some 0x4F, abx := some 0x5F,
          aby := some 0x5B, izx := some 0x43, izy := some 0x53 }
  | .rra m =>
      m.encode
        { zp := some 0x67, zpx := some 0x77, abs := some 0x6F, abx := some 0x7F,
          aby := some 0x7B, izx := some 0x63, izy := some 0x73 }
  | .sax m => m.encode { zp := some 0x87, zpy := some 0x97, abs := some 0x8F, izx := some 0x83 }
  | .lax m =>
      m.encode
        { zp := some 0xA7, zpy := some 0xB7, abs := some 0xAF,
          aby := some 0xBF, izx := some 0xA3, izy := some 0xB3 }
  | .dcp m =>
      m.encode
        { zp := some 0xC7, zpx := some 0xD7, abs := some 0xCF, abx := some 0xDF,
          aby := some 0xDB, izx := some 0xC3, izy := some 0xD3 }
  | .isc m =>
      m.encode
        { zp := some 0xE7, zpx := some 0xF7, abs := some 0xEF, abx := some 0xFF,
          aby := some 0xFB, izx := some 0xE3, izy := some 0xF3 }
  | .anc k v => some [nth [0x0B, 0x2B] k, v]
  | .alr v => some [0x4B, v]
  | .arr v => some [0x6B, v]
  | .sbx v => some [0xCB, v]
  | .ane v => some [0x8B, v]
  | .lxa v => some [0xAB, v]
  | .sha m => m.encode { aby := some 0x9F, izy := some 0x93 }
  | .shx a => some (wordForm 0x9E a)
  | .shy a => some (wordForm 0x9C a)
  | .tas a => some (wordForm 0x9B a)
  | .las a => some (wordForm 0xBB a)
  | .usbc v => some [0xEB, v]
  | .jam k => some [nth [0x02, 0x12, 0x22, 0x32, 0x42, 0x52, 0x62, 0x72, 0x92, 0xB2, 0xD2, 0xF2] k]

end Sys2Proof
end

