-- ==== Sys2Proof/Machine/Flags.lean ====
section
/-! DEFINITION. Every flag computation and every arithmetic function of the CPU, as functions on bytes and flags:
10_state.md R43, R44, 00_scope.md R14 (`SetNZ`), 41_alu.md R240 to R247, 43_undocumented.md R362. -/

namespace Sys2Proof.Machine

/-! ## The status byte -/

/-- One bit of a byte at its place. -/
def bitAt (b : Bool) (i : Nat) : Byte := if b then 1#8 <<< i else 0#8

/-- `StatusByte(b)` (10_state.md R43): bit 5 always 1, bit 4 from the kind of push. -/
def statusByte (p : Flags) (brk : Bool) : Byte :=
  bitAt p.n 7 ||| bitAt p.v 6 ||| bitAt true 5 ||| bitAt brk 4 ||| bitAt p.d 3 ||| bitAt p.i 2 ||| bitAt p.z 1
    ||| bitAt p.c 0

/-- `LoadStatus(v)` (10_state.md R44): bit 5 is discarded. -/
def loadStatus (v : Byte) : Flags where
  n := v.getLsbD 7
  v := v.getLsbD 6
  b := v.getLsbD 4
  d := v.getLsbD 3
  i := v.getLsbD 2
  z := v.getLsbD 1
  c := v.getLsbD 0

/-- `SetNZ(v)` (00_scope.md R14). -/
def setNZ (v : Byte) (p : Flags) : Flags := { p with n := v.getLsbD 7, z := v == 0 }

/-! ## Addition and subtraction -/

/-- A result byte and the four flags of the adder. -/
structure AluOut where
  r : Byte
  c : Bool
  v : Bool
  n : Bool
  z : Bool
  deriving DecidableEq, Repr

/-- `ADD_BIN(a, m, c)` (41_alu.md R240). -/
def addBin (a m : Byte) (c : Bool) : AluOut :=
  let s := a.toNat + m.toNat + c.toNat
  let r := BitVec.ofNat 8 s
  { r := r
    c := decide (256 ≤ s)
    v := ((a ^^^ r) &&& (m ^^^ r) &&& 0x80#8) != 0#8
    n := r.getLsbD 7
    z := r == 0#8 }

/-- `ADD_DEC(a, m, c)`, the NMOS algorithm on naturals, step by step as 41_alu.md R241 numbers them. -/
def addDec (a m : Byte) (c : Bool) : AluOut :=
  let al₁ := (a.toNat &&& 0x0F) + (m.toNat &&& 0x0F) + c.toNat
  let al₂ := if 0x0A ≤ al₁ then ((al₁ + 0x06) &&& 0x0F) + 0x10 else al₁
  let t₁ := (a.toNat &&& 0xF0) + (m.toNat &&& 0xF0) + al₂
  let t₂ := if 0xA0 ≤ t₁ then t₁ + 0x60 else t₁
  { r := BitVec.ofNat 8 t₂
    c := decide (0x100 ≤ t₂)
    v := ((a.toNat ^^^ t₁) &&& (m.toNat ^^^ t₁) &&& 0x80) != 0
    n := t₁.testBit 7
    z := (a.toNat + m.toNat + c.toNat) % 256 == 0 }

/-- `SUB_BIN(a, m, c)` (41_alu.md R243): the carry is "not borrow". -/
def subBin (a m : Byte) (c : Bool) : AluOut :=
  let d : Int := (a.toNat : Int) - m.toNat - (1 - (c.toNat : Int))
  let r := BitVec.ofInt 8 d
  { r := r
    c := decide (0 ≤ d)
    v := ((a ^^^ m) &&& (a ^^^ r) &&& 0x80#8) != 0#8
    n := r.getLsbD 7
    z := r == 0#8 }

/-- The result byte of `SUB_DEC(a, m, c)` (41_alu.md R244), on integers; `& $0F` of a negative one is its remainder
modulo 16. -/
def subDecResult (a m : Byte) (c : Bool) : Byte :=
  let al₁ : Int := ((a.toNat &&& 0x0F : Nat) : Int) - ((m.toNat &&& 0x0F : Nat) : Int) + (c.toNat : Int) - 1
  let al₂ : Int := if al₁ < 0 then (al₁ - 6) % 16 - 16 else al₁
  let t₁ : Int := ((a.toNat &&& 0xF0 : Nat) : Int) - ((m.toNat &&& 0xF0 : Nat) : Int) + al₂
  let t₂ : Int := if t₁ < 0 then t₁ - 0x60 else t₁
  BitVec.ofInt 8 t₂

/-- `SUB_DEC(a, m, c)` (41_alu.md R244): the flags are those of the binary subtraction. -/
def subDec (a m : Byte) (c : Bool) : AluOut := { subBin a m c with r := subDecResult a m c }

/-- The flags after an addition or subtraction (R242, R245). -/
def setAlu (o : AluOut) (p : Flags) : Flags := { p with c := o.c, v := o.v, n := o.n, z := o.z }

/-- The adder `AddWithCarry` uses: decimal by `P.D` (41_alu.md R242). -/
def addSelect (p : Flags) (a m : Byte) : AluOut := if p.d then addDec a m p.c else addBin a m p.c

/-- The subtracter `SubWithBorrow` uses: decimal by `P.D` (41_alu.md R245). -/
def subSelect (p : Flags) (a m : Byte) : AluOut := if p.d then subDec a m p.c else subBin a m p.c

/-! ## Compare and bit test -/

/-- `Compare(reg, m)` (41_alu.md R246). -/
def compareFlags (reg m : Byte) (p : Flags) : Flags :=
  { p with c := decide (m.toNat ≤ reg.toNat), z := reg == m, n := (reg - m).getLsbD 7 }

/-- The flags of BIT (41_alu.md R258). -/
def bitFlags (a m : Byte) (p : Flags) : Flags :=
  { p with z := (a &&& m) == 0#8, n := m.getLsbD 7, v := m.getLsbD 6 }

/-! ## Shifts and rotates -/

/-- The functions a read-modify-write instruction applies (41_alu.md R247, R259, R260). -/
inductive ModifyOp where
  | shiftLeft
  | shiftRight
  | rotateLeft
  | rotateRight
  | increment
  | decrement
  deriving DecidableEq, Repr

/-- The result of a modify function for the carry before the instruction (41_alu.md R247, R259, R260). -/
def modifyResult (op : ModifyOp) (c : Bool) (v : Byte) : Byte :=
  match op with
  | .shiftLeft => v <<< 1
  | .shiftRight => v >>> 1
  | .rotateLeft => (v <<< 1) ||| bitAt c 0
  | .rotateRight => (v >>> 1) ||| bitAt c 7
  | .increment => v + 1
  | .decrement => v - 1

/-- The carry a modify function leaves (41_alu.md R247); increment and decrement leave it unchanged. -/
def modifyCarry (op : ModifyOp) (c : Bool) (v : Byte) : Bool :=
  match op with
  | .shiftLeft => v.getLsbD 7
  | .shiftRight => v.getLsbD 0
  | .rotateLeft => v.getLsbD 7
  | .rotateRight => v.getLsbD 0
  | .increment => c
  | .decrement => c

/-- The flags a modify function leaves: the carry, then `SetNZ` of the result (41_alu.md R247). -/
def modifyFlags (op : ModifyOp) (v : Byte) (p : Flags) : Flags :=
  setNZ (modifyResult op p.c v) { p with c := modifyCarry op p.c v }

/-! ## ARR -/

/-- The result and flags of ARR in binary mode, from `t = A & m` (43_undocumented.md R362, D = 0). -/
def arrBin (t : Byte) (c : Bool) : AluOut :=
  let r := (t >>> 1) ||| bitAt c 7
  { r := r, c := r.getLsbD 6, v := r.getLsbD 6 ^^ r.getLsbD 5, n := r.getLsbD 7, z := r == 0#8 }

/-- The result and flags of ARR in decimal mode, from `t = A & m` (43_undocumented.md R362, D = 1). -/
def arrDec (t : Byte) (c : Bool) : AluOut :=
  let r := (t >>> 1) ||| bitAt c 7
  let r₁ := if 5 < (t &&& 0x0F#8).toNat + (t &&& 0x01#8).toNat then (r &&& 0xF0#8) ||| ((r + 6) &&& 0x0F#8) else r
  let high := decide (0x50 < (t &&& 0xF0#8).toNat + (t &&& 0x10#8).toNat)
  { r := if high then r₁ + 0x60 else r₁
    c := high
    v := ((t ^^^ r) &&& 0x40#8) != 0#8
    n := c
    z := r == 0#8 }

/-- ARR by the decimal flag (43_undocumented.md R362). -/
def arrSelect (p : Flags) (t : Byte) : AluOut := if p.d then arrDec t p.c else arrBin t p.c

end Sys2Proof.Machine
end

