-- ==== Sys2Proof/Machine/Video.lean ====
section
/-! DEFINITION. The video/audio engine (44_video_engine.md): register file, pending-write queue, write effects, the
color-clock step, read registers and audio. It is stepped by the orchestrator alone and never touches memory (R400). -/

namespace Sys2Proof.Machine

/-! ## Register map -/

/-- The write registers `$00` to `$2C` of 44_video_engine.md R403. -/
inductive VReg where
  | vsync | vblank | wsync | rsync | nusiz0 | nusiz1 | colup0 | colup1 | colupf | colubk | ctrlpf | refp0 | refp1
  | pf0 | pf1 | pf2 | resp0 | resp1 | resm0 | resm1 | resbl | audc0 | audc1 | audf0 | audf1 | audv0 | audv1
  | grp0 | grp1 | enam0 | enam1 | enabl | hmp0 | hmp1 | hmm0 | hmm1 | hmbl | vdelp0 | vdelp1 | vdelbl
  | resmp0 | resmp1 | hmove | hmclr | cxclr
  deriving DecidableEq, Repr

/-- The register names by number, `$00` upward (44_video_engine.md R403). -/
def videoRegMap : List VReg :=
  [ .vsync, .vblank, .wsync, .rsync, .nusiz0, .nusiz1, .colup0, .colup1,
    .colupf, .colubk, .ctrlpf, .refp0, .refp1, .pf0, .pf1, .pf2,
    .resp0, .resp1, .resm0, .resm1, .resbl, .audc0, .audc1, .audf0,
    .audf1, .audv0, .audv1, .grp0, .grp1, .enam0, .enam1, .enabl,
    .hmp0, .hmp1, .hmm0, .hmm1, .hmbl, .vdelp0, .vdelp1, .vdelbl,
    .resmp0, .resmp1, .hmove, .hmclr, .cxclr ]

/-- The register of a number; `none` for `$2D` to `$3F` (R427). -/
def videoReg (n : BitVec 6) : Option VReg := videoRegMap[n.toNat]?

/-- The bits a register keeps (R403, R406); a strobe keeps none. -/
def keepMask : VReg → Byte
  | .vsync => 0x02
  | .vblank => 0xC2
  | .wsync => 0x00
  | .rsync => 0x00
  | .nusiz0 => 0x37
  | .nusiz1 => 0x37
  | .colup0 => 0xFE
  | .colup1 => 0xFE
  | .colupf => 0xFE
  | .colubk => 0xFE
  | .ctrlpf => 0x37
  | .refp0 => 0x08
  | .refp1 => 0x08
  | .pf0 => 0xF0
  | .pf1 => 0xFF
  | .pf2 => 0xFF
  | .resp0 => 0x00
  | .resp1 => 0x00
  | .resm0 => 0x00
  | .resm1 => 0x00
  | .resbl => 0x00
  | .audc0 => 0x0F
  | .audc1 => 0x0F
  | .audf0 => 0x1F
  | .audf1 => 0x1F
  | .audv0 => 0x0F
  | .audv1 => 0x0F
  | .grp0 => 0xFF
  | .grp1 => 0xFF
  | .enam0 => 0x02
  | .enam1 => 0x02
  | .enabl => 0x02
  | .hmp0 => 0xF0
  | .hmp1 => 0xF0
  | .hmm0 => 0xF0
  | .hmm1 => 0xF0
  | .hmbl => 0xF0
  | .vdelp0 => 0x01
  | .vdelp1 => 0x01
  | .vdelbl => 0x01
  | .resmp0 => 0x02
  | .resmp1 => 0x02
  | .hmove => 0x00
  | .hmclr => 0x00
  | .cxclr => 0x00

/-! ## Positions -/

/-- An integer column modulo the 160 visible pixels (10_state.md R59). -/
def wrapColumn (n : Int) : Nat := (n % (visibleWidth : Int)).toNat

/-- The position a reset strobe gives with the delay of its object class (R415, R416): the beam column, clamped to 0 in
horizontal blank, plus the delay. -/
def resetPosition (cfg : Config) (v : Video) (delay : Nat) : Nat := (v.h - cfg.hblankCc + delay) % visibleWidth

/-- The motion value of a motion register (R420). -/
def motion (hm : Byte) : Int := (hm.extractLsb' 4 4).toInt

/-- One object's move (R423). -/
def movedBy (hm : Byte) (pos : Nat) : Nat := wrapColumn ((pos : Int) - motion hm)

/-! ## Write effects -/

/-- VSYNC (R408), from the masked value. -/
def applyVsync (b : Byte) (v : Video) : Video :=
  let new := b.getLsbD 1
  let stored := { v with regs := { v.regs with vsync := b }, prevVsync := new }
  if !v.prevVsync && new then
    { stored with frameReady := true, frameCount := v.frameCount + 1, line := 0 }
  else if v.prevVsync && !new then
    { stored with prevVblank := false, visibleStart := none }
  else stored

/-- HMOVE (R423). -/
def applyHmove (cfg : Config) (v : Video) : Video :=
  { v with
    posP0 := movedBy v.regs.hmp0 v.posP0
    posP1 := movedBy v.regs.hmp1 v.posP1
    posM0 := movedBy v.regs.hmm0 v.posM0
    posM1 := movedBy v.regs.hmm1 v.posM1
    posBL := movedBy v.regs.hmbl v.posBL
    hmoveBlank := v.hmoveBlank || decide (v.h < cfg.hblankCc) }

/-- Apply a write of an already masked value to a register (R407 to R427). -/
def applyReg (cfg : Config) (reg : VReg) (b : Byte) (v : Video) : Video :=
  match reg with
  | .vsync => applyVsync b v
  | .vblank => { v with regs := { v.regs with vblank := b } }
  | .wsync => { v with wsyncHalt := true }
  | .rsync => v
  | .nusiz0 => { v with regs := { v.regs with nusiz0 := b } }
  | .nusiz1 => { v with regs := { v.regs with nusiz1 := b } }
  | .colup0 => { v with regs := { v.regs with colup0 := b } }
  | .colup1 => { v with regs := { v.regs with colup1 := b } }
  | .colupf => { v with regs := { v.regs with colupf := b } }
  | .colubk => { v with regs := { v.regs with colubk := b } }
  | .ctrlpf => { v with regs := { v.regs with ctrlpf := b } }
  | .refp0 => { v with regs := { v.regs with refp0 := b } }
  | .refp1 => { v with regs := { v.regs with refp1 := b } }
  | .pf0 => { v with regs := { v.regs with pf0 := b } }
  | .pf1 => { v with regs := { v.regs with pf1 := b } }
  | .pf2 => { v with regs := { v.regs with pf2 := b } }
  | .resp0 => { v with posP0 := resetPosition cfg v 5 }
  | .resp1 => { v with posP1 := resetPosition cfg v 5 }
  | .resm0 => { v with posM0 := resetPosition cfg v 4 }
  | .resm1 => { v with posM1 := resetPosition cfg v 4 }
  | .resbl => { v with posBL := resetPosition cfg v 4 }
  | .audc0 => { v with regs := { v.regs with audc0 := b } }
  | .audc1 => { v with regs := { v.regs with audc1 := b } }
  | .audf0 => { v with regs := { v.regs with audf0 := b } }
  | .audf1 => { v with regs := { v.regs with audf1 := b } }
  | .audv0 => { v with regs := { v.regs with audv0 := b } }
  | .audv1 => { v with regs := { v.regs with audv1 := b } }
  | .grp0 => { v with grp0New := b, grp1Old := v.grp1New }
  | .grp1 => { v with grp1New := b, grp0Old := v.grp0New, enablOld := v.enablNew }
  | .enam0 => { v with regs := { v.regs with enam0 := b } }
  | .enam1 => { v with regs := { v.regs with enam1 := b } }
  | .enabl => { v with enablNew := b.getLsbD 1 }
  | .hmp0 => { v with regs := { v.regs with hmp0 := b } }
  | .hmp1 => { v with regs := { v.regs with hmp1 := b } }
  | .hmm0 => { v with regs := { v.regs with hmm0 := b } }
  | .hmm1 => { v with regs := { v.regs with hmm1 := b } }
  | .hmbl => { v with regs := { v.regs with hmbl := b } }
  | .vdelp0 => { v with regs := { v.regs with vdelp0 := b } }
  | .vdelp1 => { v with regs := { v.regs with vdelp1 := b } }
  | .vdelbl => { v with regs := { v.regs with vdelbl := b } }
  | .resmp0 => { v with regs := { v.regs with resmp0 := b } }
  | .resmp1 => { v with regs := { v.regs with resmp1 := b } }
  | .hmove => applyHmove cfg v
  | .hmclr => { v with regs := { v.regs with hmp0 := 0, hmp1 := 0, hmm0 := 0, hmm1 := 0, hmbl := 0 } }
  | .cxclr => { v with cx := {} }

/-- Apply one queue entry: masked (R406) by the register's kept bits; an unused number has no effect (R427). -/
def applyWrite (cfg : Config) (v : Video) (w : PendingWrite) : Video :=
  match videoReg w.reg with
  | some reg => applyReg cfg reg (w.value &&& keepMask reg) v
  | none => v

/-! ## Delayed-write queue -/

/-- `tia_schedule(reg, v, d)` (R412). -/
def schedule (v : Video) (reg : BitVec 6) (value : Byte) (delay : Nat) : Video :=
  { v with queue := v.queue ++ [⟨delay, reg, value⟩] }

/-- Apply the due entries of a queue in submission order; an earlier entry for a due entry's register, still pending, is
applied just before it (R413; log entry 9). `kept` are the entries passed over so far. -/
def drainQueue (cfg : Config) : List PendingWrite → List PendingWrite → Video → Video
  | kept, [], v => { v with queue := kept }
  | kept, w :: rest, v =>
    if w.remaining = 0 then
      let earlier := kept.filter fun e => e.reg == w.reg
      drainQueue cfg (kept.filter fun e => e.reg != w.reg) rest
        (applyWrite cfg (earlier.foldl (applyWrite cfg) v) w)
    else drainQueue cfg (kept ++ [w]) rest v

/-- One color clock of every entry (R413): an entry already at 0 stays at 0. -/
def countDown (w : PendingWrite) : PendingWrite := { w with remaining := w.remaining - 1 }

/-- Phase (a): queue processing (R413). -/
def phaseQueue (cfg : Config) (v : Video) : Video := drainQueue cfg [] (v.queue.map countDown) v

/-! ## Phase (a2): missile lock and visible-window detector -/

/-- The copy mode of a NUSIZ register. -/
def copyMode (nusiz : Byte) : Nat := (nusiz &&& 0x07).toNat

/-- RESMP locking (R437). -/
def lockedPosition (cfg : Config) (resmp nusiz : Byte) (posP posM : Nat) : Nat :=
  if resmp.getLsbD 1 then (posP + resmpOffsetOf cfg (copyMode nusiz)) % visibleWidth else posM

/-- RESMP locking of both missiles (R437). DEDUCED (log entry 20): phase (a2) of every step, so the lock overwrites a
position that RESMn set in phase (a) of the same color clock, where R416 says "at the next step". -/
def phaseLock (cfg : Config) (v : Video) : Video :=
  { v with
    posM0 := lockedPosition cfg v.regs.resmp0 v.regs.nusiz0 v.posP0 v.posM0
    posM1 := lockedPosition cfg v.regs.resmp1 v.regs.nusiz1 v.posP1 v.posM1 }

/-- The visible-window detector (R431). -/
def phaseDetect (v : Video) : Video :=
  let cur := v.regs.vblank.getLsbD 1
  { v with
    visibleStart := if v.prevVblank && !cur && v.visibleStart.isNone then some v.line else v.visibleStart
    prevVblank := cur }

/-! ## Objects at a column -/

/-- The copy offsets of a copy mode (R434). -/
def copyOffsets (c : Nat) : List Nat :=
  match c with
  | 1 => [0, 16]
  | 2 => [0, 32]
  | 3 => [0, 16, 32]
  | 4 => [0, 64]
  | 6 => [0, 32, 64]
  | _ => [0]

/-- The width multiplier of a copy mode (R434). -/
def widthMultiplier (c : Nat) : Nat :=
  match c with
  | 5 => 2
  | 7 => 4
  | _ => 1

/-- How far column `x` lies right of a copy of an object (R434 to R436). -/
def columnsRight (x pos offset : Nat) : Nat := wrapColumn ((x : Int) - pos - offset)

/-- The playfield bit of a half (R433). -/
def halfBit (r : VideoRegs) (j : Nat) : Bool :=
  if j < 4 then r.pf0.getLsbD (4 + j)
  else if j < 12 then r.pf1.getLsbD (11 - j)
  else r.pf2.getLsbD (j - 12)

/-- The playfield bit at column `x` (R433). -/
def playfieldBit (r : VideoRegs) (x : Nat) : Bool :=
  let i := x / 4
  halfBit r (if i < 20 then i else if r.ctrlpf.getLsbD 0 then 39 - i else i - 20)

/-- A player's bit at column `x` (R434). -/
def playerBit (g nusiz refp : Byte) (pos x : Nat) : Bool :=
  let w := widthMultiplier (copyMode nusiz)
  (copyOffsets (copyMode nusiz)).any fun o =>
    let d := columnsRight x pos o
    decide (d < 8 * w) && (if refp.getLsbD 3 then g.getLsbD (d / w) else g.getLsbD (7 - d / w))

/-- The width `1 << v[5:4]` of a missile or the ball (R435, R436). -/
def objectWidth (r : Byte) : Nat := 2 ^ ((r >>> 4) &&& 0x03).toNat

/-- A missile's bit at column `x` (R435). -/
def missileBit (enam resmp nusiz : Byte) (pos x : Nat) : Bool :=
  enam.getLsbD 1 && !resmp.getLsbD 1 &&
    (copyOffsets (copyMode nusiz)).any fun o => decide (columnsRight x pos o < objectWidth nusiz)

/-- The ball's bit at column `x` (R436). -/
def ballBit (v : Video) (x : Nat) : Bool :=
  (if v.regs.vdelbl.getLsbD 0 then v.enablOld else v.enablNew) &&
    decide (columnsRight x v.posBL 0 < objectWidth v.regs.ctrlpf)

/-- The six signals at a pixel. -/
structure Signals where
  p0 : Bool
  p1 : Bool
  m0 : Bool
  m1 : Bool
  bl : Bool
  pf : Bool
  deriving DecidableEq, Repr

/-- The object bits at column `x` (R433 to R436); VDELPn selects the shadow (R421). -/
def signalsAt (v : Video) (x : Nat) : Signals where
  p0 := playerBit (if v.regs.vdelp0.getLsbD 0 then v.grp0Old else v.grp0New) v.regs.nusiz0 v.regs.refp0 v.posP0 x
  p1 := playerBit (if v.regs.vdelp1.getLsbD 0 then v.grp1Old else v.grp1New) v.regs.nusiz1 v.regs.refp1 v.posP1 x
  m0 := missileBit v.regs.enam0 v.regs.resmp0 v.regs.nusiz0 v.posM0 x
  m1 := missileBit v.regs.enam1 v.regs.resmp1 v.regs.nusiz1 v.posM1 x
  bl := ballBit v x
  pf := playfieldBit v.regs x

/-- The playfield's colour at column `x`, score mode included (R438). -/
def playfieldColour (r : VideoRegs) (x : Nat) : Byte :=
  if r.ctrlpf.getLsbD 1 then (if x < 80 then r.colup0 else r.colup1) else r.colupf

/-- The pixel colour by priority (R438). -/
def pixelColour (r : VideoRegs) (g : Signals) (x : Nat) : Byte :=
  if r.ctrlpf.getLsbD 2 then
    if g.bl then r.colupf
    else if g.pf then playfieldColour r x
    else if g.p0 || g.m0 then r.colup0
    else if g.p1 || g.m1 then r.colup1
    else r.colubk
  else
    if g.p0 || g.m0 then r.colup0
    else if g.p1 || g.m1 then r.colup1
    else if g.bl then r.colupf
    else if g.pf then playfieldColour r x
    else r.colubk

/-- Collision latches for every pair that overlaps (R439). -/
def latch (g : Signals) (c : Collisions) : Collisions where
  m0p1 := c.m0p1 || (g.m0 && g.p1)
  m0p0 := c.m0p0 || (g.m0 && g.p0)
  m1p0 := c.m1p0 || (g.m1 && g.p0)
  m1p1 := c.m1p1 || (g.m1 && g.p1)
  p0pf := c.p0pf || (g.p0 && g.pf)
  p0bl := c.p0bl || (g.p0 && g.bl)
  p1pf := c.p1pf || (g.p1 && g.pf)
  p1bl := c.p1bl || (g.p1 && g.bl)
  m0pf := c.m0pf || (g.m0 && g.pf)
  m0bl := c.m0bl || (g.m0 && g.bl)
  m1pf := c.m1pf || (g.m1 && g.pf)
  m1bl := c.m1bl || (g.m1 && g.bl)
  blpf := c.blpf || (g.bl && g.pf)
  p0p1 := c.p0p1 || (g.p0 && g.p1)
  m0m1 := c.m0m1 || (g.m0 && g.m1)

/-! ## Phases (b) to (e) -/

/-- The step is visible (R432). -/
def visible (cfg : Config) (v : Video) : Bool := decide (cfg.hblankCc ≤ v.h) && !v.regs.vblank.getLsbD 1

/-- What an unlisted framebuffer cell reads as (10_state.md R64). -/
def zeroBase : Nat → Byte := fun _ => 0

/-- The first scanline of the framebuffer (R440). -/
def visibleBase (cfg : Config) (v : Video) : Nat := v.visibleStart.getD (frameGeometry cfg).visibleStart

/-- Framebuffer write (R440). -/
def writePixel (cfg : Config) (x : Nat) (colour : Byte) (v : Video) : Video :=
  let base := visibleBase cfg v
  if base ≤ v.line ∧ v.line - base < (frameGeometry cfg).fbHeight then
    { v with fb := cellWrite zeroBase v.fb ((v.line - base) * visibleWidth + x) colour }
  else v

/-- Phases (b), (c), (d) (R430, R432, R438 to R440). -/
def phaseDraw (cfg : Config) (v : Video) : Video :=
  if visible cfg v then
    let x := v.h - cfg.hblankCc
    if v.hmoveBlank && decide (x < 8) then writePixel cfg x 0 v
    else
      let g := signalsAt v x
      { writePixel cfg x (pixelColour v.regs g x) v with cx := latch g v.cx }
  else v

/-- Phase (e): counter advance (R441). DESIGN CHOICE (log entry 2): where the host has lowered LINE_CC to or below the
current `h`, the counter goes on past it, since R441 wraps at the one value LINE_CC. -/
def phaseAdvance (cfg : Config) (v : Video) : Video :=
  if v.h + 1 = cfg.lineCc then
    { v with
      h := 0
      line := (v.line + 1) % (frameGeometry cfg).lines
      wsyncHalt := false
      hmoveBlank := false }
  else { v with h := v.h + 1 }

/-- `step()`: one color clock (R430). -/
def videoStep (cfg : Config) (v : Video) : Video :=
  phaseAdvance cfg (phaseDraw cfg (phaseDetect (phaseLock cfg (phaseQueue cfg v))))

/-- The value `step()` returns, evaluated on the state it leaves (R443). -/
def stillRunning (v : Video) : Bool := !v.frameReady

/-- `n` color clocks. -/
def videoSteps (cfg : Config) : Nat → Video → Video
  | 0, v => v
  | n + 1, v => videoSteps cfg n (videoStep cfg v)

/-! ## Read registers -/

/-- INPT0 to INPT5, whose bit 7 is a draw (R404, R405). -/
def isInputReg (reg : BitVec 4) : Bool := decide (8 ≤ reg.toNat) && decide (reg.toNat ≤ 13)

/-- Bits 7 and 6 of a read register (R404); `input` is the draw for an input register. -/
def readBits (v : Video) (reg : BitVec 4) (input : Bool) : Bool × Bool :=
  match reg.toNat with
  | 0 => (v.cx.m0p1, v.cx.m0p0)
  | 1 => (v.cx.m1p0, v.cx.m1p1)
  | 2 => (v.cx.p0pf, v.cx.p0bl)
  | 3 => (v.cx.p1pf, v.cx.p1bl)
  | 4 => (v.cx.m0pf, v.cx.m0bl)
  | 5 => (v.cx.m1pf, v.cx.m1bl)
  | 6 => (v.cx.blpf, false)
  | 7 => (v.cx.p0p1, v.cx.m0m1)
  | _ => (isInputReg reg && input, false)

/-- `tia_read(reg)` (R405): bits 5 to 0 are 0. -/
def tiaRead (v : Video) (reg : BitVec 4) (input : Bool) : Byte :=
  bitAt (readBits v reg input).1 7 ||| bitAt (readBits v reg input).2 6

/-! ## Audio -/

/-- A square wave of frequency `clock / divisor` Hz (R444). -/
structure Tone where
  clock     : Nat
  divisor   : Nat
  amplitude : Nat
  deriving DecidableEq, Repr

/-- The output of one channel from its three registers (R444): `none` is silence. -/
def toneOf (cfg : Config) (audc audf audv : Byte) : Option Tone :=
  if audv = 0 ∨ audc = 0 then none
  else some
    { clock := cfg.audioBaseClock
      divisor := (audf.toNat + 1) * cfg.audioDivisor.getD audc.toNat 0
      amplitude := audv.toNat }

/-- The audio output of channel 0 or 1 (R444). -/
def audioTone (cfg : Config) (v : Video) (channel : Fin 2) : Option Tone :=
  if channel = 0 then toneOf cfg v.regs.audc0 v.regs.audf0 v.regs.audv0
  else toneOf cfg v.regs.audc1 v.regs.audf1 v.regs.audv1

end Sys2Proof.Machine
end

