-- ==== Sys2Proof/Machine/Ops.lean ====
section
/-! DEFINITION. The named operations over registers, memory and the bus: bus decode (20_memory.md R110 to R122), the
contents the loaders leave (R125 to R128), one read and one write of the bus with the diagnostic mirror (R101, R105), the
stack, interrupt entry and the return from it (60_exceptions.md R543, R548). -/

namespace Sys2Proof.Machine

/-! ## Registers -/

def State.withA (s : State) (v : Byte) : State := { s with a := v }
def State.withX (s : State) (v : Byte) : State := { s with x := v }
def State.withY (s : State) (v : Byte) : State := { s with y := v }
def State.withSp (s : State) (v : Byte) : State := { s with sp := v }
def State.withPc (s : State) (v : Word) : State := { s with pc := v }
def State.withP (s : State) (v : Flags) : State := { s with p := v }

/-- `cycles <- n`: the value `execute()` returns (00_scope.md R15). -/
def State.withCycles (s : State) (n : Nat) : State := { s with cycles := n }

/-! ## Bus decode -/

/-- What an address reaches. -/
inductive Target where
  /-- `mem[i]`; a write to read-only memory is ignored (20_memory.md R111 to R114). -/
  | memory (i : Nat) (writable : Bool)
  /-- `rom[i]` (R116). -/
  | cartridge (i : Nat)
  /-- `ram[i]` (R119). -/
  | consoleRam (i : Nat)
  /-- The video register window, with the decoded address lines (R117, R118). -/
  | video (a : Word)
  /-- A peripheral window and the offset passed (R111, R120). -/
  | peripheral (p : Periph) (offset : Nat)
  deriving DecidableEq, Repr

/-- The offset a window passes on (20_memory.md R111). DESIGN CHOICE (log entry 15): `minus` passes 0 below its base, `table`
passes 0 past its end and its first entry below its base. -/
def offsetOf (rule : OffsetRule) (a : Nat) : Nat :=
  match rule with
  | .minus base => a - base
  | .mask bits => a &&& bits
  | .table base offsets => offsets.getD (a - base) 0

/-- What a range of `BB_MAP` makes of an address inside it. -/
def mapTarget (t : MapTarget) (a : Nat) : Target :=
  match t with
  | .ram => .memory a true
  | .rom => .memory a false
  | .periph p rule => .peripheral p (offsetOf rule a)

/-- Breadboard decode (20_memory.md R111 to R113): the range holding the address; addresses no range covers are RAM. -/
def breadboardTarget (map : List MapRange) (a : Nat) : Target :=
  match map.find? fun r => decide (r.first ≤ a) && decide (a ≤ r.last) with
  | some r => mapTarget r.target a
  | none => .memory a true

/-- Console decode by address lines A12, A7, A9, in this order (20_memory.md R115 to R120). -/
def consoleTarget (addr : Word) : Target :=
  let a := addr &&& 0x1FFF#16
  if a.getLsbD 12 then .cartridge (a &&& 0x0FFF#16).toNat
  else if !a.getLsbD 7 then .video a
  else if !a.getLsbD 9 then .consoleRam (a &&& 0x7F#16).toNat
  else .peripheral .timerSwitch (a &&& 0x1F#16).toNat

/-- The decode of the active mode (20_memory.md R110). -/
def busTarget (mode : Mode) (map : List MapRange) (addr : Word) : Target :=
  match mode with
  | .breadboard => breadboardTarget map addr.toNat
  | .flatTest => .memory addr.toNat true
  | .console => consoleTarget addr

def State.target (s : State) (addr : Word) : Target := busTarget s.mode s.cfg.bbMap addr

/-! ## Memory contents -/

/-- Byte `i` of an image. -/
def Image.byte (im : Image) (i : Nat) : Byte := if i < im.size then cellRead zeroBase im.bytes i else 0

/-- What the loader of a mode leaves in `mem[a]` (20_memory.md R125, R127). -/
def memBase (mode : Mode) (l : Loaded) (a : Nat) : Byte :=
  match mode with
  | .breadboard =>
    if a = 0xFFFC then loByte l.resetVector
    else if a = 0xFFFD then hiByte l.resetVector
    else if l.romBase.toNat ≤ a then
      (if a - l.romBase.toNat < l.image.size then l.image.byte (a - l.romBase.toNat) else 0xEA)
    else 0
  | .flatTest => l.image.byte a
  | .console => 0

/-- What the console loader leaves in `rom[i]` (20_memory.md R126): an image of up to 2 KiB appears twice. -/
def romBase (mode : Mode) (l : Loaded) (i : Nat) : Byte :=
  match mode with
  | .console => if l.image.size ≤ 2048 then l.image.byte (i % 2048) else l.image.byte i
  | .breadboard => 0
  | .flatTest => 0

def State.memByte (s : State) (i : Nat) : Byte := cellRead (memBase s.mode s.loaded) s.mem i
def State.romByte (s : State) (i : Nat) : Byte := cellRead (romBase s.mode s.loaded) s.rom i
def State.ramByte (s : State) (i : Nat) : Byte := cellRead zeroBase s.ram i

/-- The model's read of one byte of memory: the byte plain memory holds behind an address, `none` for a device window. It
is no bus transaction. -/
def State.peek (s : State) (addr : Word) : Option Byte :=
  match s.target addr with
  | .memory i _ => some (s.memByte i)
  | .cartridge i => some (s.romByte i)
  | .consoleRam i => some (s.ramByte i)
  | .video _ => none
  | .peripheral _ _ => none

/-- The canonical form of every memory array. -/
def Memory.wf (s : State) : Bool :=
  cellsWf (memBase s.mode s.loaded) 65536 s.mem && cellsWf zeroBase 128 s.ram
    && cellsWf (romBase s.mode s.loaded) 4096 s.rom

/-! ## One bus transaction -/

/-- The video register number a read reaches (20_memory.md R117). -/
def readRegOf (a : Word) : BitVec 4 := a.extractLsb' 0 4

/-- The video register number a write reaches (20_memory.md R118). -/
def writeRegOf (a : Word) : BitVec 6 := a.extractLsb' 0 6

/-- The byte a read of a target returns, and the number of draws taken after it (20_memory.md R112, R114, R116, R117,
R119, R120, R122). A video read fills bits 5 to 0 from the data-bus latch. -/
def targetRead (s : State) : Target → Byte × Nat
  | .memory i _ => (s.memByte i, s.draws)
  | .cartridge i => (s.romByte i, s.draws)
  | .consoleRam i => (s.ramByte i, s.draws)
  | .video a =>
    ((tiaRead s.video (readRegOf a) (Config.freeBit s.draws) &&& 0xC0#8) ||| (s.lastData &&& 0x3F#8),
      if isInputReg (readRegOf a) then s.draws + 1 else s.draws)
  | .peripheral _ _ => (Config.freeByte s.draws, s.draws + 1)

/-- `MemRead(addr, 1)`: one bus read, which updates the mirror (00_scope.md R14, 20_memory.md R105). -/
def busRead (addr : Word) (s : State) : Byte × State :=
  let r := targetRead s (s.target addr)
  (r.1, { s with draws := r.2, lastAddr := addr, lastData := r.1, lastRw := .read })

/-- The effect of a write on its target (20_memory.md R113, R114, R116, R118 to R120, R122), on CPU cycle `k`. -/
def targetWrite (k : Nat) (v : Byte) (s : State) : Target → State
  | .memory i writable =>
    if writable then { s with mem := cellWrite (memBase s.mode s.loaded) s.mem i v } else s
  | .cartridge _ => s
  | .consoleRam i => { s with ram := cellWrite zeroBase s.ram i v }
  | .video a => { s with video := schedule s.video (writeRegOf a) v (writeDelay s.cfg k) }
  | .peripheral p offset => { s with events := .write p offset v :: s.events }

/-- `MemWrite(addr, 1, v)` on CPU cycle `k` of the instruction (30_encoding.md R181): one bus write, which updates the
mirror (20_memory.md R105). -/
def busWrite (k : Nat) (addr : Word) (v : Byte) (s : State) : State :=
  { targetWrite k v s (s.target addr) with lastAddr := addr, lastData := v, lastRw := .write }

/-! ## Composite accesses (00_scope.md R14) -/

/-- A zero-page address. -/
def zeroPage (z : Byte) : Word := z.setWidth 16

/-- `Read16(a)`. -/
def read16 (a : Word) (s : State) : Word × State :=
  let lo := busRead a s
  let hi := busRead (a + 1) lo.2
  (wordOf lo.1 hi.1, hi.2)

/-- `Read16ZP(z)`: the second byte wraps in page 0. -/
def read16Zp (z : Byte) (s : State) : Word × State :=
  let lo := busRead (zeroPage z) s
  let hi := busRead (zeroPage (z + 1)) lo.2
  (wordOf lo.1 hi.1, hi.2)

/-- The address of the next free stack slot, `$0100 | S` (10_state.md R33). -/
def stackAddr (sp : Byte) : Word := wordOf sp 0x01

/-- `Push(v)` on CPU cycle `k`. -/
def push (k : Nat) (v : Byte) (s : State) : State :=
  let t := busWrite k (stackAddr s.sp) v s
  t.withSp (t.sp - 1)

/-- `Pull()`. -/
def pull (s : State) : Byte × State :=
  let t := s.withSp (s.sp + 1)
  busRead (stackAddr t.sp) t

/-! ## Interrupt entry and return -/

/-- `EnterInterrupt(vector, b, ret)`, shared by NMI, IRQ and BRK (60_exceptions.md R543): three pushes on cycles 3, 4 and
5, I set, PC from the vector; 7 cycles. -/
def enterInterrupt (vector : Word) (brk : Bool) (ret : Word) (s : State) : State :=
  let s₁ := push 3 (hiByte ret) s
  let s₂ := push 4 (loByte ret) s₁
  let s₃ := push 5 (statusByte s₂.p brk) s₂
  let r := read16 vector (s₃.withP { s₃.p with i := true })
  (r.2.withPc r.1).withCycles 7

/-- The return from an interrupt (60_exceptions.md R548, 42_control.md R312): the status byte, then PC, low byte first;
6 cycles. -/
def returnFromInterrupt (s : State) : State :=
  let st := pull s
  let lo := pull (st.2.withP (loadStatus st.1))
  let hi := pull lo.2
  (hi.2.withPc (wordOf lo.1 hi.1)).withCycles 6

/-- The vectors (60_exceptions.md R542). -/
def nmiVector : Word := 0xFFFA
def resetVector : Word := 0xFFFC
def irqVector : Word := 0xFFFE

/-- An interrupt the check of 60_exceptions.md R546 takes. -/
inductive Interrupt where
  | nmi
  | irq
  deriving DecidableEq, Repr

/-- The IRQ level the CPU sees: in console mode the input is tied inactive (45_orchestrator.md R512). -/
def irqActive (s : State) : Bool := s.irqLine && s.mode != .console

/-- The interrupt check (60_exceptions.md R544 to R546): none while jammed; NMI before IRQ; IRQ only when I is 0. -/
def pendingInterrupt (s : State) : Option Interrupt :=
  if s.jammed then none
  else if s.nmiPending then some .nmi
  else if irqActive s && !s.p.i then some .irq
  else none

/-- NMI or IRQ entry (60_exceptions.md R544, R545). -/
def takeInterrupt (s : State) : Interrupt → State
  | .nmi => enterInterrupt nmiVector false s.pc { s with nmiPending := false }
  | .irq => enterInterrupt irqVector false s.pc s

end Sys2Proof.Machine
end

