-- ==== Sys2Proof/Machine/Operands.lean ====
section
/-! DEFINITION. Every operand form: effective addresses (30_encoding.md R163 to R176), loads, stores, the
read-modify-write pattern and the masked store (R177, R248, R351), branches (R175, R300), and what each costs by its mode
(R179, R180). The operand bytes have been fetched: PC is the address of the next instruction. -/

namespace Sys2Proof.Machine

/-! ## Effective addresses -/

/-- An effective address with the base it was indexed from and whether the indexing crossed a page (R176). -/
structure Address where
  base    : Word
  ea      : Word
  crossed : Bool
  deriving DecidableEq, Repr

/-- An address that is never page-cross sensitive. -/
def Address.fixed (a : Word) : Address := ⟨a, a, false⟩

/-- A base plus an index, modulo 65536 (R170, R171, R174). -/
def Address.indexed (base : Word) (index : Byte) : Address :=
  let ea := base + index.setWidth 16
  ⟨base, ea, hiByte base != hiByte ea⟩

/-- `EA(mode)` without the operand fetch (R166 to R171, R173, R174): zero-page sums wrap in page 0. -/
def effAddr (m : MemMode) (s : State) : Address × State :=
  match m with
  | .zp z => (.fixed (zeroPage z), s)
  | .zpx z => (.fixed (zeroPage (z + s.x)), s)
  | .zpy z => (.fixed (zeroPage (z + s.y)), s)
  | .abs a => (.fixed a, s)
  | .abx a => (.indexed a s.x, s)
  | .aby a => (.indexed a s.y, s)
  | .izx z =>
    let ptr := read16Zp (z + s.x) s
    (.fixed ptr.1, ptr.2)
  | .izy z =>
    let ptr := read16Zp z s
    (.indexed ptr.1 s.y, ptr.2)

/-! ## Costs by mode (R179) -/

/-- Base cost of a reading instruction. -/
def readCycles : MemMode → Nat
  | .zp _ => 3
  | .zpx _ => 4
  | .zpy _ => 4
  | .abs _ => 4
  | .abx _ => 4
  | .aby _ => 4
  | .izx _ => 6
  | .izy _ => 5

/-- Base cost of a storing instruction, which has no page penalty. -/
def storeCycles : MemMode → Nat
  | .zp _ => 3
  | .zpx _ => 4
  | .zpy _ => 4
  | .abs _ => 4
  | .abx _ => 5
  | .aby _ => 5
  | .izx _ => 6
  | .izy _ => 6

/-- Base cost of a read-modify-write instruction, which has no page penalty. -/
def modifyCycles : MemMode → Nat
  | .zp _ => 5
  | .zpx _ => 6
  | .zpy _ => 6
  | .abs _ => 6
  | .abx _ => 7
  | .aby _ => 7
  | .izx _ => 8
  | .izy _ => 8

/-! ## Operand access (R177) -/

/-- `Load(mode)` for a memory mode: one read, one more cycle if the indexing crossed a page. -/
def loadMem (m : MemMode) (s : State) : Byte × State :=
  let e := effAddr m s
  let r := busRead e.1.ea e.2
  (r.1, r.2.withCycles (readCycles m + e.1.crossed.toNat))

/-- `Load(mode)` of a reading instruction. -/
def load (o : ReadOperand) (s : State) : Byte × State :=
  match o with
  | .imm v => (v, s.withCycles 2)
  | .mem m => loadMem m s

/-- A storing instruction: one write, on the last cycle (R181). -/
def store (m : MemMode) (v : Byte) (s : State) : State :=
  let e := effAddr m s
  (busWrite (storeCycles m) e.1.ea v e.2).withCycles (storeCycles m)

/-- `Modify(mode, f)` for a memory mode (41_alu.md R248): one read, one write of the result on the last cycle, the flags
of `f`. -/
def modifyMem (op : ModifyOp) (m : MemMode) (s : State) : Byte × State :=
  let e := effAddr m s
  let v := busRead e.1.ea e.2
  let r := modifyResult op v.2.p.c v.1
  let t := busWrite (modifyCycles m) e.1.ea r v.2
  (r, (t.withP (modifyFlags op v.1 t.p)).withCycles (modifyCycles m))

/-- `Modify(mode, f)` (41_alu.md R248), the accumulator mode included. -/
def modify (op : ModifyOp) (o : ModifyOperand) (s : State) : State :=
  match o with
  | .acc => ((s.withA (modifyResult op s.p.c s.a)).withP (modifyFlags op s.a s.p)).withCycles 2
  | .mem m => (modifyMem op m s).2

/-- The byte a masked store stores (43_undocumented.md R351). -/
def maskedByte (value : Byte) (base : Word) : Byte := value &&& (hiByte base + 1)

/-- The address a masked store writes: its high byte replaced by the stored byte on a page cross (43_undocumented.md
R351), where the operation corrupts it. -/
def maskedAddr (corrupt : Bool) (w : Byte) (e : Address) : Word :=
  if e.crossed && corrupt then wordOf (loByte e.ea) w else e.ea

/-- `StoreMasked(mode, value)` (43_undocumented.md R351). -/
def storeMasked (corrupt : Bool) (m : MemMode) (value : Byte) (s : State) : State :=
  let e := effAddr m s
  let w := maskedByte value e.1.base
  (busWrite (storeCycles m) (maskedAddr corrupt w e.1) w e.2).withCycles (storeCycles m)

/-! ## Branches and the indirect jump -/

/-- The target of a branch from the next-instruction address (R175). -/
def branchTarget (pc : Word) (off : Byte) : Word := pc + off.signExtend 16

/-- `Branch(cond)` (42_control.md R300): 2 cycles, 3 if taken, 4 if taken to another page. -/
def branch (cond : Bool) (off : Byte) (s : State) : State :=
  if cond then
    (s.withPc (branchTarget s.pc off)).withCycles
      (if hiByte s.pc != hiByte (branchTarget s.pc off) then 4 else 3)
  else s.withCycles 2

/-- The indirect target (R172): the pointer's high byte is not incremented. -/
def indirectTarget (ptr : Word) (s : State) : Word × State :=
  let lo := busRead ptr s
  let hi := busRead (wordOf (loByte ptr + 1) (hiByte ptr)) lo.2
  (wordOf lo.1 hi.1, hi.2)

end Sys2Proof.Machine
end

