-- ==== Sys2Proof/Machine/LoadStore.lean ====
section
/-! DEFINITION. Meanings of the loads, stores, transfers and stack instructions (40_load_store.md R200 to R215). -/

namespace Sys2Proof.Machine

abbrev Result := Host.Outcome State Fault Refusal

/-- A value whose flags N and Z are set as it is written. -/
def State.setNZ (s : State) (v : Byte) : State := s.withP (Machine.setNZ v s.p)

/-- LDA (R200). -/
def execLda (o : ReadOperand) (s : State) : Result :=
  let r := load o s
  .next ((r.2.withA r.1).setNZ r.1)

/-- LDX (R201). -/
def execLdx (o : ReadOperand) (s : State) : Result :=
  let r := load o s
  .next ((r.2.withX r.1).setNZ r.1)

/-- LDY (R202). -/
def execLdy (o : ReadOperand) (s : State) : Result :=
  let r := load o s
  .next ((r.2.withY r.1).setNZ r.1)

/-- STA (R203). -/
def execSta (m : MemMode) (s : State) : Result := .next (store m s.a s)

/-- STX (R204). -/
def execStx (m : MemMode) (s : State) : Result := .next (store m s.x s)

/-- STY (R205). -/
def execSty (m : MemMode) (s : State) : Result := .next (store m s.y s)

/-- TAX (R206). -/
def execTax (s : State) : Result := .next (((s.withX s.a).setNZ s.a).withCycles 2)

/-- TAY (R207). -/
def execTay (s : State) : Result := .next (((s.withY s.a).setNZ s.a).withCycles 2)

/-- TXA (R208). -/
def execTxa (s : State) : Result := .next (((s.withA s.x).setNZ s.x).withCycles 2)

/-- TYA (R209). -/
def execTya (s : State) : Result := .next (((s.withA s.y).setNZ s.y).withCycles 2)

/-- TSX (R210). -/
def execTsx (s : State) : Result := .next (((s.withX s.sp).setNZ s.sp).withCycles 2)

/-- TXS (R211): no flags. -/
def execTxs (s : State) : Result := .next ((s.withSp s.x).withCycles 2)

/-- PHA (R212). -/
def execPha (s : State) : Result := .next ((push 3 s.a s).withCycles 3)

/-- PHP (R213): bits 5 and 4 of the pushed byte are 1. -/
def execPhp (s : State) : Result := .next ((push 3 (statusByte s.p true) s).withCycles 3)

/-- PLA (R214). -/
def execPla (s : State) : Result :=
  let r := pull s
  .next (((r.2.withA r.1).setNZ r.1).withCycles 4)

/-- PLP (R215). -/
def execPlp (s : State) : Result :=
  let r := pull s
  .next ((r.2.withP (loadStatus r.1)).withCycles 4)

end Sys2Proof.Machine
end

