-- ==== Sys2Proof/Machine/Alu.lean ====
section
/-! DEFINITION. Meanings of the arithmetic, logic, compare, increment and shift instructions (41_alu.md R250 to R268). -/

namespace Sys2Proof.Machine

/-- `AddWithCarry(m)` (R242). -/
def addWithCarry (m : Byte) (s : State) : State :=
  let o := addSelect s.p s.a m
  (s.withA o.r).withP (setAlu o s.p)

/-- `SubWithBorrow(m)` (R245). -/
def subWithBorrow (m : Byte) (s : State) : State :=
  let o := subSelect s.p s.a m
  (s.withA o.r).withP (setAlu o s.p)

/-- A new accumulator with N and Z from it (R252 to R254). -/
def State.setAccumulator (s : State) (v : Byte) : State := (s.withA v).setNZ v

/-- ADC (R250). -/
def execAdc (o : ReadOperand) (s : State) : Result :=
  let r := load o s
  .next (addWithCarry r.1 r.2)

/-- SBC (R251). -/
def execSbc (o : ReadOperand) (s : State) : Result :=
  let r := load o s
  .next (subWithBorrow r.1 r.2)

/-- AND (R252). -/
def execAnd (o : ReadOperand) (s : State) : Result :=
  let r := load o s
  .next (r.2.setAccumulator (r.2.a &&& r.1))

/-- ORA (R253). -/
def execOra (o : ReadOperand) (s : State) : Result :=
  let r := load o s
  .next (r.2.setAccumulator (r.2.a ||| r.1))

/-- EOR (R254). -/
def execEor (o : ReadOperand) (s : State) : Result :=
  let r := load o s
  .next (r.2.setAccumulator (r.2.a ^^^ r.1))

/-- CMP (R255). -/
def execCmp (o : ReadOperand) (s : State) : Result :=
  let r := load o s
  .next (r.2.withP (compareFlags r.2.a r.1 r.2.p))

/-- CPX (R256). -/
def execCpx (o : ReadOperand) (s : State) : Result :=
  let r := load o s
  .next (r.2.withP (compareFlags r.2.x r.1 r.2.p))

/-- CPY (R257). -/
def execCpy (o : ReadOperand) (s : State) : Result :=
  let r := load o s
  .next (r.2.withP (compareFlags r.2.y r.1 r.2.p))

/-- BIT (R258). -/
def execBit (m : MemMode) (s : State) : Result :=
  let r := loadMem m s
  .next (r.2.withP (bitFlags r.2.a r.1 r.2.p))

/-- INC (R259). -/
def execInc (m : MemMode) (s : State) : Result := .next (modify .increment (.mem m) s)

/-- DEC (R260). -/
def execDec (m : MemMode) (s : State) : Result := .next (modify .decrement (.mem m) s)

/-- INX (R261). -/
def execInx (s : State) : Result := .next (((s.withX (s.x + 1)).setNZ (s.x + 1)).withCycles 2)

/-- INY (R262). -/
def execIny (s : State) : Result := .next (((s.withY (s.y + 1)).setNZ (s.y + 1)).withCycles 2)

/-- DEX (R263). -/
def execDex (s : State) : Result := .next (((s.withX (s.x - 1)).setNZ (s.x - 1)).withCycles 2)

/-- DEY (R264). -/
def execDey (s : State) : Result := .next (((s.withY (s.y - 1)).setNZ (s.y - 1)).withCycles 2)

/-- ASL (R265). -/
def execAsl (o : ModifyOperand) (s : State) : Result := .next (modify .shiftLeft o s)

/-- LSR (R266). -/
def execLsr (o : ModifyOperand) (s : State) : Result := .next (modify .shiftRight o s)

/-- ROL (R267). -/
def execRol (o : ModifyOperand) (s : State) : Result := .next (modify .rotateLeft o s)

/-- ROR (R268). -/
def execRor (o : ModifyOperand) (s : State) : Result := .next (modify .rotateRight o s)

end Sys2Proof.Machine
end

