-- ==== Sys2Proof/Machine/Control.lean ====
section
/-! DEFINITION. Meanings of the branches, jumps, subroutine and interrupt instructions, flag operations and NOP
(42_control.md R300 to R321, 43_undocumented.md R372 to R374). -/

namespace Sys2Proof.Machine

/-- BPL (R301). -/
def execBpl (off : Byte) (s : State) : Result := .next (branch (!s.p.n) off s)

/-- BMI (R302). -/
def execBmi (off : Byte) (s : State) : Result := .next (branch s.p.n off s)

/-- BVC (R303). -/
def execBvc (off : Byte) (s : State) : Result := .next (branch (!s.p.v) off s)

/-- BVS (R304). -/
def execBvs (off : Byte) (s : State) : Result := .next (branch s.p.v off s)

/-- BCC (R305). -/
def execBcc (off : Byte) (s : State) : Result := .next (branch (!s.p.c) off s)

/-- BCS (R306). -/
def execBcs (off : Byte) (s : State) : Result := .next (branch s.p.c off s)

/-- BNE (R307). -/
def execBne (off : Byte) (s : State) : Result := .next (branch (!s.p.z) off s)

/-- BEQ (R308). -/
def execBeq (off : Byte) (s : State) : Result := .next (branch s.p.z off s)

/-- JMP, absolute 3 cycles, indirect 5 (R309). -/
def execJmp (t : JumpOperand) (s : State) : Result :=
  match t with
  | .abs a => .next ((s.withPc a).withCycles 3)
  | .ind ptr =>
    let r := indirectTarget ptr s
    .next ((r.2.withPc r.1).withCycles 5)

/-- JSR (R310): the address of its last byte is pushed on cycles 4 and 5. -/
def execJsr (t : Word) (s : State) : Result :=
  let r := s.pc - 1
  .next (((push 5 (loByte r) (push 4 (hiByte r) s)).withPc t).withCycles 6)

/-- RTS (R311). -/
def execRts (s : State) : Result :=
  let lo := pull s
  let hi := pull lo.2
  .next ((hi.2.withPc (wordOf lo.1 hi.1 + 1)).withCycles 6)

/-- RTI (R312). -/
def execRti (s : State) : Result := .next (returnFromInterrupt s)

/-- BRK (R313, 60_exceptions.md R547): PC is past the opcode, so the pushed address skips one padding byte. -/
def execBrk (s : State) : Result := .next (enterInterrupt irqVector true (s.pc + 1) s)

/-- CLC (R314). -/
def execClc (s : State) : Result := .next ((s.withP { s.p with c := false }).withCycles 2)

/-- SEC (R315). -/
def execSec (s : State) : Result := .next ((s.withP { s.p with c := true }).withCycles 2)

/-- CLI (R316). -/
def execCli (s : State) : Result := .next ((s.withP { s.p with i := false }).withCycles 2)

/-- SEI (R317). -/
def execSei (s : State) : Result := .next ((s.withP { s.p with i := true }).withCycles 2)

/-- CLD (R318). -/
def execCld (s : State) : Result := .next ((s.withP { s.p with d := false }).withCycles 2)

/-- SED (R319). -/
def execSed (s : State) : Result := .next ((s.withP { s.p with d := true }).withCycles 2)

/-- CLV (R320). -/
def execClv (s : State) : Result := .next ((s.withP { s.p with v := false }).withCycles 2)

/-- NOP, all 28 opcodes: implied (R321, R372), immediate (R373), and the forms that read memory once and discard the
value (R374). -/
def execNop (f : NopForm) (s : State) : Result :=
  match f with
  | .imp _ => .next (s.withCycles 2)
  | .imm _ v => .next (load (.imm v) s).2
  | .zp _ z => .next (loadMem (.zp z) s).2
  | .zpx _ z => .next (loadMem (.zpx z) s).2
  | .abs a => .next (loadMem (.abs a) s).2
  | .abx _ a => .next (loadMem (.abx a) s).2

end Sys2Proof.Machine
end

