-- ==== Sys2Proof/Machine/Undocumented.lean ====
section
/-! DEFINITION. Meanings of the undocumented opcodes but NOP (43_undocumented.md R350 to R371, R375). -/

namespace Sys2Proof.Machine

/-- SLO (R352). -/
def execSlo (m : MemMode) (s : State) : Result :=
  let r := modifyMem .shiftLeft m s
  .next (r.2.setAccumulator (r.2.a ||| r.1))

/-- RLA (R353). -/
def execRla (m : MemMode) (s : State) : Result :=
  let r := modifyMem .rotateLeft m s
  .next (r.2.setAccumulator (r.2.a &&& r.1))

/-- SRE (R354). -/
def execSre (m : MemMode) (s : State) : Result :=
  let r := modifyMem .shiftRight m s
  .next (r.2.setAccumulator (r.2.a ^^^ r.1))

/-- RRA (R355): the carry of the rotate is the carry into the addition. -/
def execRra (m : MemMode) (s : State) : Result :=
  let r := modifyMem .rotateRight m s
  .next (addWithCarry r.1 r.2)

/-- SAX (R356). -/
def execSax (m : MemMode) (s : State) : Result := .next (store m (s.a &&& s.x) s)

/-- LAX, memory forms (R357). -/
def execLax (m : MemMode) (s : State) : Result :=
  let r := loadMem m s
  .next (((r.2.withA r.1).withX r.1).setNZ r.1)

/-- DCP (R358). -/
def execDcp (m : MemMode) (s : State) : Result :=
  let r := modifyMem .decrement m s
  .next (r.2.withP (compareFlags r.2.a r.1 r.2.p))

/-- ISC (R359). -/
def execIsc (m : MemMode) (s : State) : Result :=
  let r := modifyMem .increment m s
  .next (subWithBorrow r.1 r.2)

/-- ANC, both opcodes (R360). -/
def execAnc (_k : Fin 2) (v : Byte) (s : State) : Result :=
  let t := s.setAccumulator (s.a &&& v)
  .next ((t.withP { t.p with c := t.a.getLsbD 7 }).withCycles 2)

/-- ALR (R361). -/
def execAlr (v : Byte) (s : State) : Result :=
  let t := s.a &&& v
  .next (((s.withA (modifyResult .shiftRight s.p.c t)).withP (modifyFlags .shiftRight t s.p)).withCycles 2)

/-- ARR (R362). -/
def execArr (v : Byte) (s : State) : Result :=
  let o := arrSelect s.p (s.a &&& v)
  .next (((s.withA o.r).withP (setAlu o s.p)).withCycles 2)

/-- SBX (R363): the flags of comparing `A & X` with the operand. -/
def execSbx (v : Byte) (s : State) : Result :=
  let t := s.a &&& s.x
  .next (((s.withX (t - v)).withP (compareFlags t v s.p)).withCycles 2)

/-- ANE (R364). -/
def execAne (v : Byte) (s : State) : Result :=
  .next ((s.setAccumulator ((s.a ||| s.cfg.magicAne) &&& s.x &&& v)).withCycles 2)

/-- LXA (R365). -/
def execLxa (v : Byte) (s : State) : Result :=
  let r := (s.a ||| s.cfg.magicLxa) &&& v
  .next (((s.setAccumulator r).withX r).withCycles 2)

/-- SHA (R366). -/
def execSha (m : MemMode) (s : State) : Result := .next (storeMasked s.cfg.shCorruptShaTas m (s.a &&& s.x) s)

/-- SHX (R367). -/
def execShx (a : Word) (s : State) : Result := .next (storeMasked true (.aby a) s.x s)

/-- SHY (R368). -/
def execShy (a : Word) (s : State) : Result := .next (storeMasked true (.abx a) s.y s)

/-- TAS (R369). -/
def execTas (a : Word) (s : State) : Result :=
  let t := s.withSp (s.a &&& s.x)
  .next (storeMasked t.cfg.shCorruptShaTas (.aby a) t.sp t)

/-- LAS (R370). -/
def execLas (a : Word) (s : State) : Result :=
  let r := loadMem (.aby a) s
  let v := r.1 &&& r.2.sp
  .next (((r.2.setAccumulator v).withX v).withSp v)

/-- USBC (R371). -/
def execUsbc (v : Byte) (s : State) : Result := .next ((subWithBorrow v s).withCycles 2)

/-- JAM, all twelve opcodes (R375): PC back at the halt opcode. -/
def execJam (_k : Fin 12) (s : State) : Result :=
  .next ({ s with jammed := true, pc := s.pc - 1 }.withCycles s.cfg.jamCycles)

end Sys2Proof.Machine
end

