-- ==== Sys2Proof/Machine/Fetch.lean ====
section
/-! DEFINITION. Instruction fetch (30_encoding.md R160, R178, 00_scope.md R14) and the placing of an instruction where the
next fetch finds it. -/

namespace Sys2Proof.Machine

/-- `Fetch8()` (00_scope.md R14). -/
def fetch8 (s : State) : Byte × State :=
  let r := busRead s.pc s
  (r.1, r.2.withPc (r.2.pc + 1))

/-- The layout a fetched opcode byte selects: a jammed CPU repeats the halt opcode whatever byte the bus returned, and only
reset ends it (43_undocumented.md R375, 60_exceptions.md R555). -/
def fetchedLayout (jammed : Bool) (op : Byte) : Layout := if jammed then .one (.jam 0) else layoutOf op

/-- Fetch one instruction: the opcode byte, then the operand bytes its layout has, in order; PC is left at the address of
the next instruction. Every instruction fetches all its operand bytes before any other access (log entry 11). -/
def fetch (s : State) : Instr × State :=
  let op := fetch8 s
  match fetchedLayout s.jammed op.1 with
  | .one i => (i, op.2)
  | .byte f =>
    let b := fetch8 op.2
    (f b.1, b.2)
  | .word f =>
    let lo := fetch8 op.2
    let hi := fetch8 lo.2
    (f (wordOf lo.1 hi.1), hi.2)

/-- Make plain memory hold a byte behind an address, as a loaded image would (read-only memory too); a device window has
no byte to hold. -/
def placeByte (addr : Word) (v : Byte) (s : State) : State :=
  match s.target addr with
  | .memory i _ => { s with mem := cellWrite (memBase s.mode s.loaded) s.mem i v }
  | .cartridge i => { s with rom := cellWrite (romBase s.mode s.loaded) s.rom i v }
  | .consoleRam i => { s with ram := cellWrite zeroBase s.ram i v }
  | .video _ => s
  | .peripheral _ _ => s

/-- Place bytes at consecutive addresses, wrapping modulo 65536. -/
def placeBytes : Word → List Byte → State → State
  | _, [], s => s
  | addr, b :: rest, s => placeBytes (addr + 1) rest (placeByte addr b s)

/-- Nothing stands before the fetch of the next step: no jam, no WSYNC halt, no pending NMI, no active IRQ. -/
def clearedForFetch (s : State) : State :=
  { s with
    jammed := false
    nmiPending := false
    irqLine := false
    video := { s.video with wsyncHalt := false } }

end Sys2Proof.Machine
end

