-- ==== Sys2Proof/Machine/Tick.lean ====
section
/-! DEFINITION. What the orchestrator's tick does around `execute()` (45_orchestrator.md R502 to R504, R510). -/

namespace Sys2Proof.Machine

/-- `periph_clock(n)` (R510): recorded as an event. -/
def periphClock (n : Nat) (s : State) : State := { s with events := .clock n :: s.events }

/-- `n` CPU cycles have passed: in dual mode `3·n` color clocks; then `n` peripheral clocks; then the cycle count (R502,
R503). -/
def elapse (n : Nat) (s : State) : State :=
  let t := if s.dual then { s with video := videoSteps s.cfg (3 * n) s.video } else s
  let u := periphClock n t
  { u with totalCycles := u.totalCycles + n }

/-- The CPU is halted at the start of a tick (R503, R504). -/
def halted (s : State) : Bool := s.dual && s.video.wsyncHalt

/-- A halted tick: one cycle passes without the CPU (R504). -/
def haltedTick (s : State) : State := elapse 1 s

/-- The end of a tick in which `execute()` returned `cycles` (R502, R503). -/
def finishTick (s : State) : State := elapse s.cycles s

end Sys2Proof.Machine
end

