-- ==== Sys2Proof/Machine/Step.lean ====
section
/-! DEFINITION. One step is one `tick()` of the orchestrator (45_orchestrator.md R500 to R504): a halted cycle, or the
interrupt check and one interrupt entry or one instruction (30_encoding.md R178), and the time it takes. -/

namespace Sys2Proof.Machine

/-- The end of the tick around the outcome of an instruction. -/
def finish (r : Host.Outcome State Fault Refusal) : Host.Outcome State Fault Refusal :=
  match r with
  | .next t => .next (finishTick t)
  | .fault f => .fault f
  | .refused f => .refused f

/-- `tick()`. -/
def step (s : State) : Host.Outcome State Fault Refusal :=
  if halted s then .next (haltedTick s)
  else
    match pendingInterrupt s with
    | some int => .next (finishTick (takeInterrupt s int))
    | none => finish (exec (fetch s).1 (fetch s).2)

/-- `s` with an instruction of opcode_table.json's numbering placed where `step` fetches next, behind PC, and nothing
standing before that fetch (log entry 13). -/
def State.withFetchWord (s : State) (nbits w : Nat) : State :=
  placeBytes s.pc (tableBytes nbits w) (clearedForFetch s)

end Sys2Proof.Machine
end

