-- ==== Sys2Proof/Machine/HostOps.lean ====
section
/-! DEFINITION. The host operations, all between ticks (45_orchestrator.md R507 to R515), the reset procedure
(70_reset_and_hazards.md R580 to R585) and the conformance harness's convention (45_orchestrator.md R514). -/

namespace Sys2Proof.Machine

/-! ## Loading and reset -/

/-- The nonzero bytes of a byte string, by offset from `i`. -/
def nonzeroCells : Nat → List Byte → List Host.Cell
  | _, [] => []
  | i, b :: rest => if b = 0 then nonzeroCells (i + 1) rest else (i, b) :: nonzeroCells (i + 1) rest

/-- A byte string as an image (10_state.md R74). -/
def Image.ofBytes (bytes : List Byte) : Image := ⟨bytes.length, nonzeroCells 0 bytes⟩

/-- `load(image)`: takes effect at the next reset (45_orchestrator.md R511). -/
def hostLoad (im : Image) (s : State) : State := { s with image := im }

/-- Bus reset (70_reset_and_hazards.md R581): the mode takes its configured value, the loader of the mode fills every
memory array, the mirror is cleared. The recorded events start anew with the peripherals' own resets (log entry 6). -/
def busReset (s : State) : State :=
  { s with
    mode := s.cfg.mode
    mem := []
    ram := []
    rom := []
    loaded := ⟨s.image, s.cfg.bbRomBase, s.cfg.bbResetVector⟩
    lastAddr := 0
    lastData := 0
    lastRw := .read
    events := [] }

/-- Video reset (R582, 44_video_engine.md R445). -/
def videoReset (s : State) : State := { s with video := Video.reset }

/-- The registers after the CPU reset (R583), before the vector fetch. -/
def registerReset (s : State) : State :=
  { s with
    a := 0
    x := 0
    y := 0
    sp := 0xFD
    p := { c := false, z := false, i := true, d := false, b := false, v := false, n := false }
    jammed := false
    nmiPending := false }

/-- CPU reset (R583): the registers, then PC from the reset vector read through the bus; a vector of 0 is replaced by the
fallback entry (R584). -/
def cpuReset (s : State) : State :=
  let r := read16 resetVector (registerReset s)
  r.2.withPc (if r.1 = 0 then fallbackEntry r.2.cfg r.2.mode else r.1)

/-- Orchestrator reset (R585). -/
def orchestratorReset (s : State) : State := { s with totalCycles := 0, budgetTarget := 0, cycles := 0 }

/-- `reset()` (R580): bus, peripherals (out of scope), video, CPU, orchestrator, in this order. A console image over 4096
bytes is refused and the previous state kept (20_memory.md R126, R581). -/
def hostReset (s : State) : Host.Outcome State Fault Refusal :=
  if s.cfg.mode = .console ∧ 4096 < s.image.size then .refused .bankSwitchedCartridge
  else .next (orchestratorReset (cpuReset (videoReset (busReset s))))

/-! ## Configuration, acknowledgement, interrupt inputs -/

/-- Setting the configuration (45_orchestrator.md R511): the mode takes effect at the next reset, since the bus decodes by
the active `mode`; the others at once. -/
def hostConfigure (cfg : Config) (s : State) : State := { s with cfg := cfg }

/-- `ack_frame()` (R515). -/
def hostAckFrame (s : State) : State := { s with video := { s.video with frameReady := false } }

/-- `irq(level)` (R512). -/
def hostIrq (level : Bool) (s : State) : State := { s with irqLine := level }

/-- `nmi()`: an edge (R512, 60_exceptions.md R545); tied inactive in console mode. -/
def hostNmi (s : State) : State := if s.mode = .console then s else { s with nmiPending := true }

/-! ## Runs -/

/-- `run_until(target)` (R507), with a bound on the number of ticks. -/
def runUntil : Nat → Nat → State → Host.Outcome State Fault Refusal
  | 0, _, s => .next s
  | fuel + 1, target, s =>
    if s.totalCycles < target then
      match step s with
      | .next t => runUntil fuel target t
      | .fault f => .fault f
      | .refused r => .refused r
    else .next s

/-- A run of `n` more budgeted cycles (R507 to R509): the target is absolute. Every tick takes at least one cycle (with a
valid configuration), so the bound is never what ends the run (log entry 14). -/
def runBudget (n : Nat) (s : State) : Host.Outcome State Fault Refusal :=
  runUntil (s.budgetTarget + n - s.totalCycles) (s.budgetTarget + n) { s with budgetTarget := s.budgetTarget + n }

/-- `run_scanline()` (R508). -/
def runScanline (s : State) : Host.Outcome State Fault Refusal := runBudget (cpuPerLine s.cfg) s

/-- `run_frame()` (R509). -/
def runFrame (s : State) : Host.Outcome State Fault Refusal :=
  runBudget (cpuPerLine s.cfg * (frameGeometry s.cfg).lines) s

/-! ## The conformance harness (R514) -/

/-- How a conformance run stands. -/
inductive EndOfRun where
  | passed
  | trapped
  | running
  deriving DecidableEq, Repr

/-- Watch PC at tick boundaries: passed at `SUCCESS_ADDR`, trapped when PC has stayed the same over `STUCK_N` calls of
`execute()` in a row; `same` counts them so far. -/
def harness (successAddr : Word) (stuckN : Nat) : Nat → Nat → State → EndOfRun
  | 0, _, _ => .running
  | fuel + 1, same, s =>
    if s.pc = successAddr then .passed
    else if stuckN ≤ same then .trapped
    else
      match step s with
      | .next t =>
        harness successAddr stuckN fuel (if halted s then same else if t.pc = s.pc then same + 1 else 0) t
      | .fault _ => .trapped
      | .refused _ => .trapped

end Sys2Proof.Machine
end

