-- ==== Sys2Proof/Safety.lean ====
section
/-! DEFINITION. The terms claims are stated in: a safe run, the frames of a step, and the invariants of the state. -/

namespace Sys2Proof.Machine

/-! ## Safe runs -/

/-- The state an outcome goes on with. -/
def nextState (r : Result) : Option State :=
  match r with
  | .next t => some t
  | .fault _ => none
  | .refused _ => none

/-- `n` steps from `s` neither fault nor are refused. -/
def SafeRun : Nat → State → Prop
  | 0, _ => True
  | n + 1, s => ∃ t, step s = .next t ∧ SafeRun n t

/-! ## Memory as claims see it -/

/-- A store to the address changes the byte behind it: RAM, by the decode of the active mode (20_memory.md R113, R114,
R116, R119). -/
def State.writable (s : State) (addr : Word) : Bool :=
  match s.target addr with
  | .memory _ writable => writable
  | .cartridge _ => false
  | .consoleRam _ => true
  | .video _ => false
  | .peripheral _ _ => false

/-- The video engine after a store of `v` at `addr` on cycle `k`: a scheduled write if the address is in the video window
(20_memory.md R118), else unchanged. -/
def videoAfterStore (k : Nat) (addr : Word) (v : Byte) (s : State) : Video :=
  match s.target addr with
  | .video a => schedule s.video (writeRegOf a) v (writeDelay s.cfg k)
  | .memory _ _ => s.video
  | .cartridge _ => s.video
  | .consoleRam _ => s.video
  | .peripheral _ _ => s.video

/-- The recorded events after a store (20_memory.md R113, R120, R122). -/
def eventsAfterStore (addr : Word) (v : Byte) (s : State) : List PeriphEvent :=
  match s.target addr with
  | .peripheral p offset => .write p offset v :: s.events
  | .memory _ _ => s.events
  | .cartridge _ => s.events
  | .consoleRam _ => s.events
  | .video _ => s.events

/-! ## Frames -/

/-- What no instruction but JAM changes: everything that is not a register of 10_state.md R30 to R42, RAM, the video
engine, a recorded event, the mirror or the model's own counters. -/
structure MachineFrame (s t : State) : Prop where
  jammed       : t.jammed = s.jammed
  nmiPending   : t.nmiPending = s.nmiPending
  mode         : t.mode = s.mode
  rom          : t.rom = s.rom
  image        : t.image = s.image
  loaded       : t.loaded = s.loaded
  totalCycles  : t.totalCycles = s.totalCycles
  budgetTarget : t.budgetTarget = s.budgetTarget
  cfg          : t.cfg = s.cfg
  irqLine      : t.irqLine = s.irqLine

/-- Nothing is stored: every byte reads as before, and the memory arrays, the video engine and the recorded events are
what they were. -/
structure NoStore (s t : State) : Prop where
  bytes  : ∀ addr, t.peek addr = s.peek addr
  mem    : t.mem = s.mem
  ram    : t.ram = s.ram
  video  : t.video = s.video
  events : t.events = s.events

/-- Nothing is stored and the bus is not used: the mirror and the draws are what they were too. -/
structure NoAccess (s t : State) : Prop where
  noStore  : NoStore s t
  lastAddr : t.lastAddr = s.lastAddr
  lastData : t.lastData = s.lastData
  lastRw   : t.lastRw = s.lastRw
  draws    : t.draws = s.draws

/-- One byte `v` is stored at `addr`, on CPU cycle `k`, and nothing else: the byte reads back where the address is RAM,
every byte of another cell reads as before, and where the address is not RAM every byte does. -/
structure OneStore (k : Nat) (addr : Word) (v : Byte) (s t : State) : Prop where
  here      : s.writable addr = true → t.peek addr = some v
  elsewhere : ∀ b, s.target b ≠ s.target addr → t.peek b = s.peek b
  readOnly  : s.writable addr = false → ∀ b, t.peek b = s.peek b
  video     : t.video = videoAfterStore k addr v s
  events    : t.events = eventsAfterStore addr v s
  lastAddr  : t.lastAddr = addr
  lastData  : t.lastData = v
  lastRw    : t.lastRw = .write

/-- The last bus access was a read of `v` at `addr` (20_memory.md R105). -/
structure LastRead (addr : Word) (v : Byte) (t : State) : Prop where
  lastAddr : t.lastAddr = addr
  lastData : t.lastData = v
  lastRw   : t.lastRw = .read

/-! ## What an operand is -/

/-- The effective address of a memory operand. -/
def operandAddr (m : MemMode) (s : State) : Word := (effAddr m s).1.ea

/-- The byte the bus returns at the effective address of a memory operand, after the mode's own pointer reads. -/
def operandByte (m : MemMode) (s : State) : Byte := (busRead (operandAddr m s) (effAddr m s).2).1

/-- The operand value of a reading instruction (30_encoding.md R165, R177). -/
def readOperandByte (o : ReadOperand) (s : State) : Byte :=
  match o with
  | .imm v => v
  | .mem m => operandByte m s

/-- The indexing of the operand crosses a page (30_encoding.md R176): only the modes that index a 16-bit base can. -/
def pageCrossed (m : MemMode) (s : State) : Bool :=
  match m with
  | .abx a => hiByte a != hiByte (operandAddr m s)
  | .aby a => hiByte a != hiByte (operandAddr m s)
  | .izy z => hiByte (read16Zp z s).1 != hiByte (operandAddr m s)
  | .zp _ => false
  | .zpx _ => false
  | .zpy _ => false
  | .abs _ => false
  | .izx _ => false

/-- The 16-bit base of an indexed mode before indexing (43_undocumented.md R351). -/
def operandBase (m : MemMode) (s : State) : Word :=
  match m with
  | .abx a => a
  | .aby a => a
  | .izy z => (read16Zp z s).1
  | .zp _ => operandAddr m s
  | .zpx _ => operandAddr m s
  | .zpy _ => operandAddr m s
  | .abs _ => operandAddr m s
  | .izx _ => operandAddr m s

/-- The byte a masked store stores (43_undocumented.md R351): the value masked by the base's high byte plus one. -/
def maskedStoreByte (value : Byte) (m : MemMode) (s : State) : Byte := value &&& (hiByte (operandBase m s) + 1)

/-- The address a masked store writes (43_undocumented.md R351): on a page cross its high byte is the stored byte, where the
operation corrupts it. -/
def maskedStoreAddr (corrupt : Bool) (value : Byte) (m : MemMode) (s : State) : Word :=
  if pageCrossed m s = true ∧ corrupt = true then wordOf (loByte (operandAddr m s)) (maskedStoreByte value m s)
  else operandAddr m s

/-- The cycles of a reading instruction: 2 for immediate, else the base cost of the mode and one for a page cross
(30_encoding.md R179, R180). -/
def readOperandCycles (o : ReadOperand) (s : State) : Nat :=
  match o with
  | .imm _ => 2
  | .mem m => readCycles m + if pageCrossed m s then 1 else 0

/-- What reading an operand leaves of the bus: no access for an immediate, else the mirror shows the operand's read. -/
def OperandRead (o : ReadOperand) (s t : State) : Prop :=
  match o with
  | .imm _ => NoAccess s t
  | .mem m => NoStore s t ∧ LastRead (operandAddr m s) (operandByte m s) t

/-! ## What the CPU is after an instruction -/

/-- The registers, the flags and the reported cycles of a state. -/
structure CpuIs (t : State) (a x y sp : Byte) (pc : Word) (p : Flags) (cycles : Nat) : Prop where
  a_eq      : t.a = a
  x_eq      : t.x = x
  y_eq      : t.y = y
  sp_eq     : t.sp = sp
  pc_eq     : t.pc = pc
  p_eq      : t.p = p
  cycles_eq : t.cycles = cycles

/-- `SetNZ(v)` on a flag set (00_scope.md R14): N is bit 7, Z says whether the byte is zero, the others stay. -/
def nzOf (v : Byte) (p : Flags) : Flags := { p with n := v.getLsbD 7, z := decide (v.toNat = 0) }

/-- The flag set a pulled byte gives (10_state.md R44). -/
def flagsOf (v : Byte) : Flags :=
  { n := v.getLsbD 7, v := v.getLsbD 6, b := v.getLsbD 4, d := v.getLsbD 3, i := v.getLsbD 2, z := v.getLsbD 1,
    c := v.getLsbD 0 }

/-- Interrupt entry (60_exceptions.md R543): three stores at falling stack addresses on cycles 3, 4 and 5, I set, PC read
from the vector, and nothing else. -/
def InterruptEntry (vector : Word) (brk : Bool) (ret : Word) (s t : State) : Prop :=
  ∃ u₁ u₂ u₃ : State,
    OneStore 3 (stackAddr s.sp) (hiByte ret) s u₁ ∧ OneStore 4 (stackAddr (s.sp - 1)) (loByte ret) u₁ u₂
      ∧ OneStore 5 (stackAddr (s.sp - 2)) (statusByte s.p brk) u₂ u₃
      ∧ MachineFrame s u₁ ∧ MachineFrame s u₂ ∧ MachineFrame s u₃ ∧ u₃.draws = s.draws
      ∧ CpuIs t s.a s.x s.y (s.sp - 3) (read16 vector u₃).1 { s.p with i := true } 7
      ∧ MachineFrame s t ∧ NoStore u₃ t ∧ LastRead (vector + 1) (hiByte (read16 vector u₃).1) t

/-! ## The cost column of 30_encoding.md R179 -/

/-- Base cost and the most it can grow (`+p` one, `+b` two), by opcode, a row of the map a line; `(0, 0)` for the halt opcodes,
whose cost is `JAM_CYCLES`. -/
def cycleMap : List (List (Nat × Nat)) :=
  [ [(7, 0), (6, 0), (0, 0), (8, 0), (3, 0), (3, 0), (5, 0), (5, 0),
     (3, 0), (2, 0), (2, 0), (2, 0), (4, 0), (4, 0), (6, 0), (6, 0)],
    [(2, 2), (5, 1), (0, 0), (8, 0), (4, 0), (4, 0), (6, 0), (6, 0),
     (2, 0), (4, 1), (2, 0), (7, 0), (4, 1), (4, 1), (7, 0), (7, 0)],
    [(6, 0), (6, 0), (0, 0), (8, 0), (3, 0), (3, 0), (5, 0), (5, 0),
     (4, 0), (2, 0), (2, 0), (2, 0), (4, 0), (4, 0), (6, 0), (6, 0)],
    [(2, 2), (5, 1), (0, 0), (8, 0), (4, 0), (4, 0), (6, 0), (6, 0),
     (2, 0), (4, 1), (2, 0), (7, 0), (4, 1), (4, 1), (7, 0), (7, 0)],
    [(6, 0), (6, 0), (0, 0), (8, 0), (3, 0), (3, 0), (5, 0), (5, 0),
     (3, 0), (2, 0), (2, 0), (2, 0), (3, 0), (4, 0), (6, 0), (6, 0)],
    [(2, 2), (5, 1), (0, 0), (8, 0), (4, 0), (4, 0), (6, 0), (6, 0),
     (2, 0), (4, 1), (2, 0), (7, 0), (4, 1), (4, 1), (7, 0), (7, 0)],
    [(6, 0), (6, 0), (0, 0), (8, 0), (3, 0), (3, 0), (5, 0), (5, 0),
     (4, 0), (2, 0), (2, 0), (2, 0), (5, 0), (4, 0), (6, 0), (6, 0)],
    [(2, 2), (5, 1), (0, 0), (8, 0), (4, 0), (4, 0), (6, 0), (6, 0),
     (2, 0), (4, 1), (2, 0), (7, 0), (4, 1), (4, 1), (7, 0), (7, 0)],
    [(2, 0), (6, 0), (2, 0), (6, 0), (3, 0), (3, 0), (3, 0), (3, 0),
     (2, 0), (2, 0), (2, 0), (2, 0), (4, 0), (4, 0), (4, 0), (4, 0)],
    [(2, 2), (6, 0), (0, 0), (6, 0), (4, 0), (4, 0), (4, 0), (4, 0),
     (2, 0), (5, 0), (2, 0), (5, 0), (5, 0), (5, 0), (5, 0), (5, 0)],
    [(2, 0), (6, 0), (2, 0), (6, 0), (3, 0), (3, 0), (3, 0), (3, 0),
     (2, 0), (2, 0), (2, 0), (2, 0), (4, 0), (4, 0), (4, 0), (4, 0)],
    [(2, 2), (5, 1), (0, 0), (5, 1), (4, 0), (4, 0), (4, 0), (4, 0),
     (2, 0), (4, 1), (2, 0), (4, 1), (4, 1), (4, 1), (4, 1), (4, 1)],
    [(2, 0), (6, 0), (2, 0), (8, 0), (3, 0), (3, 0), (5, 0), (5, 0),
     (2, 0), (2, 0), (2, 0), (2, 0), (4, 0), (4, 0), (6, 0), (6, 0)],
    [(2, 2), (5, 1), (0, 0), (8, 0), (4, 0), (4, 0), (6, 0), (6, 0),
     (2, 0), (4, 1), (2, 0), (7, 0), (4, 1), (4, 1), (7, 0), (7, 0)],
    [(2, 0), (6, 0), (2, 0), (8, 0), (3, 0), (3, 0), (5, 0), (5, 0),
     (2, 0), (2, 0), (2, 0), (2, 0), (4, 0), (4, 0), (6, 0), (6, 0)],
    [(2, 2), (5, 1), (0, 0), (8, 0), (4, 0), (4, 0), (6, 0), (6, 0),
     (2, 0), (4, 1), (2, 0), (7, 0), (4, 1), (4, 1), (7, 0), (7, 0)] ]

/-- The entry of an opcode. -/
def cycleEntry (op : Byte) : Nat × Nat := (cycleMap.getD (op.toNat / 16) []).getD (op.toNat % 16) (0, 0)

/-! ## Invariants -/

/-- Only bits of the mask are set. -/
def masked (mask v : Byte) : Bool := v &&& ~~~mask == 0#8

/-- Every stored video register keeps to its defined bits (44_video_engine.md R403, R406). -/
def VideoRegs.masked (r : VideoRegs) : Bool :=
  Machine.masked (keepMask .vsync) r.vsync && Machine.masked (keepMask .vblank) r.vblank
    && Machine.masked (keepMask .nusiz0) r.nusiz0 && Machine.masked (keepMask .nusiz1) r.nusiz1
    && Machine.masked (keepMask .colup0) r.colup0 && Machine.masked (keepMask .colup1) r.colup1
    && Machine.masked (keepMask .colupf) r.colupf && Machine.masked (keepMask .colubk) r.colubk
    && Machine.masked (keepMask .ctrlpf) r.ctrlpf && Machine.masked (keepMask .refp0) r.refp0
    && Machine.masked (keepMask .refp1) r.refp1 && Machine.masked (keepMask .pf0) r.pf0
    && Machine.masked (keepMask .audc0) r.audc0 && Machine.masked (keepMask .audc1) r.audc1
    && Machine.masked (keepMask .audf0) r.audf0 && Machine.masked (keepMask .audf1) r.audf1
    && Machine.masked (keepMask .audv0) r.audv0 && Machine.masked (keepMask .audv1) r.audv1
    && Machine.masked (keepMask .enam0) r.enam0 && Machine.masked (keepMask .enam1) r.enam1
    && Machine.masked (keepMask .hmp0) r.hmp0 && Machine.masked (keepMask .hmp1) r.hmp1
    && Machine.masked (keepMask .hmm0) r.hmm0 && Machine.masked (keepMask .hmm1) r.hmm1
    && Machine.masked (keepMask .hmbl) r.hmbl && Machine.masked (keepMask .vdelp0) r.vdelp0
    && Machine.masked (keepMask .vdelp1) r.vdelp1 && Machine.masked (keepMask .vdelbl) r.vdelbl
    && Machine.masked (keepMask .resmp0) r.resmp0 && Machine.masked (keepMask .resmp1) r.resmp1

/-- Every object position is a column in [0, 160) (10_state.md R59). -/
def Video.positioned (v : Video) : Bool :=
  decide (v.posP0 < visibleWidth) && decide (v.posP1 < visibleWidth) && decide (v.posM0 < visibleWidth)
    && decide (v.posM1 < visibleWidth) && decide (v.posBL < visibleWidth)

/-- The beam is inside the frame (10_state.md R51, R52). -/
def Video.inFrame (cfg : Config) (v : Video) : Bool :=
  decide (v.h < cfg.lineCc) && decide (v.line < (frameGeometry cfg).lines)

/-- The framebuffer is a canonical array of `160 × FB_HEIGHT` cells, bit 0 of each zero (10_state.md R64). -/
def Video.fbWf (cfg : Config) (v : Video) : Bool :=
  cellsWf zeroBase (visibleWidth * (frameGeometry cfg).fbHeight) v.fb && v.fb.all fun cell => !cell.2.getLsbD 0

/-- The legal states of the video engine. -/
def Video.wf (cfg : Config) (v : Video) : Bool :=
  v.inFrame cfg && v.positioned && v.regs.masked && v.fbWf cfg

/-- The beam column and the cycle count of a dual machine agree (45_orchestrator.md R505). -/
def State.clockAgrees (s : State) : Prop := s.dual = true → s.video.h = 3 * s.totalCycles % s.cfg.lineCc

/-- `WRITE_DELAY(k)` is its default `3·k` on every cycle of an instruction (20_memory.md R118). -/
def defaultDelays (cfg : Config) : Prop := ∀ k, 1 ≤ k → writeDelay cfg k = 3 * k

end Sys2Proof.Machine
end

