-- ==== Sys2Proof/Certificates/Slice0/Obligations.lean ====
section
/-! DEFINITION. The statements for the provers. Each docstring names the rules of spec/ it formalises. -/

open Sys2Proof Sys2Proof.Machine

/-- Sample words of every family decode to the instruction the map gives them. (30_encoding.md R179, 30_encoding.md
R161) -/
def Obligations.SampleWordsDecode : Prop :=
  decode [0xA9, 0x42] = .ok (.lda (.imm 0x42), [])
    ∧ decode [0xB6, 0x80] = .ok (.ldx (.mem (.zpy 0x80)), [])
    ∧ decode [0x9D, 0x34, 0x12] = .ok (.sta (.abx 0x1234), [])
    ∧ decode [0x9A] = .ok (.txs, [])
    ∧ decode [0x68] = .ok (.pla, [])
    ∧ decode [0x71, 0x20] = .ok (.adc (.mem (.izy 0x20)), [])
    ∧ decode [0x24, 0x07] = .ok (.bit (.zp 0x07), [])
    ∧ decode [0x6A] = .ok (.ror .acc, [])
    ∧ decode [0xD0, 0xFE] = .ok (.bne 0xFE, [])
    ∧ decode [0x6C, 0xFF, 0x10] = .ok (.jmp (.ind 0x10FF), [])
    ∧ decode [0x00] = .ok (.brk, [])
    ∧ decode [0xF8] = .ok (.sed, [])
    ∧ decode [0x80, 0x55] = .ok (.nop (.imm 0 0x55), [])
    ∧ decode [0xC7, 0x41] = .ok (.dcp (.zp 0x41), [])
    ∧ decode [0x93, 0x20] = .ok (.sha (.izy 0x20), [])
    ∧ decode [0xF2] = .ok (.jam 11, [])

/-- Decoding the bytes of a well-formed instruction gives it back, whatever follows. (30_encoding.md R179,
30_encoding.md R160, 30_encoding.md R161) -/
def Obligations.DecodeEncode : Prop :=
  ∀ i : Instr, i.wellFormed = true →
    ∃ bytes, encode i = some bytes ∧ ∀ rest, decode (bytes ++ rest) = .ok (i, rest)

/-- Every opcode byte decodes to a well-formed instruction whose bytes it and its operand bytes are. (30_encoding.md
R179, 30_encoding.md R183, 30_encoding.md R184) -/
def Obligations.EveryOpcodeIsDefined : Prop :=
  ∀ (op b₁ b₂ : Byte) (rest : List Byte),
    ∃ i bytes after, decode (op :: b₁ :: b₂ :: rest) = .ok (i, after) ∧ i.wellFormed = true
      ∧ encode i = some bytes ∧ bytes ++ after = op :: b₁ :: b₂ :: rest

/-- The fetch decodes the bytes successive bus reads at PC return, and leaves PC past them. (30_encoding.md R160,
00_scope.md R14, 30_encoding.md R178, 43_undocumented.md R375) -/
def Obligations.FetchDecodesWhatTheBusReturns : Prop :=
  ∀ s : State,
    let r₁ := busRead s.pc s
    let r₂ := busRead (s.pc + 1) r₁.2
    let r₃ := busRead (s.pc + 2) r₂.2
    (s.jammed = false →
        ∃ after, decode [r₁.1, r₂.1, r₃.1] = .ok ((fetch s).1, after)
          ∧ (fetch s).2.pc = s.pc + BitVec.ofNat 16 (3 - after.length))
      ∧ (s.jammed = true → (∃ k, (fetch s).1 = .jam k) ∧ (fetch s).2 = { r₁.2 with pc := s.pc + 1 })
      ∧ MachineFrame s (fetch s).2 ∧ NoStore s (fetch s).2
      ∧ (fetch s).2.a = s.a ∧ (fetch s).2.x = s.x ∧ (fetch s).2.y = s.y ∧ (fetch s).2.sp = s.sp
      ∧ (fetch s).2.p = s.p

/-- A step runs the instruction the bytes at PC decode to, and then lets its cycles pass. (30_encoding.md R178,
45_orchestrator.md R502, 45_orchestrator.md R503) -/
def Obligations.StepRunsTheDecodedInstruction : Prop :=
  ∀ (s : State) (i : Instr) (bytes : List Byte),
    halted s = false → pendingInterrupt s = none → decode bytes = .ok (i, []) →
    (s.jammed = true → ∃ k, i = .jam k) →
    (∀ k v, bytes[k]? = some v → s.peek (s.pc + BitVec.ofNat 16 k) = some v) →
    ∀ last, bytes.getLast? = some last →
    ∃ t, exec i { s with
            pc := s.pc + BitVec.ofNat 16 bytes.length
            lastAddr := s.pc + BitVec.ofNat 16 (bytes.length - 1)
            lastData := last
            lastRw := .read } = .next t
      ∧ step s = .next
          { t with
            video := if s.mode = .console then videoSteps t.cfg (3 * t.cycles) t.video else t.video
            events := .clock t.cycles :: t.events
            totalCycles := t.totalCycles + t.cycles }

/-- The six transfers, and INX, INY, DEX, DEY: destination, N and Z (none for TXS), 2 cycles, nothing else. (R206,
R207, R208, R209, R210, R211, R261, R262, R263, R264) -/
def Obligations.RegisterResults : Prop :=
  encode .tax = some [0xAA] ∧ encode .tay = some [0xA8] ∧ encode .txa = some [0x8A] ∧ encode .tya = some [0x98]
    ∧ encode .tsx = some [0xBA] ∧ encode .txs = some [0x9A] ∧ encode .inx = some [0xE8] ∧ encode .iny = some [0xC8]
    ∧ encode .dex = some [0xCA] ∧ encode .dey = some [0x88]
    ∧ ∀ s : State,
      let up (r : Byte) : Byte := BitVec.ofNat 8 ((r.toNat + 1) % 256)
      let down (r : Byte) : Byte := BitVec.ofNat 8 ((r.toNat + 255) % 256)
      exec .tax s = .next { s with x := s.a, p := nzOf s.a s.p, cycles := 2 }
        ∧ exec .tay s = .next { s with y := s.a, p := nzOf s.a s.p, cycles := 2 }
        ∧ exec .txa s = .next { s with a := s.x, p := nzOf s.x s.p, cycles := 2 }
        ∧ exec .tya s = .next { s with a := s.y, p := nzOf s.y s.p, cycles := 2 }
        ∧ exec .tsx s = .next { s with x := s.sp, p := nzOf s.sp s.p, cycles := 2 }
        ∧ exec .txs s = .next { s with sp := s.x, cycles := 2 }
        ∧ exec .inx s = .next { s with x := up s.x, p := nzOf (up s.x) s.p, cycles := 2 }
        ∧ exec .iny s = .next { s with y := up s.y, p := nzOf (up s.y) s.p, cycles := 2 }
        ∧ exec .dex s = .next { s with x := down s.x, p := nzOf (down s.x) s.p, cycles := 2 }
        ∧ exec .dey s = .next { s with y := down s.y, p := nzOf (down s.y) s.p, cycles := 2 }

/-- CLC, SEC, CLI, SEI, CLD, SED, CLV write their one flag, take 2 cycles and change nothing else. (R314, R315, R316,
R317, R318, R319, R320) -/
def Obligations.FlagInstructionResults : Prop :=
  encode .clc = some [0x18] ∧ encode .sec = some [0x38] ∧ encode .cli = some [0x58] ∧ encode .sei = some [0x78]
    ∧ encode .cld = some [0xD8] ∧ encode .sed = some [0xF8] ∧ encode .clv = some [0xB8]
    ∧ ∀ s : State,
      exec .clc s = .next { s with p := { s.p with c := false }, cycles := 2 }
        ∧ exec .sec s = .next { s with p := { s.p with c := true }, cycles := 2 }
        ∧ exec .cli s = .next { s with p := { s.p with i := false }, cycles := 2 }
        ∧ exec .sei s = .next { s with p := { s.p with i := true }, cycles := 2 }
        ∧ exec .cld s = .next { s with p := { s.p with d := false }, cycles := 2 }
        ∧ exec .sed s = .next { s with p := { s.p with d := true }, cycles := 2 }
        ∧ exec .clv s = .next { s with p := { s.p with v := false }, cycles := 2 }

/-- All NOP forms complete; implied and immediate ones only cost 2 cycles, the others read their operand once.
(42_control.md R321, 43_undocumented.md R372, 43_undocumented.md R373, 43_undocumented.md R374) -/
def Obligations.NopForms : Prop :=
  ∀ s : State,
    (∀ k, exec (.nop (.imp k)) s = .next { s with cycles := 2 })
      ∧ (∀ k v, exec (.nop (.imm k v)) s = .next { s with cycles := 2 })
      ∧ ∀ (f : NopForm) (m : MemMode) (n : Nat),
          ((∃ k z, f = .zp k z ∧ m = .zp z ∧ n = 3) ∨ (∃ k z, f = .zpx k z ∧ m = .zpx z ∧ n = 4)
            ∨ (∃ a, f = .abs a ∧ m = .abs a ∧ n = 4) ∨ (∃ k a, f = .abx k a ∧ m = .abx a ∧ n = 4)) →
          ∃ t, exec (.nop f) s = .next t
            ∧ CpuIs t s.a s.x s.y s.sp s.pc s.p (if pageCrossed m s then n + 1 else n)
            ∧ MachineFrame s t ∧ NoStore s t ∧ LastRead (operandAddr m s) (operandByte m s) t

/-- LDA, LDX, LDY, LAX and LAS load their operand, set N and Z from the result and change nothing else.
(40_load_store.md R200, 40_load_store.md R201, 40_load_store.md R202, 43_undocumented.md R357, 43_undocumented.md
R370) -/
def Obligations.LoadResults : Prop :=
  ∀ s : State,
    (∀ o : ReadOperand,
      let v := readOperandByte o s
      let n := readOperandCycles o s
      (∃ t, exec (.lda o) s = .next t ∧ CpuIs t v s.x s.y s.sp s.pc (nzOf v s.p) n ∧ MachineFrame s t
          ∧ OperandRead o s t)
        ∧ (∃ t, exec (.ldx o) s = .next t ∧ CpuIs t s.a v s.y s.sp s.pc (nzOf v s.p) n ∧ MachineFrame s t
          ∧ OperandRead o s t)
        ∧ ∃ t, exec (.ldy o) s = .next t ∧ CpuIs t s.a s.x v s.sp s.pc (nzOf v s.p) n ∧ MachineFrame s t
          ∧ OperandRead o s t)
      ∧ (∀ m : MemMode,
        let v := operandByte m s
        ∃ t, exec (.lax m) s = .next t
          ∧ CpuIs t v v s.y s.sp s.pc (nzOf v s.p) (readOperandCycles (.mem m) s) ∧ MachineFrame s t
          ∧ OperandRead (.mem m) s t)
      ∧ ∀ a : Word,
        let v := operandByte (.aby a) s &&& s.sp
        ∃ t, exec (.las a) s = .next t
          ∧ CpuIs t v v s.y v s.pc (nzOf v s.p) (if pageCrossed (.aby a) s then 5 else 4) ∧ MachineFrame s t
          ∧ OperandRead (.mem (.aby a)) s t

/-- AND, ORA, EOR combine A with the operand and set N and Z; BIT sets N, V, Z from it; nothing else changes.
(41_alu.md R252, 41_alu.md R253, 41_alu.md R254, 41_alu.md R258) -/
def Obligations.LogicResults : Prop :=
  (∀ (s : State) (o : ReadOperand),
    let v := readOperandByte o s
    let n := readOperandCycles o s
    (∃ t, exec (.and o) s = .next t ∧ CpuIs t (s.a &&& v) s.x s.y s.sp s.pc (nzOf (s.a &&& v) s.p) n
        ∧ MachineFrame s t ∧ OperandRead o s t)
      ∧ (∃ t, exec (.ora o) s = .next t ∧ CpuIs t (s.a ||| v) s.x s.y s.sp s.pc (nzOf (s.a ||| v) s.p) n
        ∧ MachineFrame s t ∧ OperandRead o s t)
      ∧ ∃ t, exec (.eor o) s = .next t ∧ CpuIs t (s.a ^^^ v) s.x s.y s.sp s.pc (nzOf (s.a ^^^ v) s.p) n
        ∧ MachineFrame s t ∧ OperandRead o s t)
    ∧ ∀ (s : State) (m : MemMode),
      let v := operandByte m s
      ∃ t, exec (.bit m) s = .next t
        ∧ CpuIs t s.a s.x s.y s.sp s.pc
            { s.p with n := v.getLsbD 7, v := v.getLsbD 6, z := decide ((s.a &&& v).toNat = 0) }
            (readOperandCycles (.mem m) s)
        ∧ MachineFrame s t ∧ OperandRead (.mem m) s t

/-- ADC, SBC and USBC select the binary or the NMOS decimal adder by D and write A, C, V, N, Z only. (R242, R245) -/
def Obligations.ArithmeticResults : Prop :=
  ∀ s : State,
    (∀ o : ReadOperand,
      let m := readOperandByte o s
      let add := if s.p.d then addDec s.a m s.p.c else addBin s.a m s.p.c
      let sub := if s.p.d then subDec s.a m s.p.c else subBin s.a m s.p.c
      (∃ t, exec (.adc o) s = .next t
          ∧ CpuIs t add.r s.x s.y s.sp s.pc { s.p with c := add.c, v := add.v, n := add.n, z := add.z }
              (readOperandCycles o s)
          ∧ MachineFrame s t ∧ OperandRead o s t)
        ∧ ∃ t, exec (.sbc o) s = .next t
          ∧ CpuIs t sub.r s.x s.y s.sp s.pc { s.p with c := sub.c, v := sub.v, n := sub.n, z := sub.z }
              (readOperandCycles o s)
          ∧ MachineFrame s t ∧ OperandRead o s t)
      ∧ ∀ m : Byte,
        let sub := if s.p.d then subDec s.a m s.p.c else subBin s.a m s.p.c
        exec (.usbc m) s = .next
          { s with a := sub.r, p := { s.p with c := sub.c, v := sub.v, n := sub.n, z := sub.z }, cycles := 2 }

/-- The binary adder: sum modulo 256, carry out of 256, overflow out of the signed range; subtraction is its
complement. (R240, R243) -/
def Obligations.BinaryAdderIsTwosComplement : Prop :=
  ∀ (a m : Byte) (c : Bool),
    (addBin a m c).r.toNat = (a.toNat + m.toNat + c.toNat) % 256
      ∧ ((addBin a m c).c = true ↔ 256 ≤ a.toNat + m.toNat + c.toNat)
      ∧ ((addBin a m c).v = true ↔ a.toInt + m.toInt + c.toNat < -128 ∨ 127 < a.toInt + m.toInt + c.toNat)
      ∧ (addBin a m c).n = (addBin a m c).r.getLsbD 7
      ∧ ((addBin a m c).z = true ↔ (addBin a m c).r.toNat = 0)
      ∧ (((subBin a m c).r.toNat : Int) = ((a.toNat : Int) - m.toNat - (1 - c.toNat)) % 256)
      ∧ ((subBin a m c).c = true ↔ m.toNat + (1 - c.toNat) ≤ a.toNat)
      ∧ ((subBin a m c).v = true
          ↔ a.toInt - m.toInt - (1 - (c.toNat : Int)) < -128 ∨ 127 < a.toInt - m.toInt - (1 - (c.toNat : Int)))
      ∧ (subBin a m c).n = (subBin a m c).r.getLsbD 7
      ∧ ((subBin a m c).z = true ↔ (subBin a m c).r.toNat = 0)
      ∧ subBin a m c = addBin a (m ^^^ 0xFF) c

/-- On decimal digits the decimal adder and subtracter compute modulo 100; on all inputs their result and flags are
the rule's. (41_alu.md R241, 41_alu.md R244) -/
def Obligations.DecimalAdderOnDigits : Prop :=
  (∀ (a₁ a₀ m₁ m₀ : Nat) (c : Bool), a₁ < 10 → a₀ < 10 → m₁ < 10 → m₀ < 10 →
      let a := BitVec.ofNat 8 (16 * a₁ + a₀)
      let m := BitVec.ofNat 8 (16 * m₁ + m₀)
      let sum := (10 * a₁ + a₀) + (10 * m₁ + m₀) + c.toNat
      let dif := 100 + (10 * a₁ + a₀) - (10 * m₁ + m₀) - (1 - c.toNat)
      (addDec a m c).r.toNat = 16 * (sum % 100 / 10) + sum % 10
        ∧ ((addDec a m c).c = true ↔ 100 ≤ sum)
        ∧ (subDec a m c).r.toNat = 16 * (dif % 100 / 10) + dif % 10
        ∧ ((subDec a m c).c = true ↔ 100 ≤ dif))
    ∧ ∀ (a m : Byte) (c : Bool),
      (subDec a m c).c = (subBin a m c).c ∧ (subDec a m c).v = (subBin a m c).v
        ∧ (subDec a m c).n = (subBin a m c).n ∧ (subDec a m c).z = (subBin a m c).z
        ∧ (addDec a m c).z = (addBin a m c).z
        ∧ (let low := a.toNat % 16 + m.toNat % 16 + c.toNat
           let sum := a.toNat / 16 * 16 + m.toNat / 16 * 16 + if low < 10 then low else 16 + (low + 6) % 16
           let adjusted := if sum < 160 then sum else sum + 96
           (addDec a m c).r.toNat = adjusted % 256 ∧ ((addDec a m c).c = true ↔ 256 ≤ adjusted)
             ∧ ((addDec a m c).n = true ↔ 128 ≤ sum % 256)
             ∧ ((addDec a m c).v = true
                 ↔ (a.toNat < 128 ∧ m.toNat < 128 ∧ 128 ≤ sum % 256)
                   ∨ (128 ≤ a.toNat ∧ 128 ≤ m.toNat ∧ sum % 256 < 128)))
        ∧ (let low : Int := (a.toNat : Int) % 16 - (m.toNat : Int) % 16 - (1 - c.toNat)
           let dif : Int := (a.toNat : Int) / 16 * 16 - (m.toNat : Int) / 16 * 16
             + if low < 0 then (low - 6) % 16 - 16 else low
           ((subDec a m c).r.toNat : Int) = (if dif < 0 then dif - 96 else dif) % 256)

/-- CMP, CPX, CPY: C unsigned at least, Z equal, N bit 7 of the difference; registers and all else unchanged. (R246) -/
def Obligations.CompareResults : Prop :=
  ∀ (s : State) (o : ReadOperand),
    let m := readOperandByte o s
    let n := readOperandCycles o s
    let cmp (r : Byte) : Flags :=
      { s.p with
        c := decide (m.toNat ≤ r.toNat)
        z := decide (r = m)
        n := decide (128 ≤ (r.toNat + 256 - m.toNat) % 256) }
    (∃ t, exec (.cmp o) s = .next t ∧ CpuIs t s.a s.x s.y s.sp s.pc (cmp s.a) n ∧ MachineFrame s t ∧ OperandRead o s t)
      ∧ (∃ t, exec (.cpx o) s = .next t ∧ CpuIs t s.a s.x s.y s.sp s.pc (cmp s.x) n ∧ MachineFrame s t
        ∧ OperandRead o s t)
      ∧ ∃ t, exec (.cpy o) s = .next t ∧ CpuIs t s.a s.x s.y s.sp s.pc (cmp s.y) n ∧ MachineFrame s t
        ∧ OperandRead o s t

/-- INC, DEC and the shifts, of memory or the accumulator: the result in the operand's place, their flags, nothing
else. (41_alu.md R247, 41_alu.md R248, 41_alu.md R259, 41_alu.md R260, 41_alu.md R265, 41_alu.md R266, 41_alu.md R267,
41_alu.md R268) -/
def Obligations.ShiftAndStepResults : Prop :=
  (∀ (s : State) (m : MemMode),
    let v := operandByte m s
    let done (i : Instr) (r : Byte) (c : Bool) : Prop :=
      ∃ t, exec i s = .next t
        ∧ CpuIs t s.a s.x s.y s.sp s.pc (nzOf r { s.p with c := c }) (modifyCycles m) ∧ MachineFrame s t
        ∧ OneStore (modifyCycles m) (operandAddr m s) r s t
    done (.inc m) (v + 1) s.p.c ∧ done (.dec m) (v - 1) s.p.c
      ∧ done (.asl (.mem m)) (BitVec.ofNat 8 (2 * v.toNat)) (decide (128 ≤ v.toNat))
      ∧ done (.lsr (.mem m)) (BitVec.ofNat 8 (v.toNat / 2)) (decide (v.toNat % 2 = 1))
      ∧ done (.rol (.mem m)) (BitVec.ofNat 8 (2 * v.toNat + s.p.c.toNat)) (decide (128 ≤ v.toNat))
      ∧ done (.ror (.mem m)) (BitVec.ofNat 8 (v.toNat / 2 + 128 * s.p.c.toNat)) (decide (v.toNat % 2 = 1)))
    ∧ (encode (.asl .acc) = some [0x0A] ∧ encode (.lsr .acc) = some [0x4A] ∧ encode (.rol .acc) = some [0x2A]
      ∧ encode (.ror .acc) = some [0x6A])
    ∧ ∀ s : State,
      let left (c : Bool) : Byte := BitVec.ofNat 8 ((2 * s.a.toNat + c.toNat) % 256)
      let right (c : Bool) : Byte := BitVec.ofNat 8 (s.a.toNat / 2 + 128 * c.toNat)
      let out (r : Byte) (c : Bool) : Host.Outcome State Fault Refusal :=
        .next { s with a := r, p := nzOf r { s.p with c := c }, cycles := 2 }
      exec (.asl .acc) s = out (left false) (decide (128 ≤ s.a.toNat))
        ∧ exec (.lsr .acc) s = out (right false) (decide (s.a.toNat % 2 = 1))
        ∧ exec (.rol .acc) s = out (left s.p.c) (decide (128 ≤ s.a.toNat))
        ∧ exec (.ror .acc) s = out (right s.p.c) (decide (s.a.toNat % 2 = 1))

/-- SLO, RLA, SRE, RRA, DCP, ISC store the modified byte once and combine it with A as their rule says.
(43_undocumented.md R350, 43_undocumented.md R352, 43_undocumented.md R353, 43_undocumented.md R354,
43_undocumented.md R355, 43_undocumented.md R358, 43_undocumented.md R359) -/
def Obligations.CombinedModifyResults : Prop :=
  ∀ (s : State) (m : MemMode),
    let v := operandByte m s
    let done (i : Instr) (r a : Byte) (p : Flags) : Prop :=
      ∃ t, exec i s = .next t ∧ CpuIs t a s.x s.y s.sp s.pc p (modifyCycles m) ∧ MachineFrame s t
        ∧ OneStore (modifyCycles m) (operandAddr m s) r s t
    let asl : Byte := BitVec.ofNat 8 (2 * v.toNat)
    let rol : Byte := BitVec.ofNat 8 (2 * v.toNat + s.p.c.toNat)
    let lsr : Byte := BitVec.ofNat 8 (v.toNat / 2)
    let ror : Byte := BitVec.ofNat 8 (v.toNat / 2 + 128 * s.p.c.toNat)
    let top := decide (128 ≤ v.toNat)
    let low := decide (v.toNat % 2 = 1)
    let add := if s.p.d then addDec s.a ror low else addBin s.a ror low
    let sub := if s.p.d then subDec s.a (v + 1) s.p.c else subBin s.a (v + 1) s.p.c
    done (.slo m) asl (s.a ||| asl) (nzOf (s.a ||| asl) { s.p with c := top })
      ∧ done (.rla m) rol (s.a &&& rol) (nzOf (s.a &&& rol) { s.p with c := top })
      ∧ done (.sre m) lsr (s.a ^^^ lsr) (nzOf (s.a ^^^ lsr) { s.p with c := low })
      ∧ done (.rra m) ror add.r { s.p with c := add.c, v := add.v, n := add.n, z := add.z }
      ∧ done (.dcp m) (v - 1) s.a
          { s.p with
            c := decide ((v - 1).toNat ≤ s.a.toNat)
            z := decide (s.a = v - 1)
            n := (s.a - (v - 1)).getLsbD 7 }
      ∧ done (.isc m) (v + 1) sub.r { s.p with c := sub.c, v := sub.v, n := sub.n, z := sub.z }

/-- ANC, ALR, SBX, ANE and LXA: results and flags from A, X and the immediate, 2 cycles, nothing else. (R360, R361,
R363, R364, R365) -/
def Obligations.ImmediateCombinedResults : Prop :=
  (∀ v, encode (.anc 0 v) = some [0x0B, v] ∧ encode (.anc 1 v) = some [0x2B, v] ∧ encode (.alr v) = some [0x4B, v]
      ∧ encode (.sbx v) = some [0xCB, v] ∧ encode (.ane v) = some [0x8B, v] ∧ encode (.lxa v) = some [0xAB, v])
    ∧ ∀ (s : State) (m : Byte),
      let t := s.a &&& m
      let ax := s.a &&& s.x
      let half : Byte := BitVec.ofNat 8 (t.toNat / 2)
      let ane := (s.a ||| s.cfg.magicAne) &&& s.x &&& m
      let lxa := (s.a ||| s.cfg.magicLxa) &&& m
      (∀ k, exec (.anc k m) s = .next { s with a := t, p := nzOf t { s.p with c := t.getLsbD 7 }, cycles := 2 })
        ∧ exec (.alr m) s = .next
            { s with a := half, p := nzOf half { s.p with c := decide (t.toNat % 2 = 1) }, cycles := 2 }
        ∧ exec (.sbx m) s = .next
            { s with x := ax - m, p := nzOf (ax - m) { s.p with c := decide (m.toNat ≤ ax.toNat) }, cycles := 2 }
        ∧ exec (.ane m) s = .next { s with a := ane, p := nzOf ane s.p, cycles := 2 }
        ∧ exec (.lxa m) s = .next { s with a := lxa, x := lxa, p := nzOf lxa s.p, cycles := 2 }

/-- ARR in binary and decimal mode: result and N, V, Z, C by the rule, nothing else changes. (R362) -/
def Obligations.ArrResult : Prop :=
  (∀ v, encode (.arr v) = some [0x6B, v])
    ∧ ∀ (s : State) (m : Byte),
      let t := (s.a &&& m).toNat
      let r := t / 2 + 128 * s.p.c.toNat
      let low := if 5 < t % 16 + t % 2 then r / 16 * 16 + (r + 6) % 16 else r
      let high := decide (0x50 < t / 16 * 16 + t / 16 % 2 * 16)
      let dec := if high then (low + 0x60) % 256 else low
      (s.p.d = false →
          exec (.arr m) s = .next
            { s with
              a := BitVec.ofNat 8 r
              p := { s.p with
                n := s.p.c
                z := decide (r = 0)
                c := decide (r / 64 % 2 = 1)
                v := decide (r / 64 % 2 ≠ r / 32 % 2) }
              cycles := 2 })
        ∧ (s.p.d = true →
          exec (.arr m) s = .next
            { s with
              a := BitVec.ofNat 8 dec
              p := { s.p with
                n := s.p.c
                z := decide (r = 0)
                c := high
                v := decide (t / 64 % 2 ≠ r / 64 % 2) }
              cycles := 2 })

/-- STA, STX, STY, SAX store one byte at the effective address on their last cycle and change nothing else.
(40_load_store.md R203, 40_load_store.md R204, 40_load_store.md R205, 43_undocumented.md R356, 30_encoding.md R181) -/
def Obligations.StoreResults : Prop :=
  ∀ (s : State) (m : MemMode),
    let done (i : Instr) (v : Byte) : Prop :=
      ∃ t, exec i s = .next t ∧ CpuIs t s.a s.x s.y s.sp s.pc s.p (storeCycles m) ∧ MachineFrame s t
        ∧ OneStore (storeCycles m) (operandAddr m s) v s t
    done (.sta m) s.a ∧ done (.stx m) s.x ∧ done (.sty m) s.y ∧ done (.sax m) (s.a &&& s.x)

/-- SHA, SHX, SHY, TAS store the value masked by base high byte plus one, the address corrupted on a page cross.
(R351, R367, R368, R369) -/
def Obligations.MaskedStoreResults : Prop :=
  (∀ a, encode (.shx a) = some [0x9E, loByte a, hiByte a] ∧ encode (.shy a) = some [0x9C, loByte a, hiByte a]
      ∧ encode (.tas a) = some [0x9B, loByte a, hiByte a])
    ∧ ∀ s : State,
      let done (i : Instr) (m : MemMode) (corrupt : Bool) (v sp : Byte) (n : Nat) : Prop :=
        ∃ t, exec i s = .next t ∧ CpuIs t s.a s.x s.y sp s.pc s.p n ∧ MachineFrame s t
          ∧ OneStore n (maskedStoreAddr corrupt v m s) (maskedStoreByte v m s) s t
      (∀ a, done (.sha (.aby a)) (.aby a) s.cfg.shCorruptShaTas (s.a &&& s.x) s.sp 5)
        ∧ (∀ z, done (.sha (.izy z)) (.izy z) s.cfg.shCorruptShaTas (s.a &&& s.x) s.sp 6)
        ∧ (∀ a, done (.shx a) (.aby a) true s.x s.sp 5)
        ∧ (∀ a, done (.shy a) (.abx a) true s.y s.sp 5)
        ∧ ∀ a, done (.tas a) (.aby a) s.cfg.shCorruptShaTas (s.a &&& s.x) (s.a &&& s.x) 5

/-- PHA and PHP store at $0100 + S on cycle 3 and S falls by one; PLA and PLP raise S and load from $0100 + S. (R212,
R213, R214, R215) -/
def Obligations.StackResults : Prop :=
  encode .pha = some [0x48] ∧ encode .php = some [0x08] ∧ encode .pla = some [0x68] ∧ encode .plp = some [0x28]
    ∧ ∀ s : State,
      let slot : Word := BitVec.ofNat 16 (0x100 + s.sp.toNat)
      let above : Word := BitVec.ofNat 16 (0x100 + (s.sp.toNat + 1) % 256)
      let status : Byte := BitVec.ofNat 8
        (128 * s.p.n.toNat + 64 * s.p.v.toNat + 32 + 16 + 8 * s.p.d.toNat + 4 * s.p.i.toNat + 2 * s.p.z.toNat
          + s.p.c.toNat)
      let v := (busRead above s).1
      (∃ t, exec .pha s = .next t ∧ CpuIs t s.a s.x s.y (s.sp - 1) s.pc s.p 3 ∧ MachineFrame s t
          ∧ OneStore 3 slot s.a s t)
        ∧ (∃ t, exec .php s = .next t ∧ CpuIs t s.a s.x s.y (s.sp - 1) s.pc s.p 3 ∧ MachineFrame s t
          ∧ OneStore 3 slot status s t)
        ∧ (∃ t, exec .pla s = .next t ∧ CpuIs t v s.x s.y (s.sp + 1) s.pc (nzOf v s.p) 4 ∧ MachineFrame s t
          ∧ NoStore s t ∧ LastRead above v t)
        ∧ ∃ t, exec .plp s = .next t ∧ CpuIs t s.a s.x s.y (s.sp + 1) s.pc (flagsOf v) 4 ∧ MachineFrame s t
          ∧ NoStore s t ∧ LastRead above v t

/-- The status byte holds N V 1 b D I Z C from bit 7 down, and loading it back gives the flags with B the pushed bit.
(R44) -/
def Obligations.StatusByteLayout : Prop :=
  (∀ (p : Flags) (b : Bool),
      (statusByte p b).getLsbD 7 = p.n ∧ (statusByte p b).getLsbD 6 = p.v ∧ (statusByte p b).getLsbD 5 = true
        ∧ (statusByte p b).getLsbD 4 = b ∧ (statusByte p b).getLsbD 3 = p.d ∧ (statusByte p b).getLsbD 2 = p.i
        ∧ (statusByte p b).getLsbD 1 = p.z ∧ (statusByte p b).getLsbD 0 = p.c
        ∧ loadStatus (statusByte p b) = { p with b := b })
    ∧ ∀ v : Byte, loadStatus v = flagsOf v ∧ loadStatus (v ^^^ 0x20) = loadStatus v

/-- The eight branches go to PC plus the signed offset when their flag says so: 2, 3 or 4 cycles, nothing else
changes. (R301, R302, R303, R304, R305, R306, R307, R308) -/
def Obligations.BranchResults : Prop :=
  (∀ off, encode (.bpl off) = some [0x10, off] ∧ encode (.bmi off) = some [0x30, off]
      ∧ encode (.bvc off) = some [0x50, off] ∧ encode (.bvs off) = some [0x70, off]
      ∧ encode (.bcc off) = some [0x90, off] ∧ encode (.bcs off) = some [0xB0, off]
      ∧ encode (.bne off) = some [0xD0, off] ∧ encode (.beq off) = some [0xF0, off])
    ∧ ∀ (s : State) (off : Byte),
      let target : Word := BitVec.ofInt 16 (s.pc.toNat + off.toInt)
      let out (taken : Bool) : Host.Outcome State Fault Refusal :=
        if taken then
          .next { s with pc := target, cycles := if s.pc.toNat / 256 = target.toNat / 256 then 3 else 4 }
        else .next { s with cycles := 2 }
      exec (.bpl off) s = out (!s.p.n) ∧ exec (.bmi off) s = out s.p.n
        ∧ exec (.bvc off) s = out (!s.p.v) ∧ exec (.bvs off) s = out s.p.v
        ∧ exec (.bcc off) s = out (!s.p.c) ∧ exec (.bcs off) s = out s.p.c
        ∧ exec (.bne off) s = out (!s.p.z) ∧ exec (.beq off) s = out s.p.z

/-- JMP: the absolute target, or the two bytes at the pointer, whose high byte comes from the same page. (R309, R172) -/
def Obligations.JumpResults : Prop :=
  (∀ a, encode (.jmp (.abs a)) = some [0x4C, loByte a, hiByte a] ∧ encode (.jmp (.ind a)) = some [0x6C, loByte a, hiByte a])
    ∧ ∀ (s : State) (a : Word),
      exec (.jmp (.abs a)) s = .next { s with pc := a, cycles := 3 }
        ∧ (let second : Word := BitVec.ofNat 16 (a.toNat / 256 * 256 + (a.toNat + 1) % 256)
           let lo := busRead a s
           let hi := busRead second lo.2
           ∃ t, exec (.jmp (.ind a)) s = .next t
             ∧ CpuIs t s.a s.x s.y s.sp (BitVec.ofNat 16 (256 * hi.1.toNat + lo.1.toNat)) s.p 5
             ∧ MachineFrame s t ∧ NoStore s t ∧ LastRead second hi.1 t)

/-- JSR pushes the address of its last byte, high byte first on cycle 4, low byte on cycle 5, and jumps. (R310) -/
def Obligations.CallResult : Prop :=
  (∀ a, encode (.jsr a) = some [0x20, loByte a, hiByte a])
    ∧ ∀ (s : State) (target : Word),
      let r := s.pc - 1
      ∃ u t, exec (.jsr target) s = .next t ∧ CpuIs t s.a s.x s.y (s.sp - 2) target s.p 6 ∧ MachineFrame s t
        ∧ MachineFrame s u ∧ OneStore 4 (stackAddr s.sp) (hiByte r) s u
        ∧ OneStore 5 (stackAddr (s.sp - 1)) (loByte r) u t

/-- RTS and RTI pull their return address low byte first; RTI first loads the flags and adds nothing to it. (R311,
R312) -/
def Obligations.ReturnResults : Prop :=
  encode .rts = some [0x60] ∧ encode .rti = some [0x40]
    ∧ ∀ s : State,
      let r₁ := busRead (stackAddr (s.sp + 1)) s
      let r₂ := busRead (stackAddr (s.sp + 2)) r₁.2
      let r₃ := busRead (stackAddr (s.sp + 3)) r₂.2
      (∃ t, exec .rts s = .next t ∧ CpuIs t s.a s.x s.y (s.sp + 2) (wordOf r₁.1 r₂.1 + 1) s.p 6 ∧ MachineFrame s t
          ∧ NoStore s t ∧ LastRead (stackAddr (s.sp + 2)) r₂.1 t)
        ∧ ∃ t, exec .rti s = .next t ∧ CpuIs t s.a s.x s.y (s.sp + 3) (wordOf r₂.1 r₃.1) (flagsOf r₁.1) 6
          ∧ MachineFrame s t ∧ NoStore s t ∧ LastRead (stackAddr (s.sp + 3)) r₃.1 t

/-- BRK enters through $FFFE with the break bit set and its address + 2 as the return address, whatever I is. (R313,
R547) -/
def Obligations.BreakResult : Prop :=
  encode .brk = some [0x00]
    ∧ ∀ s : State, ∃ t, exec .brk s = .next t ∧ InterruptEntry 0xFFFE true (s.pc + 1) s t

/-- RTI after an interrupt entry, and RTS after JSR, resume at the return address with S as it was. (60_exceptions.md
R543, 60_exceptions.md R548, 42_control.md R310, 42_control.md R311) -/
def Obligations.ReturnUndoesEntry : Prop :=
  ∀ s : State,
    s.writable (stackAddr s.sp) = true → s.writable (stackAddr (s.sp - 1)) = true →
    (s.writable (stackAddr (s.sp - 2)) = true →
        ∀ (vector ret : Word) (b : Bool),
          ∃ t, exec .rti (enterInterrupt vector b ret s) = .next t
            ∧ CpuIs t s.a s.x s.y s.sp ret { s.p with b := b } 6)
      ∧ ∀ target, ∃ u t, exec (.jsr target) s = .next u ∧ exec .rts u = .next t
          ∧ CpuIs t s.a s.x s.y s.sp s.pc s.p 6

/-- JAM sets jammed, puts PC back at the halt opcode and costs JAM_CYCLES; a jammed CPU repeats it and never leaves.
(R375) -/
def Obligations.JamResult : Prop :=
  encode (.jam 0) = some [0x02] ∧ encode (.jam 1) = some [0x12] ∧ encode (.jam 2) = some [0x22]
    ∧ encode (.jam 3) = some [0x32] ∧ encode (.jam 4) = some [0x42] ∧ encode (.jam 5) = some [0x52]
    ∧ encode (.jam 6) = some [0x62] ∧ encode (.jam 7) = some [0x72] ∧ encode (.jam 8) = some [0x92]
    ∧ encode (.jam 9) = some [0xB2] ∧ encode (.jam 10) = some [0xD2] ∧ encode (.jam 11) = some [0xF2]
    ∧ (∀ k (s : State), exec (.jam k) s = .next { s with jammed := true, pc := s.pc - 1, cycles := s.cfg.jamCycles })
    ∧ (∀ s : State, s.jammed = true → halted s = false →
        ∃ t, step s = .next t ∧ CpuIs t s.a s.x s.y s.sp s.pc s.p s.cfg.jamCycles ∧ t.jammed = true
          ∧ t.nmiPending = s.nmiPending ∧ (∀ b, t.peek b = s.peek b) ∧ LastRead s.pc (busRead s.pc s).1 t
          ∧ t.totalCycles = s.totalCycles + s.cfg.jamCycles
          ∧ t.video = if s.mode = .console then videoSteps s.cfg (3 * s.cfg.jamCycles) s.video else s.video)
    ∧ defaultConfig.jamCycles = 2
    ∧ (∀ s t : State, s.jammed = true → step s = .next t → t.jammed = true ∧ t.pc = s.pc)
    ∧ ∀ s t : State, hostReset s = .next t → t.jammed = false

/-- The effective address of every mode, zero-page sums modulo 256, indexed sums modulo 65536, and its page cross.
(30_encoding.md R166, 30_encoding.md R167, 30_encoding.md R168, 30_encoding.md R169, 30_encoding.md R170,
30_encoding.md R171, 30_encoding.md R173, 30_encoding.md R174, 30_encoding.md R176) -/
def Obligations.EffectiveAddresses : Prop :=
  ∀ (s : State) (z : Byte) (a : Word),
    let word (p : Nat) : Nat :=
      let lo := busRead (BitVec.ofNat 16 (p % 256)) s
      lo.1.toNat + 256 * (busRead (BitVec.ofNat 16 ((p + 1) % 256)) lo.2).1.toNat
    let at' (m : MemMode) (ea : Nat) (crossed : Bool) : Prop :=
      (operandAddr m s).toNat = ea ∧ pageCrossed m s = crossed
    let indexed (m : MemMode) (base index : Nat) : Prop :=
      at' m ((base + index) % 65536) (decide (base / 256 ≠ (base + index) % 65536 / 256))
    at' (.zp z) z.toNat false
      ∧ at' (.zpx z) ((z.toNat + s.x.toNat) % 256) false
      ∧ at' (.zpy z) ((z.toNat + s.y.toNat) % 256) false
      ∧ at' (.abs a) a.toNat false
      ∧ indexed (.abx a) a.toNat s.x.toNat
      ∧ indexed (.aby a) a.toNat s.y.toNat
      ∧ at' (.izx z) (word (z.toNat + s.x.toNat)) false
      ∧ indexed (.izy z) (word z.toNat) s.y.toNat

/-- Every opcode completes and costs its entry of the map, with at most the page or branch extras the map marks.
(30_encoding.md R179, 30_encoding.md R180) -/
def Obligations.CyclesOfEveryOpcode : Prop :=
  ∀ (op b₁ b₂ : Byte) (s : State),
    ∃ t, exec ((layoutOf op).build b₁ b₂) s = .next t
      ∧ ((∃ k, (layoutOf op).build b₁ b₂ = .jam k) → t.cycles = s.cfg.jamCycles)
      ∧ ((∀ k, (layoutOf op).build b₁ b₂ ≠ .jam k) →
          (cycleEntry op).1 ≤ t.cycles ∧ t.cycles ≤ (cycleEntry op).1 + (cycleEntry op).2)

/-- In flat test mode every address is RAM: reads return it, writes set it, no device is reached. (R114) -/
def Obligations.FlatModeIsRam : Prop :=
  ∀ (s : State) (a : Word) (v : Byte) (k : Nat), s.mode = .flatTest →
    s.peek a = some (busRead a s).1 ∧ (busRead a s).2.draws = s.draws
      ∧ (busRead a s).2.video = s.video ∧ (busRead a s).2.events = s.events
      ∧ (busRead a (busWrite k a v s)).1 = v
      ∧ (∀ b, b ≠ a → (busRead b (busWrite k a v s)).1 = (busRead b s).1)
      ∧ (busWrite k a v s).video = s.video ∧ (busWrite k a v s).events = s.events
      ∧ (busWrite k a v s).draws = s.draws

/-- Console decode by address lines A12, A7, A9, mirrored every $2000 bytes. (R115) -/
def Obligations.ConsoleDecode : Prop :=
  ∀ (s : State) (a : Word), s.mode = .console →
    let n := a.toNat
    (n / 4096 % 2 = 1 → s.target a = .cartridge (n % 4096))
      ∧ (n / 4096 % 2 = 0 → n / 128 % 2 = 0 → s.target a = .video (BitVec.ofNat 16 (n % 8192)))
      ∧ (n / 4096 % 2 = 0 → n / 128 % 2 = 1 → n / 512 % 2 = 0 → s.target a = .consoleRam (n % 128))
      ∧ (n / 4096 % 2 = 0 → n / 128 % 2 = 1 → n / 512 % 2 = 1 → s.target a = .peripheral .timerSwitch (n % 32))
      ∧ s.target (a + 0x2000) = s.target a

/-- Breadboard decode by any BB_MAP of disjoint ranges, and by the default: RAM, peripheral windows with offsets, ROM.
That an address below a base or past a table passes the offset it does is the model's choice, log entry 15.
(20_memory.md R111, 20_memory.md R112, 20_memory.md R113) -/
def Obligations.BreadboardDecode : Prop :=
  ∀ (s : State) (a : Word), s.mode = .breadboard →
    let n := a.toNat
    (s.cfg.bbMap = defaultBbMap →
        (n < 0x4000 → s.target a = .memory n true)
          ∧ (0x4000 ≤ n → n < 0x4800 → s.target a = .peripheral .crtRam (n - 0x4000))
          ∧ (0x4800 ≤ n → n < 0x5000 → s.target a = .peripheral .crtRegs (n % 2))
          ∧ (0x5000 ≤ n → n < 0x6000 → s.target a = .peripheral .serial (n % 4))
          ∧ (0x6000 ≤ n → n < 0x8000 → s.target a = .peripheral .parallel (n % 16))
          ∧ (0x8000 ≤ n → s.target a = .memory n false
              ∧ ∀ k v b, (busWrite k a v s).peek b = s.peek b))
      ∧ (∀ r ∈ s.cfg.bbMap, r.first ≤ n → n ≤ r.last →
          (∀ q ∈ s.cfg.bbMap, q ≠ r → n < q.first ∨ q.last < n) →
          (r.target = .ram → s.target a = .memory n true)
            ∧ (r.target = .rom → s.target a = .memory n false ∧ ∀ k v b, (busWrite k a v s).peek b = s.peek b)
            ∧ (∀ p rule, r.target = .periph p rule → s.target a = .peripheral p (offsetOf rule n))
            ∧ (∀ p base, r.target = .periph p (.minus base) → s.target a = .peripheral p (n - base))
            ∧ (∀ p bits, r.target = .periph p (.mask bits) → s.target a = .peripheral p (n &&& bits))
            ∧ (∀ p base offsets, r.target = .periph p (.table base offsets) →
                s.target a = .peripheral p (offsets.getD (n - base) 0)))
      ∧ (∀ f : Nat → Nat, ∃ rule, ∀ m, m < 65536 → offsetOf rule m = f m)
      ∧ ((∀ r ∈ s.cfg.bbMap, n < r.first ∨ r.last < n) → s.target a = .memory n true)

/-- A byte of plain memory reads as the latest write to its cell, and as before after a write to any other.
(20_memory.md R130, 20_memory.md R113, 20_memory.md R116, 20_memory.md R119) -/
def Obligations.ReadAfterWrite : Prop :=
  ∀ (s : State) (a b : Word) (v : Byte) (k : Nat),
    (busWrite k a v s).peek b
        = (if s.writable a = true ∧ s.target b = s.target a then some v else s.peek b)
      ∧ ∀ w, s.peek b = some w → (busRead b s).1 = w ∧ (busRead b s).2.draws = s.draws

/-- Every bus read and write leaves its address, data byte and direction in the diagnostic mirror. (R105) -/
def Obligations.MirrorShowsTheLastAccess : Prop :=
  ∀ (s : State) (a : Word) (v : Byte) (k : Nat),
    LastRead a (busRead a s).1 (busRead a s).2 ∧ NoStore s (busRead a s).2 ∧ MachineFrame s (busRead a s).2
      ∧ CpuIs (busRead a s).2 s.a s.x s.y s.sp s.pc s.p s.cycles
      ∧ (busWrite k a v s).lastAddr = a ∧ (busWrite k a v s).lastData = v ∧ (busWrite k a v s).lastRw = .write
      ∧ MachineFrame s (busWrite k a v s) ∧ CpuIs (busWrite k a v s) s.a s.x s.y s.sp s.pc s.p s.cycles

/-- A console video read drives bits 7 and 6 from the collision latches or an input, the rest from the data-bus latch.
The draw is the opaque free value at the model's counter, log entry 4. (20_memory.md R117, 44_video_engine.md R404,
44_video_engine.md R405, 00_scope.md R11) -/
def Obligations.VideoWindowRead : Prop :=
  ∀ (s : State) (a : Word), s.mode = .console → a.toNat / 4096 % 2 = 0 → a.toNat / 128 % 2 = 0 →
    let r := busRead a s
    let cx := s.video.cx
    (∀ i, i < 6 → r.1.getLsbD i = s.lastData.getLsbD i) ∧ r.2.video = s.video
      ∧ (a.toNat % 16 = 0 → r.1.getLsbD 7 = cx.m0p1 ∧ r.1.getLsbD 6 = cx.m0p0)
      ∧ (a.toNat % 16 = 1 → r.1.getLsbD 7 = cx.m1p0 ∧ r.1.getLsbD 6 = cx.m1p1)
      ∧ (a.toNat % 16 = 2 → r.1.getLsbD 7 = cx.p0pf ∧ r.1.getLsbD 6 = cx.p0bl)
      ∧ (a.toNat % 16 = 3 → r.1.getLsbD 7 = cx.p1pf ∧ r.1.getLsbD 6 = cx.p1bl)
      ∧ (a.toNat % 16 = 4 → r.1.getLsbD 7 = cx.m0pf ∧ r.1.getLsbD 6 = cx.m0bl)
      ∧ (a.toNat % 16 = 5 → r.1.getLsbD 7 = cx.m1pf ∧ r.1.getLsbD 6 = cx.m1bl)
      ∧ (a.toNat % 16 = 6 → r.1.getLsbD 7 = cx.blpf ∧ r.1.getLsbD 6 = false)
      ∧ (a.toNat % 16 = 7 → r.1.getLsbD 7 = cx.p0p1 ∧ r.1.getLsbD 6 = cx.m0m1)
      ∧ (8 ≤ a.toNat % 16 → r.1.getLsbD 6 = false)
      ∧ (8 ≤ a.toNat % 16 → a.toNat % 16 ≤ 13 →
          r.1.getLsbD 7 = Config.freeBit s.draws ∧ r.2.draws = s.draws + 1)
      ∧ (14 ≤ a.toNat % 16 → r.1.getLsbD 7 = false)
      ∧ (a.toNat % 16 < 8 ∨ 14 ≤ a.toNat % 16 → r.2.draws = s.draws)

/-- A console video write appends (WRITE_DELAY(k), register, value) to the queue; but for the mirror nothing else
changes. (R118) -/
def Obligations.VideoWindowWrite : Prop :=
  (∀ k, 1 ≤ k → writeDelay defaultConfig k = 3 * k)
    ∧ ∀ (s : State) (a : Word) (v : Byte) (k : Nat), s.mode = .console → a.toNat / 4096 % 2 = 0 →
      a.toNat / 128 % 2 = 0 →
      (busWrite k a v s).video
          = { s.video with
              queue := s.video.queue ++ [⟨writeDelay s.cfg k, BitVec.ofNat 6 (a.toNat % 64), v⟩] }
        ∧ (∀ b, (busWrite k a v s).peek b = s.peek b) ∧ (busWrite k a v s).events = s.events
        ∧ MachineFrame s (busWrite k a v s)
        ∧ CpuIs (busWrite k a v s) s.a s.x s.y s.sp s.pc s.p s.cycles ∧ (busWrite k a v s).draws = s.draws
        ∧ (busWrite k a v s).mem = s.mem ∧ (busWrite k a v s).ram = s.ram
        ∧ (busWrite k a v s).lastAddr = a ∧ (busWrite k a v s).lastData = v ∧ (busWrite k a v s).lastRw = .write

/-- A write scheduled with delay d applies in the d-th color clock, before it draws; due writes apply in submission
order. That a forced earlier write goes just before the due one among other registers' writes is the model's reading,
log entry 9. (44_video_engine.md R413, 20_memory.md R135) -/
def Obligations.DelayedWriteApplies : Prop :=
  ∀ (cfg : Config) (v : Video) (reg : BitVec 6) (b b₂ : Byte) (d : Nat),
    let finishClock (u : Video) : Video := phaseAdvance cfg (phaseDraw cfg (phaseDetect (phaseLock cfg u)))
    (v.queue = [] → 1 ≤ d →
        videoSteps cfg d (schedule v reg b d) = finishClock (applyWrite cfg (videoSteps cfg (d - 1) v) ⟨0, reg, b⟩)
          ∧ ∀ n, n < d → videoSteps cfg n (schedule v reg b d) = schedule (videoSteps cfg n v) reg b (d - n))
      ∧ (v.queue = [] → videoStep cfg (schedule v reg b 0) = finishClock (applyWrite cfg v ⟨0, reg, b⟩))
      ∧ (∀ q : List PendingWrite,
          q.Pairwise (fun e w => e.reg = w.reg → w.remaining ≤ 1 → e.remaining ≤ 1) →
          phaseQueue cfg { v with queue := q }
            = { (q.filter fun w => w.remaining ≤ 1).foldl (applyWrite cfg) { v with queue := [] } with
                queue := (q.filter fun w => 2 ≤ w.remaining).map fun w => ⟨w.remaining - 1, w.reg, w.value⟩ })
      ∧ ∀ q : List PendingWrite, (∀ e ∈ q, e.reg = reg) →
          phaseQueue cfg { v with queue := q ++ [⟨1, reg, b₂⟩] }
            = applyWrite cfg (q.foldl (applyWrite cfg) { v with queue := [] }) ⟨0, reg, b₂⟩

/-- A color clock moves h by one and wraps it at the line's end, which ends the WSYNC halt and the HMOVE blanking.
That h goes on past a LINE_CC lowered to or below it is the model's choice, log entry 2. (44_video_engine.md R441) -/
def Obligations.BeamCounter : Prop :=
  ∀ (cfg : Config) (v : Video),
    (v.h + 1 ≠ cfg.lineCc → (videoStep cfg v).h = v.h + 1
        ∧ (videoStep cfg v).line = (phaseQueue cfg v).line
        ∧ (videoStep cfg v).wsyncHalt = (phaseQueue cfg v).wsyncHalt
        ∧ (videoStep cfg v).hmoveBlank = (phaseQueue cfg v).hmoveBlank)
      ∧ (v.h + 1 = cfg.lineCc → (videoStep cfg v).h = 0 ∧ (videoStep cfg v).wsyncHalt = false
        ∧ (videoStep cfg v).hmoveBlank = false
        ∧ (videoStep cfg v).line = ((phaseQueue cfg v).line + 1) % (frameGeometry cfg).lines)
      ∧ (videoStep cfg v).frameReady = (phaseQueue cfg v).frameReady ∧ defaultConfig.lineCc = 228

/-- WSYNC, RSYNC, the position resets, HMCLR, CXCLR and the unused numbers have exactly their effect. (R411, R415,
R424, R427) -/
def Obligations.StrobeEffects : Prop :=
  ∀ (cfg : Config) (v : Video) (b : Byte) (d : Nat),
    let write (n : Nat) : Video := applyWrite cfg v ⟨d, BitVec.ofNat 6 n, b⟩
    let column (delay : Nat) : Nat := ((if v.h < cfg.hblankCc then 0 else v.h - cfg.hblankCc) + delay) % 160
    write 0x02 = { v with wsyncHalt := true } ∧ write 0x03 = v
      ∧ write 0x10 = { v with posP0 := column 5 } ∧ write 0x11 = { v with posP1 := column 5 }
      ∧ write 0x12 = { v with posM0 := column 4 } ∧ write 0x13 = { v with posM1 := column 4 }
      ∧ write 0x14 = { v with posBL := column 4 }
      ∧ write 0x2B = { v with regs := { v.regs with hmp0 := 0, hmp1 := 0, hmm0 := 0, hmm1 := 0, hmbl := 0 } }
      ∧ write 0x2C = { v with cx := {} }
      ∧ ∀ n, 0x2D ≤ n → n ≤ 0x3F → write n = v

/-- HMOVE moves each object left by its signed motion value modulo 160, and blanks only when strobed in horizontal
blank. (R423) -/
def Obligations.HmoveMovesEveryObject : Prop :=
  ∀ (cfg : Config) (v : Video) (b : Byte) (d : Nat),
    let signed (hm : Byte) : Int := if hm.toNat / 16 < 8 then (hm.toNat / 16 : Nat) else (hm.toNat / 16 : Nat) - 16
    let moved (hm : Byte) (pos : Nat) : Int := ((pos : Int) - signed hm) % 160
    ∃ p₀ p₁ m₀ m₁ bl : Nat,
      applyWrite cfg v ⟨d, 0x2A, b⟩
          = { v with
              posP0 := p₀
              posP1 := p₁
              posM0 := m₀
              posM1 := m₁
              posBL := bl
              hmoveBlank := if v.h < cfg.hblankCc then true else v.hmoveBlank }
        ∧ (p₀ : Int) = moved v.regs.hmp0 v.posP0 ∧ (p₁ : Int) = moved v.regs.hmp1 v.posP1
        ∧ (m₀ : Int) = moved v.regs.hmm0 v.posM0 ∧ (m₁ : Int) = moved v.regs.hmm1 v.posM1
        ∧ (bl : Int) = moved v.regs.hmbl v.posBL

/-- A VSYNC rising edge starts a frame, a falling edge resets the visible-window detector, no other write does either.
(R408, R515) -/
def Obligations.VsyncEdges : Prop :=
  (∀ (cfg : Config) (v : Video) (b : Byte) (d : Nat),
    let stored := { v with regs := { v.regs with vsync := b &&& 0x02 }, prevVsync := b.getLsbD 1 }
    (applyWrite cfg v ⟨d, 0x00, b⟩
        = if v.prevVsync = false ∧ b.getLsbD 1 = true then
            { stored with frameReady := true, frameCount := v.frameCount + 1, line := 0 }
          else if v.prevVsync = true ∧ b.getLsbD 1 = false then
            { stored with prevVblank := false, visibleStart := none }
          else stored)
      ∧ ∀ reg, reg ≠ 0x00 →
        (applyWrite cfg v ⟨d, reg, b⟩).frameReady = v.frameReady
          ∧ (applyWrite cfg v ⟨d, reg, b⟩).frameCount = v.frameCount
          ∧ (applyWrite cfg v ⟨d, reg, b⟩).line = v.line
          ∧ (applyWrite cfg v ⟨d, reg, b⟩).regs.vsync = v.regs.vsync
          ∧ (applyWrite cfg v ⟨d, reg, b⟩).prevVsync = v.prevVsync
          ∧ (applyWrite cfg v ⟨d, reg, b⟩).prevVblank = v.prevVblank
          ∧ (applyWrite cfg v ⟨d, reg, b⟩).visibleStart = v.visibleStart)
    ∧ (∀ s : State, hostAckFrame s = { s with video := { s.video with frameReady := false } })
    ∧ (∀ s t : State, step s = .next t → s.video.frameReady = true → t.video.frameReady = true)
    ∧ ∀ s t : State, hostReset s = .next t → t.video.frameReady = false

/-- Each stored video register takes the value masked to its kept bits; GRP0, GRP1 and ENABL move the shadows. (R407,
R417, R418) -/
def Obligations.StoredRegisters : Prop :=
  ∀ (cfg : Config) (v : Video) (b : Byte) (d : Nat),
    let put (n : Nat) (r : VideoRegs) : Prop := applyWrite cfg v ⟨d, BitVec.ofNat 6 n, b⟩ = { v with regs := r }
    put 0x01 { v.regs with vblank := b &&& 0xC2 }
      ∧ put 0x04 { v.regs with nusiz0 := b &&& 0x37 } ∧ put 0x05 { v.regs with nusiz1 := b &&& 0x37 }
      ∧ put 0x06 { v.regs with colup0 := b &&& 0xFE } ∧ put 0x07 { v.regs with colup1 := b &&& 0xFE }
      ∧ put 0x08 { v.regs with colupf := b &&& 0xFE } ∧ put 0x09 { v.regs with colubk := b &&& 0xFE }
      ∧ put 0x0A { v.regs with ctrlpf := b &&& 0x37 } ∧ put 0x0B { v.regs with refp0 := b &&& 0x08 }
      ∧ put 0x0C { v.regs with refp1 := b &&& 0x08 } ∧ put 0x0D { v.regs with pf0 := b &&& 0xF0 }
      ∧ put 0x0E { v.regs with pf1 := b } ∧ put 0x0F { v.regs with pf2 := b }
      ∧ put 0x15 { v.regs with audc0 := b &&& 0x0F } ∧ put 0x16 { v.regs with audc1 := b &&& 0x0F }
      ∧ put 0x17 { v.regs with audf0 := b &&& 0x1F } ∧ put 0x18 { v.regs with audf1 := b &&& 0x1F }
      ∧ put 0x19 { v.regs with audv0 := b &&& 0x0F } ∧ put 0x1A { v.regs with audv1 := b &&& 0x0F }
      ∧ put 0x1D { v.regs with enam0 := b &&& 0x02 } ∧ put 0x1E { v.regs with enam1 := b &&& 0x02 }
      ∧ put 0x20 { v.regs with hmp0 := b &&& 0xF0 } ∧ put 0x21 { v.regs with hmp1 := b &&& 0xF0 }
      ∧ put 0x22 { v.regs with hmm0 := b &&& 0xF0 } ∧ put 0x23 { v.regs with hmm1 := b &&& 0xF0 }
      ∧ put 0x24 { v.regs with hmbl := b &&& 0xF0 } ∧ put 0x25 { v.regs with vdelp0 := b &&& 0x01 }
      ∧ put 0x26 { v.regs with vdelp1 := b &&& 0x01 } ∧ put 0x27 { v.regs with vdelbl := b &&& 0x01 }
      ∧ put 0x28 { v.regs with resmp0 := b &&& 0x02 } ∧ put 0x29 { v.regs with resmp1 := b &&& 0x02 }
      ∧ applyWrite cfg v ⟨d, 0x1B, b⟩ = { v with grp0New := b, grp1Old := v.grp1New }
      ∧ applyWrite cfg v ⟨d, 0x1C, b⟩ = { v with grp1New := b, grp0Old := v.grp0New, enablOld := v.enablNew }
      ∧ applyWrite cfg v ⟨d, 0x1F, b⟩ = { v with enablNew := b.getLsbD 1 }

/-- A color clock locks a missile to its player while RESMP is set and records the first line after vertical blank
ends. That the lock overwrites a missile position strobed in the same color clock is the model's reading, log entry
20. (44_video_engine.md R430, 44_video_engine.md R431, 44_video_engine.md R437) -/
def Obligations.LockAndDetector : Prop :=
  ∀ (cfg : Config) (v : Video),
    let u := phaseQueue cfg v
    let t := videoStep cfg v
    let locked (posP : Nat) (nusiz : Byte) : Nat := (posP + cfg.resmpOffset.getD (nusiz.toNat % 8) 0) % 160
    (u.regs.resmp0.getLsbD 1 = true → t.posM0 = locked u.posP0 u.regs.nusiz0)
      ∧ (u.regs.resmp0.getLsbD 1 = false → t.posM0 = u.posM0)
      ∧ (u.regs.resmp1.getLsbD 1 = true → t.posM1 = locked u.posP1 u.regs.nusiz1)
      ∧ (u.regs.resmp1.getLsbD 1 = false → t.posM1 = u.posM1)
      ∧ t.posP0 = u.posP0 ∧ t.posP1 = u.posP1 ∧ t.posBL = u.posBL
      ∧ t.prevVblank = u.regs.vblank.getLsbD 1
      ∧ t.visibleStart =
          (if u.prevVblank = true ∧ u.regs.vblank.getLsbD 1 = false ∧ u.visibleStart = none then some u.line
           else u.visibleStart)
      ∧ (v.queue = [] → u = v)

/-- Drawing writes the one pixel of its column by priority, or 0 when HMOVE-blanked, and latches overlaps of drawn
pixels. (44_video_engine.md R432, 44_video_engine.md R438, 44_video_engine.md R439, 44_video_engine.md R440) -/
def Obligations.VisibleClockDraws : Prop :=
  ∀ (cfg : Config) (v : Video),
    let x := v.h - cfg.hblankCc
    let base := v.visibleStart.getD (frameGeometry cfg).visibleStart
    let seen := cfg.hblankCc ≤ v.h ∧ v.regs.vblank.getLsbD 1 = false
    let comb := v.hmoveBlank = true ∧ x < 8
    let g := signalsAt v x
    let u := phaseDraw cfg v
    let half : Byte :=
      if v.regs.ctrlpf.getLsbD 1 = false then v.regs.colupf
      else if x < 80 then v.regs.colup0 else v.regs.colup1
    let pixel (row : Nat) : Byte := cellRead zeroBase u.fb (row * 160 + x)
    (¬seen → u = v)
      ∧ u = { v with fb := u.fb, cx := u.cx }
      ∧ (seen → comb → u.cx = v.cx)
      ∧ (seen → ¬comb → u.cx.p0p1 = (v.cx.p0p1 || g.p0 && g.p1) ∧ u.cx.m0m1 = (v.cx.m0m1 || g.m0 && g.m1)
          ∧ u.cx.m0p0 = (v.cx.m0p0 || g.m0 && g.p0) ∧ u.cx.m0p1 = (v.cx.m0p1 || g.m0 && g.p1)
          ∧ u.cx.m1p0 = (v.cx.m1p0 || g.m1 && g.p0) ∧ u.cx.m1p1 = (v.cx.m1p1 || g.m1 && g.p1)
          ∧ u.cx.p0pf = (v.cx.p0pf || g.p0 && g.pf) ∧ u.cx.p0bl = (v.cx.p0bl || g.p0 && g.bl)
          ∧ u.cx.p1pf = (v.cx.p1pf || g.p1 && g.pf) ∧ u.cx.p1bl = (v.cx.p1bl || g.p1 && g.bl)
          ∧ u.cx.m0pf = (v.cx.m0pf || g.m0 && g.pf) ∧ u.cx.m0bl = (v.cx.m0bl || g.m0 && g.bl)
          ∧ u.cx.m1pf = (v.cx.m1pf || g.m1 && g.pf) ∧ u.cx.m1bl = (v.cx.m1bl || g.m1 && g.bl)
          ∧ u.cx.blpf = (v.cx.blpf || g.bl && g.pf))
      ∧ (∀ cell, (base ≤ v.line → v.line - base < (frameGeometry cfg).fbHeight → cell ≠ (v.line - base) * 160 + x) →
          cellRead zeroBase u.fb cell = cellRead zeroBase v.fb cell)
      ∧ (seen → base ≤ v.line → v.line - base < (frameGeometry cfg).fbHeight →
          (comb → pixel (v.line - base) = 0)
            ∧ (¬comb → v.regs.ctrlpf.getLsbD 2 = false →
                pixel (v.line - base) =
                  if g.p0 = true ∨ g.m0 = true then v.regs.colup0
                  else if g.p1 = true ∨ g.m1 = true then v.regs.colup1
                  else if g.bl = true then v.regs.colupf
                  else if g.pf = true then half
                  else v.regs.colubk)
            ∧ (¬comb → v.regs.ctrlpf.getLsbD 2 = true →
                pixel (v.line - base) =
                  if g.bl = true then v.regs.colupf
                  else if g.pf = true then half
                  else if g.p0 = true ∨ g.m0 = true then v.regs.colup0
                  else if g.p1 = true ∨ g.m1 = true then v.regs.colup1
                  else v.regs.colubk))

/-- Which columns the playfield, the players, the missiles and the ball show in, from their registers and positions.
(44_video_engine.md R421, 44_video_engine.md R433, 44_video_engine.md R434, 44_video_engine.md R435,
44_video_engine.md R436) -/
def Obligations.ObjectBits : Prop :=
  (∀ (r : VideoRegs) (x : Nat), x < 80 →
      (r.ctrlpf.getLsbD 0 = false → playfieldBit r (x + 80) = playfieldBit r x)
        ∧ (r.ctrlpf.getLsbD 0 = true → playfieldBit r (159 - x) = playfieldBit r x)
        ∧ (x < 16 → playfieldBit r x = r.pf0.getLsbD (4 + x / 4))
        ∧ (16 ≤ x → x < 48 → playfieldBit r x = r.pf1.getLsbD (7 - (x - 16) / 4))
        ∧ (48 ≤ x → playfieldBit r x = r.pf2.getLsbD ((x - 48) / 4)))
    ∧ ∀ (v : Video) (x : Nat),
      let g := signalsAt v x
      let copies (nusiz : Byte) : List Nat :=
        [[0], [0, 16], [0, 32], [0, 16, 32], [0, 64], [0], [0, 32, 64], [0]].getD (nusiz.toNat % 8) []
      let scale (nusiz : Byte) : Nat := [1, 1, 1, 1, 1, 2, 1, 4].getD (nusiz.toNat % 8) 0
      let right (pos o : Nat) : Int := ((x : Int) - pos - o) % 160
      let within (width : Byte) (pos o : Nat) : Prop := right pos o < 2 ^ (width.toNat / 16 % 4)
      let player (graphics nusiz refp : Byte) (pos : Nat) : Prop :=
        ∃ o ∈ copies nusiz, ∃ k < 8, ((scale nusiz * k : Nat) : Int) ≤ right pos o
          ∧ right pos o < ((scale nusiz * (k + 1) : Nat) : Int)
          ∧ graphics.getLsbD (if refp.getLsbD 3 = true then k else 7 - k) = true
      let missile (enam resmp nusiz : Byte) (pos : Nat) : Prop :=
        enam.getLsbD 1 = true ∧ resmp.getLsbD 1 = false ∧ ∃ o ∈ copies nusiz, within nusiz pos o
      (g.pf = playfieldBit v.regs x)
        ∧ (g.p0 = true ↔ player (if v.regs.vdelp0.getLsbD 0 = true then v.grp0Old else v.grp0New)
            v.regs.nusiz0 v.regs.refp0 v.posP0)
        ∧ (g.p1 = true ↔ player (if v.regs.vdelp1.getLsbD 0 = true then v.grp1Old else v.grp1New)
            v.regs.nusiz1 v.regs.refp1 v.posP1)
        ∧ (g.m0 = true ↔ missile v.regs.enam0 v.regs.resmp0 v.regs.nusiz0 v.posM0)
        ∧ (g.m1 = true ↔ missile v.regs.enam1 v.regs.resmp1 v.regs.nusiz1 v.posM1)
        ∧ (g.bl = true ↔ (if v.regs.vdelbl.getLsbD 0 = true then v.enablOld else v.enablNew) = true
            ∧ within v.regs.ctrlpf v.posBL 0)

/-- A channel is silent at volume or mode 0, else a square wave of base clock over (AUDF + 1) times the mode's
divisor. (R444) -/
def Obligations.AudioOutput : Prop :=
  (∀ (cfg : Config) (v : Video),
      let tone (audc audf audv : Byte) : Option Tone :=
        if audv.toNat = 0 ∨ audc.toNat = 0 then none
        else some ⟨cfg.audioBaseClock, (audf.toNat + 1) * cfg.audioDivisor.getD audc.toNat 0, audv.toNat⟩
      audioTone cfg v 0 = tone v.regs.audc0 v.regs.audf0 v.regs.audv0
        ∧ audioTone cfg v 1 = tone v.regs.audc1 v.regs.audf1 v.regs.audv1
        ∧ ∀ (on : Bool) (channel : Fin 2), audioTone { cfg with audioEnabled := on } v channel = audioTone cfg v channel)
    ∧ defaultConfig.audioBaseClock = 31400
    ∧ defaultConfig.audioDivisor.tail = [15, 465, 465, 2, 2, 31, 31, 511, 31, 31, 1, 6, 6, 93, 93]
    ∧ ∀ v : Video, v.regs.audc0 = 4 → v.regs.audf0 = 31 → v.regs.audv0 = 8 →
      audioTone defaultConfig v 0 = some ⟨31400, 64, 8⟩

/-- A running step takes NMI first, then an unmasked IRQ, neither while jammed, else it runs an instruction. That the
IRQ level is a held input the host drives is the model's choice, log entry 3. (60_exceptions.md R546, 60_exceptions.md
R544, 60_exceptions.md R545, 45_orchestrator.md R512) -/
def Obligations.InterruptCheck : Prop :=
  (∀ s : State, hostNmi s = (if s.mode = .console then s else { s with nmiPending := true })
      ∧ ∀ level, hostIrq level s = { s with irqLine := level })
    ∧ ∀ s : State, halted s = false →
    (s.jammed = false → s.nmiPending = true →
        ∃ t, step s = .next (elapse 7 t) ∧ InterruptEntry 0xFFFA false s.pc { s with nmiPending := false } t)
      ∧ (s.jammed = false → s.nmiPending = false → s.irqLine = true → s.mode ≠ .console → s.p.i = false →
        ∃ t, step s = .next (elapse 7 t) ∧ InterruptEntry 0xFFFE false s.pc s t)
      ∧ (s.jammed = true ∨ (s.nmiPending = false ∧ (s.irqLine = false ∨ s.mode = .console ∨ s.p.i = true)) →
        ∃ t, exec (fetch s).1 (fetch s).2 = .next t ∧ step s = .next (elapse t.cycles t))

/-- A simple step adds the instruction's cycles and never steps the video; a halted step is one cycle without the CPU.
(R502, R504) -/
def Obligations.TickTime : Prop :=
  (∀ s : State, s.mode ≠ .console →
      ∃ t, step s = .next t ∧ t.video = s.video ∧ t.totalCycles = s.totalCycles + t.cycles
        ∧ ∃ before, t.events = .clock t.cycles :: before)
    ∧ ∀ s : State, s.mode = .console → s.video.wsyncHalt = true →
      step s = .next
        { s with
          video := videoSteps s.cfg 3 s.video
          events := .clock 1 :: s.events
          totalCycles := s.totalCycles + 1 }

/-- Every step answers, takes 1 to max(8, JAM_CYCLES) cycles, and keeps mode, cartridge, image, configuration and IRQ
input. That the IRQ level stays over a step, as the host last drove it, is the model's choice, log entry 3.
(60_exceptions.md R540, 20_memory.md R101, 30_encoding.md R179, 45_orchestrator.md R506) -/
def Obligations.EveryStepAnswers : Prop :=
  ∀ s : State, ∃ t, step s = .next t ∧ t.mode = s.mode ∧ t.rom = s.rom ∧ t.image = s.image ∧ t.loaded = s.loaded
    ∧ t.cfg = s.cfg ∧ t.budgetTarget = s.budgetTarget ∧ t.irqLine = s.irqLine
    ∧ (t.nmiPending = true → s.nmiPending = true)
    ∧ (∀ a i, s.target a = .cartridge i → t.peek a = s.peek a)
    ∧ s.totalCycles ≤ t.totalCycles
    ∧ (0 < s.cfg.jamCycles →
        s.totalCycles + 1 ≤ t.totalCycles ∧ t.totalCycles ≤ s.totalCycles + max 8 s.cfg.jamCycles)

/-- Every step keeps the legal states: canonical memory, the beam in the frame, positions in [0, 160), masked
registers. That a configuration is consistent as validConfig says is the model's choice, log entry 14. (10_state.md
R51, 10_state.md R52, 10_state.md R57, 10_state.md R59, 10_state.md R64, 44_video_engine.md R406) -/
def Obligations.StepKeepsLegalState : Prop :=
  ∀ s t : State, step s = .next t →
    validConfig s.cfg = true ∧ Memory.wf s = true ∧ s.video.wf s.cfg = true →
    validConfig t.cfg = true ∧ Memory.wf t = true ∧ t.video.wf t.cfg = true

/-- The state after reset is legal, and so is the state any completed reset leaves. That a configuration is consistent
as validConfig says is the model's choice, log entry 14. (70_reset_and_hazards.md R580, 44_video_engine.md R445) -/
def Obligations.LegalStateHolds : Prop :=
  (validConfig State.reset.cfg = true ∧ Memory.wf State.reset = true ∧ State.reset.video.wf State.reset.cfg = true)
    ∧ ∀ s t : State, hostReset s = .next t →
      Memory.wf t = true ∧ (validConfig s.cfg = true → t.video.wf t.cfg = true)

/-- In console mode the beam column is three times the cycle count modulo the line, at every step boundary.
(45_orchestrator.md R505, 45_orchestrator.md R503, 45_orchestrator.md R504) -/
def Obligations.ClockRatio : Prop :=
  (∀ s t : State, step s = .next t → s.video.h < s.cfg.lineCc → s.clockAgrees →
      t.video.h < t.cfg.lineCc ∧ t.clockAgrees)
    ∧ ∀ s t : State, hostReset s = .next t → t.clockAgrees

/-- A WSYNC halt ends exactly at h = 0, after as many steps as cycles are left of the line, the CPU untouched. That a
configuration is consistent as validConfig says is the model's choice, log entry 14. (45_orchestrator.md R505,
44_video_engine.md R410) -/
def Obligations.WsyncReleasesAtLineStart : Prop :=
  ∀ s : State, s.mode = .console → validConfig s.cfg = true → s.video.h < s.cfg.lineCc → s.clockAgrees →
    s.video.wsyncHalt = true →
    let n := (s.cfg.lineCc - s.video.h) / 3
    (∃ t, Host.Core.run core n s = .next t ∧ t.video.h = 0 ∧ t.video.wsyncHalt = false
        ∧ t.totalCycles = s.totalCycles + n ∧ CpuIs t s.a s.x s.y s.sp s.pc s.p s.cycles ∧ ∀ b, t.peek b = s.peek b)
      ∧ ∀ k, k < n → ∃ t, Host.Core.run core k s = .next t ∧ t.video.wsyncHalt = true

/-- A budgeted run ends at its absolute target or at most 7 cycles past it; k frames end within 7 cycles of k frame
lengths. The bound on the ticks of a run and a JAM_CYCLES of at least 1 are the model's choice, log entry 14, and so
is an IRQ level that stays over the run, log entry 3. (45_orchestrator.md R507, 45_orchestrator.md R508,
45_orchestrator.md R509) -/
def Obligations.BudgetedRuns : Prop :=
  (∀ (s : State) (n : Nat), validConfig s.cfg = true → s.cfg.jamCycles ≤ 8 →
      s.budgetTarget ≤ s.totalCycles → s.totalCycles ≤ s.budgetTarget + 7 →
      ∃ t, runBudget n s = .next t ∧ t.budgetTarget = s.budgetTarget + n ∧ t.cfg = s.cfg
        ∧ t.budgetTarget ≤ t.totalCycles ∧ t.totalCycles ≤ t.budgetTarget + 7
        ∧ ∃ steps, Host.Core.run core steps { s with budgetTarget := s.budgetTarget + n } = .next t)
    ∧ ∀ (s : State) (k : Nat),
      let line := s.cfg.lineCc / 3
      let frame := line * (frameGeometry s.cfg).lines
      runScanline s = runBudget line s ∧ runFrame s = runBudget frame s
        ∧ (s.cfg.lineCc = 228 → (frameGeometry s.cfg).lines = 262 → frame = 19912)
        ∧ (s.cfg.lineCc = 228 → (frameGeometry s.cfg).lines = 312 → frame = 23712)
        ∧ (validConfig s.cfg = true → s.cfg.jamCycles ≤ 8 → s.budgetTarget = frame * k →
            frame * k ≤ s.totalCycles → s.totalCycles ≤ frame * k + 7 →
            ∃ t, runFrame s = .next t ∧ t.cfg = s.cfg ∧ t.budgetTarget = frame * (k + 1)
              ∧ frame * (k + 1) ≤ t.totalCycles ∧ t.totalCycles ≤ frame * (k + 1) + 7)

/-- With the default write delay the pending-write queue is empty at every step boundary. (70_reset_and_hazards.md
R590) -/
def Obligations.QueueEmptyAtStepBoundaries : Prop :=
  (∀ s t : State, defaultDelays s.cfg → s.video.queue = [] → step s = .next t →
      defaultDelays t.cfg ∧ t.video.queue = [])
    ∧ defaultDelays defaultConfig ∧ ∀ s t : State, hostReset s = .next t → t.video.queue = []

/-- The state after reset has the registers, flags, counters and video state the summary table gives. The mode and the
empty image are the model's choice, log entry 1. (10_state.md R84, 70_reset_and_hazards.md R584) -/
def Obligations.ResetStateValues : Prop :=
  let s := State.reset
  s.a = 0 ∧ s.x = 0 ∧ s.y = 0 ∧ s.sp = 0xFD
    ∧ s.p = { c := false, z := false, i := true, d := false, b := false, v := false, n := false }
    ∧ s.jammed = false ∧ s.nmiPending = false
    ∧ s.video.h = 0 ∧ s.video.line = 0 ∧ s.video.frameCount = 0 ∧ s.video.wsyncHalt = false
    ∧ s.video.frameReady = false ∧ s.video.hmoveBlank = false ∧ s.video.regs = {}
    ∧ s.video.grp0New = 0 ∧ s.video.grp0Old = 0 ∧ s.video.grp1New = 0 ∧ s.video.grp1Old = 0
    ∧ s.video.enablNew = false ∧ s.video.enablOld = false
    ∧ s.video.posP0 = 0 ∧ s.video.posP1 = 0 ∧ s.video.posM0 = 0 ∧ s.video.posM1 = 0 ∧ s.video.posBL = 0
    ∧ s.video.cx = {} ∧ s.video.prevVblank = false ∧ s.video.visibleStart = none ∧ s.video.prevVsync = false
    ∧ s.video.queue = [] ∧ s.video.fb = [] ∧ s.totalCycles = 0 ∧ s.budgetTarget = 0
    ∧ s.mem = [] ∧ s.ram = [] ∧ s.rom = []
    ∧ s.lastAddr = 0xFFFD ∧ s.lastRw = .read ∧ s.pc = fallbackEntry s.cfg s.mode

/-- A reset sets the registers and counters, reads the vector through the fresh bus and replaces a zero vector. That
the IRQ level stays over a reset, as the host last drove it, is the model's choice, log entry 3.
(70_reset_and_hazards.md R581, 70_reset_and_hazards.md R582, 70_reset_and_hazards.md R583, 70_reset_and_hazards.md
R584, 70_reset_and_hazards.md R585, 20_memory.md R126) -/
def Obligations.HostResetResults : Prop :=
  ∀ s : State,
    (s.cfg.mode = .console → 4096 < s.image.size → hostReset s = .refused .bankSwitchedCartridge)
      ∧ (s.cfg.mode ≠ .console ∨ s.image.size ≤ 4096 → ∃ t, hostReset s = .next t)
      ∧ ∀ t, hostReset s = .next t →
        t.a = 0 ∧ t.x = 0 ∧ t.y = 0 ∧ t.sp = 0xFD
          ∧ t.p = { c := false, z := false, i := true, d := false, b := false, v := false, n := false }
          ∧ t.jammed = false ∧ t.nmiPending = false ∧ t.mode = s.cfg.mode ∧ t.video = Video.reset
          ∧ t.totalCycles = 0 ∧ t.budgetTarget = 0 ∧ t.lastAddr = 0xFFFD ∧ t.lastRw = .read
          ∧ t.cfg = s.cfg ∧ t.image = s.image ∧ t.irqLine = s.irqLine
          ∧ (∀ lo hi, t.peek 0xFFFC = some lo → t.peek 0xFFFD = some hi →
              t.pc = if lo = 0 ∧ hi = 0 then fallbackEntry s.cfg s.cfg.mode else wordOf lo hi)
          ∧ fallbackEntry defaultConfig .breadboard = 0x8000 ∧ fallbackEntry defaultConfig .console = 0xF000
          ∧ fallbackEntry defaultConfig .flatTest = 0x0400

/-- The three loaders leave exactly the image, the padding, the mirrored cartridge and the breadboard vector in
memory. (R125, R126, R127) -/
def Obligations.LoaderContents : Prop :=
  (∀ s : State, s.cfg.mode = .console → 4096 < s.image.size → hostReset s = .refused .bankSwitchedCartridge)
    ∧ ∀ s t : State, hostReset s = .next t →
    let byte (i : Nat) : Byte := if i < s.image.size then cellRead zeroBase s.image.bytes i else 0
    (s.cfg.mode = .flatTest → ∀ i, i < 65536 → t.memByte i = byte i)
      ∧ (s.cfg.mode = .console → s.image.size ≤ 4096 ∧ (∀ i, i < 128 → t.ramByte i = 0)
          ∧ ∀ i, i < 4096 → t.romByte i = if s.image.size ≤ 2048 then byte (i % 2048) else byte i)
      ∧ (s.cfg.mode = .breadboard → ∀ i, i < 65536 →
          t.memByte i =
            if i = 0xFFFC then loByte s.cfg.bbResetVector
            else if i = 0xFFFD then hiByte s.cfg.bbResetVector
            else if i < s.cfg.bbRomBase.toNat then 0
            else if i - s.cfg.bbRomBase.toNat < s.image.size then byte (i - s.cfg.bbRomBase.toNat)
            else 0xEA)
      ∧ defaultConfig.bbRomBase = 0x8000 ∧ defaultConfig.bbResetVector = 0x8000
end

