-- ==== Sys2Proof/Laws/Cells.lean ====
section
/-! SUPPORT. The laws of the sparse byte arrays of Machine/Cells.lean: read after write, and that a write keeps the
canonical form. -/

namespace Sys2Proof.Machine

/-! ## Lookup -/

theorem cellLookup_insert_same (m : List Host.Cell) (a : Nat) (v : Byte) : cellLookup (cellInsert m a v) a = some v := by
  induction m with
  | nil => simp [cellInsert, cellLookup]
  | cons c rest ih =>
    obtain ⟨k, w⟩ := c
    by_cases hlt : a < k
    · simp [cellInsert, cellLookup, hlt]
    · by_cases heq : a = k
      · simp [cellInsert, cellLookup, heq]
      · simp [cellInsert, cellLookup, hlt, heq, ih]

theorem cellLookup_insert_other (m : List Host.Cell) {a b : Nat} (v : Byte) (h : b ≠ a) :
    cellLookup (cellInsert m a v) b = cellLookup m b := by
  induction m with
  | nil => simp [cellInsert, cellLookup, h]
  | cons c rest ih =>
    obtain ⟨k, w⟩ := c
    by_cases hlt : a < k
    · simp [cellInsert, cellLookup, hlt, h]
    · by_cases heq : a = k
      · subst heq
        simp [cellInsert, cellLookup, h]
      · simp [cellInsert, cellLookup, hlt, heq, ih]

theorem cellLookup_erase_same (m : List Host.Cell) (a : Nat) : cellLookup (cellErase m a) a = none := by
  induction m with
  | nil => rfl
  | cons c rest ih =>
    obtain ⟨k, w⟩ := c
    by_cases heq : k = a
    · simpa [cellErase, heq] using ih
    · simpa [cellErase, cellLookup, heq, Ne.symm heq] using ih

theorem cellLookup_erase_other (m : List Host.Cell) {a b : Nat} (h : b ≠ a) :
    cellLookup (cellErase m a) b = cellLookup m b := by
  induction m with
  | nil => rfl
  | cons c rest ih =>
    obtain ⟨k, w⟩ := c
    by_cases heq : k = a
    · subst heq
      simpa [cellErase, cellLookup, h] using ih
    · by_cases hb : b = k
      · subst hb
        simp [cellErase, cellLookup, heq]
      · simpa [cellErase, cellLookup, heq, hb] using ih

/-! ## Read after write -/

@[simp] theorem cellRead_write_same (base : Nat → Byte) (m : List Host.Cell) (a : Nat) (v : Byte) :
    cellRead base (cellWrite base m a v) a = v := by
  by_cases h : v = base a
  · simp [cellRead, cellWrite, h, cellLookup_erase_same]
  · simp [cellRead, cellWrite, h, cellLookup_insert_same]

theorem cellRead_write_other (base : Nat → Byte) (m : List Host.Cell) {a b : Nat} (v : Byte) (h : b ≠ a) :
    cellRead base (cellWrite base m a v) b = cellRead base m b := by
  by_cases hv : v = base a
  · simp [cellRead, cellWrite, hv, cellLookup_erase_other m h]
  · simp [cellRead, cellWrite, hv, cellLookup_insert_other m v h]

theorem cellRead_write (base : Nat → Byte) (m : List Host.Cell) (a b : Nat) (v : Byte) :
    cellRead base (cellWrite base m a v) b = if b = a then v else cellRead base m b := by
  by_cases h : b = a
  · simp [h]
  · simp [h, cellRead_write_other base m v h]

/-! ## Canonical form -/

theorem keysFrom_mono {lo lo' : Nat} (h : lo ≤ lo') (m : List Host.Cell) (hm : keysFrom lo' m = true) :
    keysFrom lo m = true := by
  cases m with
  | nil => rfl
  | cons c rest =>
    simp only [keysFrom, Bool.and_eq_true, decide_eq_true_eq] at hm ⊢
    exact ⟨Nat.le_trans h hm.1, hm.2⟩

theorem keysFrom_insert {lo a : Nat} (m : List Host.Cell) (v : Byte) (ha : lo ≤ a) (hm : keysFrom lo m = true) :
    keysFrom lo (cellInsert m a v) = true := by
  induction m generalizing lo with
  | nil => simp [cellInsert, keysFrom, ha]
  | cons c rest ih =>
    obtain ⟨k, w⟩ := c
    simp only [keysFrom, Bool.and_eq_true, decide_eq_true_eq] at hm
    by_cases hlt : a < k
    · simp [cellInsert, hlt, keysFrom, ha, hm.2]
    · by_cases heq : a = k
      · subst heq
        simp [cellInsert, keysFrom, ha, hm.2]
      · simp only [cellInsert, hlt, heq, if_false, keysFrom, Bool.and_eq_true, decide_eq_true_eq]
        exact ⟨hm.1, ih (by omega) hm.2⟩

theorem keysFrom_erase {lo : Nat} (m : List Host.Cell) (a : Nat) (hm : keysFrom lo m = true) :
    keysFrom lo (cellErase m a) = true := by
  induction m generalizing lo with
  | nil => rfl
  | cons c rest ih =>
    obtain ⟨k, w⟩ := c
    simp only [keysFrom, Bool.and_eq_true, decide_eq_true_eq] at hm
    have htail : keysFrom (k + 1) (cellErase rest a) = true := ih hm.2
    by_cases heq : k = a
    · have : cellErase ((k, w) :: rest) a = cellErase rest a := by simp [cellErase, heq]
      rw [this]
      exact keysFrom_mono (by omega) _ htail
    · have : cellErase ((k, w) :: rest) a = (k, w) :: cellErase rest a := by simp [cellErase, heq]
      rw [this]
      simp [keysFrom, hm.1, htail]

theorem mem_cellInsert {m : List Host.Cell} {a : Nat} {v : Byte} {c : Host.Cell} (h : c ∈ cellInsert m a v) :
    c = (a, v) ∨ c ∈ m := by
  induction m with
  | nil => simpa [cellInsert] using h
  | cons d rest ih =>
    obtain ⟨k, w⟩ := d
    by_cases hlt : a < k
    · simpa [cellInsert, hlt] using h
    · by_cases heq : a = k
      · subst heq
        simp [cellInsert] at h
        rcases h with h | h
        · exact .inl h
        · exact .inr (List.mem_cons_of_mem _ h)
      · simp only [cellInsert, hlt, heq, if_false, List.mem_cons] at h
        rcases h with h | h
        · exact .inr (by simp [h])
        · exact (ih h).imp id (List.mem_cons_of_mem _)

theorem mem_cellErase {m : List Host.Cell} {a : Nat} {c : Host.Cell} (h : c ∈ cellErase m a) : c ∈ m := by
  unfold cellErase at h
  exact List.mem_of_mem_filter h

/-- A write inside the array keeps the canonical form. -/
theorem cellsWf_write {base : Nat → Byte} {size : Nat} {m : List Host.Cell} {a : Nat} (v : Byte) (ha : a < size)
    (hm : cellsWf base size m = true) : cellsWf base size (cellWrite base m a v) = true := by
  simp only [cellsWf, Bool.and_eq_true, List.all_eq_true, decide_eq_true_eq] at hm ⊢
  obtain ⟨hk, hall⟩ := hm
  by_cases hv : v = base a
  · simp only [cellWrite, hv, if_true]
    exact ⟨keysFrom_erase m a hk, fun c hc => hall c (mem_cellErase hc)⟩
  · simp only [cellWrite, hv, if_false]
    refine ⟨keysFrom_insert m v (Nat.zero_le _) hk, fun c hc => ?_⟩
    rcases mem_cellInsert hc with rfl | hc
    · exact ⟨ha, by simpa using hv⟩
    · exact hall c hc

@[simp] theorem cellsWf_nil (base : Nat → Byte) (size : Nat) : cellsWf base size [] = true := rfl

end Sys2Proof.Machine
end

