-- ==== Sys2Proof/Laws/State.lean ====
section
/-! SUPPORT. One lemma per field per register update of Machine/Ops.lean, so that no proof unfolds a record update. -/

namespace Sys2Proof.Machine

/-! ## `withA` -/

@[simp] theorem State.withA_a (s : State) (v : Byte) : (s.withA v).a = v := rfl
@[simp] theorem State.withA_x (s : State) (v : Byte) : (s.withA v).x = s.x := rfl
@[simp] theorem State.withA_y (s : State) (v : Byte) : (s.withA v).y = s.y := rfl
@[simp] theorem State.withA_sp (s : State) (v : Byte) : (s.withA v).sp = s.sp := rfl
@[simp] theorem State.withA_pc (s : State) (v : Byte) : (s.withA v).pc = s.pc := rfl
@[simp] theorem State.withA_p (s : State) (v : Byte) : (s.withA v).p = s.p := rfl
@[simp] theorem State.withA_jammed (s : State) (v : Byte) : (s.withA v).jammed = s.jammed := rfl
@[simp] theorem State.withA_nmiPending (s : State) (v : Byte) : (s.withA v).nmiPending = s.nmiPending := rfl
@[simp] theorem State.withA_mode (s : State) (v : Byte) : (s.withA v).mode = s.mode := rfl
@[simp] theorem State.withA_mem (s : State) (v : Byte) : (s.withA v).mem = s.mem := rfl
@[simp] theorem State.withA_ram (s : State) (v : Byte) : (s.withA v).ram = s.ram := rfl
@[simp] theorem State.withA_rom (s : State) (v : Byte) : (s.withA v).rom = s.rom := rfl
@[simp] theorem State.withA_lastAddr (s : State) (v : Byte) : (s.withA v).lastAddr = s.lastAddr := rfl
@[simp] theorem State.withA_lastData (s : State) (v : Byte) : (s.withA v).lastData = s.lastData := rfl
@[simp] theorem State.withA_lastRw (s : State) (v : Byte) : (s.withA v).lastRw = s.lastRw := rfl
@[simp] theorem State.withA_image (s : State) (v : Byte) : (s.withA v).image = s.image := rfl
@[simp] theorem State.withA_loaded (s : State) (v : Byte) : (s.withA v).loaded = s.loaded := rfl
@[simp] theorem State.withA_video (s : State) (v : Byte) : (s.withA v).video = s.video := rfl
@[simp] theorem State.withA_totalCycles (s : State) (v : Byte) : (s.withA v).totalCycles = s.totalCycles := rfl
@[simp] theorem State.withA_budgetTarget (s : State) (v : Byte) : (s.withA v).budgetTarget = s.budgetTarget := rfl
@[simp] theorem State.withA_cfg (s : State) (v : Byte) : (s.withA v).cfg = s.cfg := rfl
@[simp] theorem State.withA_irqLine (s : State) (v : Byte) : (s.withA v).irqLine = s.irqLine := rfl
@[simp] theorem State.withA_cycles (s : State) (v : Byte) : (s.withA v).cycles = s.cycles := rfl
@[simp] theorem State.withA_draws (s : State) (v : Byte) : (s.withA v).draws = s.draws := rfl
@[simp] theorem State.withA_events (s : State) (v : Byte) : (s.withA v).events = s.events := rfl
@[simp] theorem State.withA_target (s : State) (v : Byte) (addr : Word) : (s.withA v).target addr = s.target addr := rfl
@[simp] theorem State.withA_peek (s : State) (v : Byte) (addr : Word) : (s.withA v).peek addr = s.peek addr := rfl
@[simp] theorem State.withA_wf (s : State) (v : Byte) : Memory.wf (s.withA v) = Memory.wf s := rfl

/-! ## `withX` -/

@[simp] theorem State.withX_a (s : State) (v : Byte) : (s.withX v).a = s.a := rfl
@[simp] theorem State.withX_x (s : State) (v : Byte) : (s.withX v).x = v := rfl
@[simp] theorem State.withX_y (s : State) (v : Byte) : (s.withX v).y = s.y := rfl
@[simp] theorem State.withX_sp (s : State) (v : Byte) : (s.withX v).sp = s.sp := rfl
@[simp] theorem State.withX_pc (s : State) (v : Byte) : (s.withX v).pc = s.pc := rfl
@[simp] theorem State.withX_p (s : State) (v : Byte) : (s.withX v).p = s.p := rfl
@[simp] theorem State.withX_jammed (s : State) (v : Byte) : (s.withX v).jammed = s.jammed := rfl
@[simp] theorem State.withX_nmiPending (s : State) (v : Byte) : (s.withX v).nmiPending = s.nmiPending := rfl
@[simp] theorem State.withX_mode (s : State) (v : Byte) : (s.withX v).mode = s.mode := rfl
@[simp] theorem State.withX_mem (s : State) (v : Byte) : (s.withX v).mem = s.mem := rfl
@[simp] theorem State.withX_ram (s : State) (v : Byte) : (s.withX v).ram = s.ram := rfl
@[simp] theorem State.withX_rom (s : State) (v : Byte) : (s.withX v).rom = s.rom := rfl
@[simp] theorem State.withX_lastAddr (s : State) (v : Byte) : (s.withX v).lastAddr = s.lastAddr := rfl
@[simp] theorem State.withX_lastData (s : State) (v : Byte) : (s.withX v).lastData = s.lastData := rfl
@[simp] theorem State.withX_lastRw (s : State) (v : Byte) : (s.withX v).lastRw = s.lastRw := rfl
@[simp] theorem State.withX_image (s : State) (v : Byte) : (s.withX v).image = s.image := rfl
@[simp] theorem State.withX_loaded (s : State) (v : Byte) : (s.withX v).loaded = s.loaded := rfl
@[simp] theorem State.withX_video (s : State) (v : Byte) : (s.withX v).video = s.video := rfl
@[simp] theorem State.withX_totalCycles (s : State) (v : Byte) : (s.withX v).totalCycles = s.totalCycles := rfl
@[simp] theorem State.withX_budgetTarget (s : State) (v : Byte) : (s.withX v).budgetTarget = s.budgetTarget := rfl
@[simp] theorem State.withX_cfg (s : State) (v : Byte) : (s.withX v).cfg = s.cfg := rfl
@[simp] theorem State.withX_irqLine (s : State) (v : Byte) : (s.withX v).irqLine = s.irqLine := rfl
@[simp] theorem State.withX_cycles (s : State) (v : Byte) : (s.withX v).cycles = s.cycles := rfl
@[simp] theorem State.withX_draws (s : State) (v : Byte) : (s.withX v).draws = s.draws := rfl
@[simp] theorem State.withX_events (s : State) (v : Byte) : (s.withX v).events = s.events := rfl
@[simp] theorem State.withX_target (s : State) (v : Byte) (addr : Word) : (s.withX v).target addr = s.target addr := rfl
@[simp] theorem State.withX_peek (s : State) (v : Byte) (addr : Word) : (s.withX v).peek addr = s.peek addr := rfl
@[simp] theorem State.withX_wf (s : State) (v : Byte) : Memory.wf (s.withX v) = Memory.wf s := rfl

/-! ## `withY` -/

@[simp] theorem State.withY_a (s : State) (v : Byte) : (s.withY v).a = s.a := rfl
@[simp] theorem State.withY_x (s : State) (v : Byte) : (s.withY v).x = s.x := rfl
@[simp] theorem State.withY_y (s : State) (v : Byte) : (s.withY v).y = v := rfl
@[simp] theorem State.withY_sp (s : State) (v : Byte) : (s.withY v).sp = s.sp := rfl
@[simp] theorem State.withY_pc (s : State) (v : Byte) : (s.withY v).pc = s.pc := rfl
@[simp] theorem State.withY_p (s : State) (v : Byte) : (s.withY v).p = s.p := rfl
@[simp] theorem State.withY_jammed (s : State) (v : Byte) : (s.withY v).jammed = s.jammed := rfl
@[simp] theorem State.withY_nmiPending (s : State) (v : Byte) : (s.withY v).nmiPending = s.nmiPending := rfl
@[simp] theorem State.withY_mode (s : State) (v : Byte) : (s.withY v).mode = s.mode := rfl
@[simp] theorem State.withY_mem (s : State) (v : Byte) : (s.withY v).mem = s.mem := rfl
@[simp] theorem State.withY_ram (s : State) (v : Byte) : (s.withY v).ram = s.ram := rfl
@[simp] theorem State.withY_rom (s : State) (v : Byte) : (s.withY v).rom = s.rom := rfl
@[simp] theorem State.withY_lastAddr (s : State) (v : Byte) : (s.withY v).lastAddr = s.lastAddr := rfl
@[simp] theorem State.withY_lastData (s : State) (v : Byte) : (s.withY v).lastData = s.lastData := rfl
@[simp] theorem State.withY_lastRw (s : State) (v : Byte) : (s.withY v).lastRw = s.lastRw := rfl
@[simp] theorem State.withY_image (s : State) (v : Byte) : (s.withY v).image = s.image := rfl
@[simp] theorem State.withY_loaded (s : State) (v : Byte) : (s.withY v).loaded = s.loaded := rfl
@[simp] theorem State.withY_video (s : State) (v : Byte) : (s.withY v).video = s.video := rfl
@[simp] theorem State.withY_totalCycles (s : State) (v : Byte) : (s.withY v).totalCycles = s.totalCycles := rfl
@[simp] theorem State.withY_budgetTarget (s : State) (v : Byte) : (s.withY v).budgetTarget = s.budgetTarget := rfl
@[simp] theorem State.withY_cfg (s : State) (v : Byte) : (s.withY v).cfg = s.cfg := rfl
@[simp] theorem State.withY_irqLine (s : State) (v : Byte) : (s.withY v).irqLine = s.irqLine := rfl
@[simp] theorem State.withY_cycles (s : State) (v : Byte) : (s.withY v).cycles = s.cycles := rfl
@[simp] theorem State.withY_draws (s : State) (v : Byte) : (s.withY v).draws = s.draws := rfl
@[simp] theorem State.withY_events (s : State) (v : Byte) : (s.withY v).events = s.events := rfl
@[simp] theorem State.withY_target (s : State) (v : Byte) (addr : Word) : (s.withY v).target addr = s.target addr := rfl
@[simp] theorem State.withY_peek (s : State) (v : Byte) (addr : Word) : (s.withY v).peek addr = s.peek addr := rfl
@[simp] theorem State.withY_wf (s : State) (v : Byte) : Memory.wf (s.withY v) = Memory.wf s := rfl

/-! ## `withSp` -/

@[simp] theorem State.withSp_a (s : State) (v : Byte) : (s.withSp v).a = s.a := rfl
@[simp] theorem State.withSp_x (s : State) (v : Byte) : (s.withSp v).x = s.x := rfl
@[simp] theorem State.withSp_y (s : State) (v : Byte) : (s.withSp v).y = s.y := rfl
@[simp] theorem State.withSp_sp (s : State) (v : Byte) : (s.withSp v).sp = v := rfl
@[simp] theorem State.withSp_pc (s : State) (v : Byte) : (s.withSp v).pc = s.pc := rfl
@[simp] theorem State.withSp_p (s : State) (v : Byte) : (s.withSp v).p = s.p := rfl
@[simp] theorem State.withSp_jammed (s : State) (v : Byte) : (s.withSp v).jammed = s.jammed := rfl
@[simp] theorem State.withSp_nmiPending (s : State) (v : Byte) : (s.withSp v).nmiPending = s.nmiPending := rfl
@[simp] theorem State.withSp_mode (s : State) (v : Byte) : (s.withSp v).mode = s.mode := rfl
@[simp] theorem State.withSp_mem (s : State) (v : Byte) : (s.withSp v).mem = s.mem := rfl
@[simp] theorem State.withSp_ram (s : State) (v : Byte) : (s.withSp v).ram = s.ram := rfl
@[simp] theorem State.withSp_rom (s : State) (v : Byte) : (s.withSp v).rom = s.rom := rfl
@[simp] theorem State.withSp_lastAddr (s : State) (v : Byte) : (s.withSp v).lastAddr = s.lastAddr := rfl
@[simp] theorem State.withSp_lastData (s : State) (v : Byte) : (s.withSp v).lastData = s.lastData := rfl
@[simp] theorem State.withSp_lastRw (s : State) (v : Byte) : (s.withSp v).lastRw = s.lastRw := rfl
@[simp] theorem State.withSp_image (s : State) (v : Byte) : (s.withSp v).image = s.image := rfl
@[simp] theorem State.withSp_loaded (s : State) (v : Byte) : (s.withSp v).loaded = s.loaded := rfl
@[simp] theorem State.withSp_video (s : State) (v : Byte) : (s.withSp v).video = s.video := rfl
@[simp] theorem State.withSp_totalCycles (s : State) (v : Byte) : (s.withSp v).totalCycles = s.totalCycles := rfl
@[simp] theorem State.withSp_budgetTarget (s : State) (v : Byte) : (s.withSp v).budgetTarget = s.budgetTarget := rfl
@[simp] theorem State.withSp_cfg (s : State) (v : Byte) : (s.withSp v).cfg = s.cfg := rfl
@[simp] theorem State.withSp_irqLine (s : State) (v : Byte) : (s.withSp v).irqLine = s.irqLine := rfl
@[simp] theorem State.withSp_cycles (s : State) (v : Byte) : (s.withSp v).cycles = s.cycles := rfl
@[simp] theorem State.withSp_draws (s : State) (v : Byte) : (s.withSp v).draws = s.draws := rfl
@[simp] theorem State.withSp_events (s : State) (v : Byte) : (s.withSp v).events = s.events := rfl
@[simp] theorem State.withSp_target (s : State) (v : Byte) (addr : Word) : (s.withSp v).target addr = s.target addr := rfl
@[simp] theorem State.withSp_peek (s : State) (v : Byte) (addr : Word) : (s.withSp v).peek addr = s.peek addr := rfl
@[simp] theorem State.withSp_wf (s : State) (v : Byte) : Memory.wf (s.withSp v) = Memory.wf s := rfl

/-! ## `withPc` -/

@[simp] theorem State.withPc_a (s : State) (v : Word) : (s.withPc v).a = s.a := rfl
@[simp] theorem State.withPc_x (s : State) (v : Word) : (s.withPc v).x = s.x := rfl
@[simp] theorem State.withPc_y (s : State) (v : Word) : (s.withPc v).y = s.y := rfl
@[simp] theorem State.withPc_sp (s : State) (v : Word) : (s.withPc v).sp = s.sp := rfl
@[simp] theorem State.withPc_pc (s : State) (v : Word) : (s.withPc v).pc = v := rfl
@[simp] theorem State.withPc_p (s : State) (v : Word) : (s.withPc v).p = s.p := rfl
@[simp] theorem State.withPc_jammed (s : State) (v : Word) : (s.withPc v).jammed = s.jammed := rfl
@[simp] theorem State.withPc_nmiPending (s : State) (v : Word) : (s.withPc v).nmiPending = s.nmiPending := rfl
@[simp] theorem State.withPc_mode (s : State) (v : Word) : (s.withPc v).mode = s.mode := rfl
@[simp] theorem State.withPc_mem (s : State) (v : Word) : (s.withPc v).mem = s.mem := rfl
@[simp] theorem State.withPc_ram (s : State) (v : Word) : (s.withPc v).ram = s.ram := rfl
@[simp] theorem State.withPc_rom (s : State) (v : Word) : (s.withPc v).rom = s.rom := rfl
@[simp] theorem State.withPc_lastAddr (s : State) (v : Word) : (s.withPc v).lastAddr = s.lastAddr := rfl
@[simp] theorem State.withPc_lastData (s : State) (v : Word) : (s.withPc v).lastData = s.lastData := rfl
@[simp] theorem State.withPc_lastRw (s : State) (v : Word) : (s.withPc v).lastRw = s.lastRw := rfl
@[simp] theorem State.withPc_image (s : State) (v : Word) : (s.withPc v).image = s.image := rfl
@[simp] theorem State.withPc_loaded (s : State) (v : Word) : (s.withPc v).loaded = s.loaded := rfl
@[simp] theorem State.withPc_video (s : State) (v : Word) : (s.withPc v).video = s.video := rfl
@[simp] theorem State.withPc_totalCycles (s : State) (v : Word) : (s.withPc v).totalCycles = s.totalCycles := rfl
@[simp] theorem State.withPc_budgetTarget (s : State) (v : Word) : (s.withPc v).budgetTarget = s.budgetTarget := rfl
@[simp] theorem State.withPc_cfg (s : State) (v : Word) : (s.withPc v).cfg = s.cfg := rfl
@[simp] theorem State.withPc_irqLine (s : State) (v : Word) : (s.withPc v).irqLine = s.irqLine := rfl
@[simp] theorem State.withPc_cycles (s : State) (v : Word) : (s.withPc v).cycles = s.cycles := rfl
@[simp] theorem State.withPc_draws (s : State) (v : Word) : (s.withPc v).draws = s.draws := rfl
@[simp] theorem State.withPc_events (s : State) (v : Word) : (s.withPc v).events = s.events := rfl
@[simp] theorem State.withPc_target (s : State) (v : Word) (addr : Word) : (s.withPc v).target addr = s.target addr := rfl
@[simp] theorem State.withPc_peek (s : State) (v : Word) (addr : Word) : (s.withPc v).peek addr = s.peek addr := rfl
@[simp] theorem State.withPc_wf (s : State) (v : Word) : Memory.wf (s.withPc v) = Memory.wf s := rfl

/-! ## `withP` -/

@[simp] theorem State.withP_a (s : State) (v : Flags) : (s.withP v).a = s.a := rfl
@[simp] theorem State.withP_x (s : State) (v : Flags) : (s.withP v).x = s.x := rfl
@[simp] theorem State.withP_y (s : State) (v : Flags) : (s.withP v).y = s.y := rfl
@[simp] theorem State.withP_sp (s : State) (v : Flags) : (s.withP v).sp = s.sp := rfl
@[simp] theorem State.withP_pc (s : State) (v : Flags) : (s.withP v).pc = s.pc := rfl
@[simp] theorem State.withP_p (s : State) (v : Flags) : (s.withP v).p = v := rfl
@[simp] theorem State.withP_jammed (s : State) (v : Flags) : (s.withP v).jammed = s.jammed := rfl
@[simp] theorem State.withP_nmiPending (s : State) (v : Flags) : (s.withP v).nmiPending = s.nmiPending := rfl
@[simp] theorem State.withP_mode (s : State) (v : Flags) : (s.withP v).mode = s.mode := rfl
@[simp] theorem State.withP_mem (s : State) (v : Flags) : (s.withP v).mem = s.mem := rfl
@[simp] theorem State.withP_ram (s : State) (v : Flags) : (s.withP v).ram = s.ram := rfl
@[simp] theorem State.withP_rom (s : State) (v : Flags) : (s.withP v).rom = s.rom := rfl
@[simp] theorem State.withP_lastAddr (s : State) (v : Flags) : (s.withP v).lastAddr = s.lastAddr := rfl
@[simp] theorem State.withP_lastData (s : State) (v : Flags) : (s.withP v).lastData = s.lastData := rfl
@[simp] theorem State.withP_lastRw (s : State) (v : Flags) : (s.withP v).lastRw = s.lastRw := rfl
@[simp] theorem State.withP_image (s : State) (v : Flags) : (s.withP v).image = s.image := rfl
@[simp] theorem State.withP_loaded (s : State) (v : Flags) : (s.withP v).loaded = s.loaded := rfl
@[simp] theorem State.withP_video (s : State) (v : Flags) : (s.withP v).video = s.video := rfl
@[simp] theorem State.withP_totalCycles (s : State) (v : Flags) : (s.withP v).totalCycles = s.totalCycles := rfl
@[simp] theorem State.withP_budgetTarget (s : State) (v : Flags) : (s.withP v).budgetTarget = s.budgetTarget := rfl
@[simp] theorem State.withP_cfg (s : State) (v : Flags) : (s.withP v).cfg = s.cfg := rfl
@[simp] theorem State.withP_irqLine (s : State) (v : Flags) : (s.withP v).irqLine = s.irqLine := rfl
@[simp] theorem State.withP_cycles (s : State) (v : Flags) : (s.withP v).cycles = s.cycles := rfl
@[simp] theorem State.withP_draws (s : State) (v : Flags) : (s.withP v).draws = s.draws := rfl
@[simp] theorem State.withP_events (s : State) (v : Flags) : (s.withP v).events = s.events := rfl
@[simp] theorem State.withP_target (s : State) (v : Flags) (addr : Word) : (s.withP v).target addr = s.target addr := rfl
@[simp] theorem State.withP_peek (s : State) (v : Flags) (addr : Word) : (s.withP v).peek addr = s.peek addr := rfl
@[simp] theorem State.withP_wf (s : State) (v : Flags) : Memory.wf (s.withP v) = Memory.wf s := rfl

/-! ## `withCycles` -/

@[simp] theorem State.withCycles_a (s : State) (n : Nat) : (s.withCycles n).a = s.a := rfl
@[simp] theorem State.withCycles_x (s : State) (n : Nat) : (s.withCycles n).x = s.x := rfl
@[simp] theorem State.withCycles_y (s : State) (n : Nat) : (s.withCycles n).y = s.y := rfl
@[simp] theorem State.withCycles_sp (s : State) (n : Nat) : (s.withCycles n).sp = s.sp := rfl
@[simp] theorem State.withCycles_pc (s : State) (n : Nat) : (s.withCycles n).pc = s.pc := rfl
@[simp] theorem State.withCycles_p (s : State) (n : Nat) : (s.withCycles n).p = s.p := rfl
@[simp] theorem State.withCycles_jammed (s : State) (n : Nat) : (s.withCycles n).jammed = s.jammed := rfl
@[simp] theorem State.withCycles_nmiPending (s : State) (n : Nat) : (s.withCycles n).nmiPending = s.nmiPending := rfl
@[simp] theorem State.withCycles_mode (s : State) (n : Nat) : (s.withCycles n).mode = s.mode := rfl
@[simp] theorem State.withCycles_mem (s : State) (n : Nat) : (s.withCycles n).mem = s.mem := rfl
@[simp] theorem State.withCycles_ram (s : State) (n : Nat) : (s.withCycles n).ram = s.ram := rfl
@[simp] theorem State.withCycles_rom (s : State) (n : Nat) : (s.withCycles n).rom = s.rom := rfl
@[simp] theorem State.withCycles_lastAddr (s : State) (n : Nat) : (s.withCycles n).lastAddr = s.lastAddr := rfl
@[simp] theorem State.withCycles_lastData (s : State) (n : Nat) : (s.withCycles n).lastData = s.lastData := rfl
@[simp] theorem State.withCycles_lastRw (s : State) (n : Nat) : (s.withCycles n).lastRw = s.lastRw := rfl
@[simp] theorem State.withCycles_image (s : State) (n : Nat) : (s.withCycles n).image = s.image := rfl
@[simp] theorem State.withCycles_loaded (s : State) (n : Nat) : (s.withCycles n).loaded = s.loaded := rfl
@[simp] theorem State.withCycles_video (s : State) (n : Nat) : (s.withCycles n).video = s.video := rfl
@[simp] theorem State.withCycles_totalCycles (s : State) (n : Nat) : (s.withCycles n).totalCycles = s.totalCycles := rfl
@[simp] theorem State.withCycles_budgetTarget (s : State) (n : Nat) : (s.withCycles n).budgetTarget = s.budgetTarget := rfl
@[simp] theorem State.withCycles_cfg (s : State) (n : Nat) : (s.withCycles n).cfg = s.cfg := rfl
@[simp] theorem State.withCycles_irqLine (s : State) (n : Nat) : (s.withCycles n).irqLine = s.irqLine := rfl
@[simp] theorem State.withCycles_cycles (s : State) (n : Nat) : (s.withCycles n).cycles = n := rfl
@[simp] theorem State.withCycles_draws (s : State) (n : Nat) : (s.withCycles n).draws = s.draws := rfl
@[simp] theorem State.withCycles_events (s : State) (n : Nat) : (s.withCycles n).events = s.events := rfl
@[simp] theorem State.withCycles_target (s : State) (n : Nat) (addr : Word) : (s.withCycles n).target addr = s.target addr := rfl
@[simp] theorem State.withCycles_peek (s : State) (n : Nat) (addr : Word) : (s.withCycles n).peek addr = s.peek addr := rfl
@[simp] theorem State.withCycles_wf (s : State) (n : Nat) : Memory.wf (s.withCycles n) = Memory.wf s := rfl

end Sys2Proof.Machine
end

