-- ==== Sys2Proof/Laws/Bus.lean ====
section
/-! SUPPORT. What one bus read and one bus write can do, field by field and byte by byte. -/

namespace Sys2Proof.Machine

/-! ## Decode -/

/-- Every offset function on the 16-bit addresses is one a range can have. -/
theorem offsetOf_table (f : Nat → Nat) {a : Nat} (h : a < 65536) :
    offsetOf (.table 0 ((List.range 65536).map f)) a = f a := by
  simp [offsetOf, h]

/-- A peripheral range passes its own offset function of the address. -/
@[simp] theorem mapTarget_periph (p : Periph) (rule : OffsetRule) (a : Nat) :
    mapTarget (.periph p rule) a = .peripheral p (offsetOf rule a) := rfl

/-! ## Reads -/

@[simp] theorem busRead_a (addr : Word) (s : State) : (busRead addr s).2.a = s.a := rfl
@[simp] theorem busRead_x (addr : Word) (s : State) : (busRead addr s).2.x = s.x := rfl
@[simp] theorem busRead_y (addr : Word) (s : State) : (busRead addr s).2.y = s.y := rfl
@[simp] theorem busRead_sp (addr : Word) (s : State) : (busRead addr s).2.sp = s.sp := rfl
@[simp] theorem busRead_pc (addr : Word) (s : State) : (busRead addr s).2.pc = s.pc := rfl
@[simp] theorem busRead_p (addr : Word) (s : State) : (busRead addr s).2.p = s.p := rfl
@[simp] theorem busRead_jammed (addr : Word) (s : State) : (busRead addr s).2.jammed = s.jammed := rfl
@[simp] theorem busRead_nmiPending (addr : Word) (s : State) : (busRead addr s).2.nmiPending = s.nmiPending := rfl
@[simp] theorem busRead_mode (addr : Word) (s : State) : (busRead addr s).2.mode = s.mode := rfl
@[simp] theorem busRead_mem (addr : Word) (s : State) : (busRead addr s).2.mem = s.mem := rfl
@[simp] theorem busRead_ram (addr : Word) (s : State) : (busRead addr s).2.ram = s.ram := rfl
@[simp] theorem busRead_rom (addr : Word) (s : State) : (busRead addr s).2.rom = s.rom := rfl
@[simp] theorem busRead_image (addr : Word) (s : State) : (busRead addr s).2.image = s.image := rfl
@[simp] theorem busRead_loaded (addr : Word) (s : State) : (busRead addr s).2.loaded = s.loaded := rfl
@[simp] theorem busRead_video (addr : Word) (s : State) : (busRead addr s).2.video = s.video := rfl
@[simp] theorem busRead_totalCycles (addr : Word) (s : State) : (busRead addr s).2.totalCycles = s.totalCycles := rfl
@[simp] theorem busRead_budgetTarget (addr : Word) (s : State) : (busRead addr s).2.budgetTarget = s.budgetTarget := rfl
@[simp] theorem busRead_cfg (addr : Word) (s : State) : (busRead addr s).2.cfg = s.cfg := rfl
@[simp] theorem busRead_irqLine (addr : Word) (s : State) : (busRead addr s).2.irqLine = s.irqLine := rfl
@[simp] theorem busRead_cycles (addr : Word) (s : State) : (busRead addr s).2.cycles = s.cycles := rfl
@[simp] theorem busRead_events (addr : Word) (s : State) : (busRead addr s).2.events = s.events := rfl
@[simp] theorem busRead_lastAddr (addr : Word) (s : State) : (busRead addr s).2.lastAddr = addr := rfl
@[simp] theorem busRead_lastData (addr : Word) (s : State) : (busRead addr s).2.lastData = (busRead addr s).1 := rfl
@[simp] theorem busRead_lastRw (addr : Word) (s : State) : (busRead addr s).2.lastRw = .read := rfl
@[simp] theorem busRead_target (addr b : Word) (s : State) : (busRead addr s).2.target b = s.target b := rfl
@[simp] theorem busRead_peek (addr b : Word) (s : State) : (busRead addr s).2.peek b = s.peek b := rfl
@[simp] theorem busRead_writable (addr b : Word) (s : State) : (busRead addr s).2.writable b = s.writable b := rfl
@[simp] theorem busRead_wf (addr : Word) (s : State) : Memory.wf (busRead addr s).2 = Memory.wf s := rfl

/-- A read behind which plain memory stands returns that byte and draws nothing. -/
theorem busRead_of_peek {addr : Word} {s : State} {v : Byte} (h : s.peek addr = some v) :
    busRead addr s = (v, { s with lastAddr := addr, lastData := v, lastRw := .read }) := by
  unfold State.peek at h
  unfold busRead
  cases ht : s.target addr <;> simp [ht] at h <;> simp [targetRead, h]

/-! ## Targets -/

/-- A plain memory cell is numbered by its address, in the modes that have it. -/
theorem target_memory {s : State} {addr : Word} {i : Nat} {w : Bool} (h : s.target addr = .memory i w) :
    i = addr.toNat := by
  unfold State.target busTarget at h
  cases hm : s.mode <;> simp only [hm] at h
  · unfold breadboardTarget at h
    split at h
    · rename_i r _
      cases ht : r.target <;> simp [mapTarget, ht] at h <;> exact h.1.symm
    · simp at h; exact h.1.symm
  · simp at h; exact h.1.symm
  · unfold consoleTarget at h
    dsimp only at h
    split at h
    · cases h
    · split at h
      · cases h
      · split at h <;> cases h

/-- No cell is reached both as writable and as read-only memory. -/
theorem target_memory_writable {s : State} {a b : Word} {i : Nat} {w w' : Bool} (ha : s.target a = .memory i w)
    (hb : s.target b = .memory i w') : w = w' := by
  have hi : a = b := BitVec.eq_of_toNat_eq ((target_memory ha).symm.trans (target_memory hb))
  subst hi
  rw [ha] at hb
  cases hb
  rfl

theorem consoleTarget_not_memory (addr : Word) (i : Nat) (w : Bool) : consoleTarget addr ≠ .memory i w := by
  unfold consoleTarget
  dsimp only
  split
  · simp
  · split
    · simp
    · split <;> simp

/-- The cells of a target lie inside their array. -/
theorem target_consoleRam {s : State} {addr : Word} {i : Nat} (h : s.target addr = .consoleRam i) : i < 128 := by
  unfold State.target busTarget at h
  cases hm : s.mode <;> simp only [hm] at h
  · unfold breadboardTarget at h
    split at h
    · rename_i r _
      cases ht : r.target <;> simp [mapTarget, ht] at h
    · cases h
  · cases h
  · unfold consoleTarget at h
    dsimp only at h
    split at h
    · cases h
    · split at h
      · cases h
      · split at h
        · cases h
          rw [BitVec.toNat_and]
          exact Nat.lt_of_le_of_lt Nat.and_le_right (by decide)
        · cases h

theorem target_cartridge {s : State} {addr : Word} {i : Nat} (h : s.target addr = .cartridge i) : i < 4096 := by
  unfold State.target busTarget at h
  cases hm : s.mode <;> simp only [hm] at h
  · unfold breadboardTarget at h
    split at h
    · rename_i r _
      cases ht : r.target <;> simp [mapTarget, ht] at h
    · cases h
  · cases h
  · unfold consoleTarget at h
    dsimp only at h
    split at h
    · cases h
      rw [BitVec.toNat_and]
      exact Nat.lt_of_le_of_lt Nat.and_le_right (by decide)
    · split at h
      · cases h
      · split at h <;> cases h

/-! ## Writes -/

@[simp] theorem busWrite_a (k : Nat) (addr : Word) (v : Byte) (s : State) : (busWrite k addr v s).a = s.a := by
  unfold busWrite; cases s.target addr <;> simp only [targetWrite]
  split <;> rfl
@[simp] theorem busWrite_x (k : Nat) (addr : Word) (v : Byte) (s : State) : (busWrite k addr v s).x = s.x := by
  unfold busWrite; cases s.target addr <;> simp only [targetWrite]
  split <;> rfl
@[simp] theorem busWrite_y (k : Nat) (addr : Word) (v : Byte) (s : State) : (busWrite k addr v s).y = s.y := by
  unfold busWrite; cases s.target addr <;> simp only [targetWrite]
  split <;> rfl
@[simp] theorem busWrite_sp (k : Nat) (addr : Word) (v : Byte) (s : State) : (busWrite k addr v s).sp = s.sp := by
  unfold busWrite; cases s.target addr <;> simp only [targetWrite]
  split <;> rfl
@[simp] theorem busWrite_pc (k : Nat) (addr : Word) (v : Byte) (s : State) : (busWrite k addr v s).pc = s.pc := by
  unfold busWrite; cases s.target addr <;> simp only [targetWrite]
  split <;> rfl
@[simp] theorem busWrite_p (k : Nat) (addr : Word) (v : Byte) (s : State) : (busWrite k addr v s).p = s.p := by
  unfold busWrite; cases s.target addr <;> simp only [targetWrite]
  split <;> rfl
@[simp] theorem busWrite_jammed (k : Nat) (addr : Word) (v : Byte) (s : State) : (busWrite k addr v s).jammed = s.jammed := by
  unfold busWrite; cases s.target addr <;> simp only [targetWrite]
  split <;> rfl
@[simp] theorem busWrite_nmiPending (k : Nat) (addr : Word) (v : Byte) (s : State) : (busWrite k addr v s).nmiPending = s.nmiPending := by
  unfold busWrite; cases s.target addr <;> simp only [targetWrite]
  split <;> rfl
@[simp] theorem busWrite_mode (k : Nat) (addr : Word) (v : Byte) (s : State) : (busWrite k addr v s).mode = s.mode := by
  unfold busWrite; cases s.target addr <;> simp only [targetWrite]
  split <;> rfl
@[simp] theorem busWrite_rom (k : Nat) (addr : Word) (v : Byte) (s : State) : (busWrite k addr v s).rom = s.rom := by
  unfold busWrite; cases s.target addr <;> simp only [targetWrite]
  split <;> rfl
@[simp] theorem busWrite_image (k : Nat) (addr : Word) (v : Byte) (s : State) : (busWrite k addr v s).image = s.image := by
  unfold busWrite; cases s.target addr <;> simp only [targetWrite]
  split <;> rfl
@[simp] theorem busWrite_loaded (k : Nat) (addr : Word) (v : Byte) (s : State) : (busWrite k addr v s).loaded = s.loaded := by
  unfold busWrite; cases s.target addr <;> simp only [targetWrite]
  split <;> rfl
@[simp] theorem busWrite_totalCycles (k : Nat) (addr : Word) (v : Byte) (s : State) : (busWrite k addr v s).totalCycles = s.totalCycles := by
  unfold busWrite; cases s.target addr <;> simp only [targetWrite]
  split <;> rfl
@[simp] theorem busWrite_budgetTarget (k : Nat) (addr : Word) (v : Byte) (s : State) : (busWrite k addr v s).budgetTarget = s.budgetTarget := by
  unfold busWrite; cases s.target addr <;> simp only [targetWrite]
  split <;> rfl
@[simp] theorem busWrite_cfg (k : Nat) (addr : Word) (v : Byte) (s : State) : (busWrite k addr v s).cfg = s.cfg := by
  unfold busWrite; cases s.target addr <;> simp only [targetWrite]
  split <;> rfl
@[simp] theorem busWrite_irqLine (k : Nat) (addr : Word) (v : Byte) (s : State) : (busWrite k addr v s).irqLine = s.irqLine := by
  unfold busWrite; cases s.target addr <;> simp only [targetWrite]
  split <;> rfl
@[simp] theorem busWrite_cycles (k : Nat) (addr : Word) (v : Byte) (s : State) : (busWrite k addr v s).cycles = s.cycles := by
  unfold busWrite; cases s.target addr <;> simp only [targetWrite]
  split <;> rfl
@[simp] theorem busWrite_draws (k : Nat) (addr : Word) (v : Byte) (s : State) : (busWrite k addr v s).draws = s.draws := by
  unfold busWrite; cases s.target addr <;> simp only [targetWrite]
  split <;> rfl
@[simp] theorem busWrite_lastAddr (k : Nat) (addr : Word) (v : Byte) (s : State) :
    (busWrite k addr v s).lastAddr = addr := rfl
@[simp] theorem busWrite_lastData (k : Nat) (addr : Word) (v : Byte) (s : State) :
    (busWrite k addr v s).lastData = v := rfl
@[simp] theorem busWrite_lastRw (k : Nat) (addr : Word) (v : Byte) (s : State) :
    (busWrite k addr v s).lastRw = .write := rfl

@[simp] theorem busWrite_target (k : Nat) (addr b : Word) (v : Byte) (s : State) :
    (busWrite k addr v s).target b = s.target b := by
  simp [State.target]

@[simp] theorem busWrite_writable (k : Nat) (addr b : Word) (v : Byte) (s : State) :
    (busWrite k addr v s).writable b = s.writable b := by
  simp [State.writable]

theorem busWrite_video (k : Nat) (addr : Word) (v : Byte) (s : State) :
    (busWrite k addr v s).video = videoAfterStore k addr v s := by
  unfold busWrite videoAfterStore
  cases s.target addr <;> simp only [targetWrite]
  split <;> rfl

theorem busWrite_events (k : Nat) (addr : Word) (v : Byte) (s : State) :
    (busWrite k addr v s).events = eventsAfterStore addr v s := by
  unfold busWrite eventsAfterStore
  cases s.target addr <;> simp only [targetWrite]
  split <;> rfl

/-- Read after write: a byte behind the written cell is the written byte where the cell is RAM, and every other byte is
what it was. -/
theorem busWrite_peek (k : Nat) (addr b : Word) (v : Byte) (s : State) :
    (busWrite k addr v s).peek b
      = if s.writable addr = true ∧ s.target b = s.target addr then some v else s.peek b := by
  unfold State.peek
  rw [busWrite_target]
  unfold State.writable
  cases ha : s.target addr with
  | memory i w =>
    cases w with
    | false =>
      have : busWrite k addr v s = { s with lastAddr := addr, lastData := v, lastRw := .write } := by
        simp [busWrite, ha, targetWrite]
      rw [this]
      cases s.target b <;> simp [State.memByte, State.romByte, State.ramByte]
    | true =>
      have : busWrite k addr v s = { s with
          mem := cellWrite (memBase s.mode s.loaded) s.mem i v, lastAddr := addr, lastData := v, lastRw := .write } := by
        simp [busWrite, ha, targetWrite]
      rw [this]
      cases hb : s.target b with
      | memory j w' =>
        by_cases hij : j = i
        · subst hij
          have := target_memory_writable ha hb
          subst this
          simp [State.memByte]
        · simp [State.memByte, hij, cellRead_write_other _ _ _ hij]
      | cartridge j => simp [State.romByte]
      | consoleRam j => simp [State.ramByte]
      | video a => simp
      | peripheral p o => simp
  | cartridge i =>
    have : busWrite k addr v s = { s with lastAddr := addr, lastData := v, lastRw := .write } := by
      simp [busWrite, ha, targetWrite]
    rw [this]
    cases s.target b <;> simp [State.memByte, State.romByte, State.ramByte]
  | consoleRam i =>
    have : busWrite k addr v s = { s with
          ram := cellWrite zeroBase s.ram i v, lastAddr := addr, lastData := v, lastRw := .write } := by
      simp [busWrite, ha, targetWrite]
    rw [this]
    cases hb : s.target b with
    | consoleRam j =>
      by_cases hij : j = i
      · subst hij
        simp [State.ramByte]
      · simp [State.ramByte, hij, cellRead_write_other _ _ _ hij]
    | memory j w => simp [State.memByte]
    | cartridge j => simp [State.romByte]
    | video a => simp
    | peripheral p o => simp
  | video a =>
    have : busWrite k addr v s = { s with
          video := schedule s.video (writeRegOf a) v (writeDelay s.cfg k), lastAddr := addr, lastData := v, lastRw := .write } := by
      simp [busWrite, ha, targetWrite]
    rw [this]
    cases s.target b <;> simp [State.memByte, State.romByte, State.ramByte]
  | peripheral p o =>
    have : busWrite k addr v s = { s with
          events := .write p o v :: s.events, lastAddr := addr, lastData := v, lastRw := .write } := by
      simp [busWrite, ha, targetWrite]
    rw [this]
    cases s.target b <;> simp [State.memByte, State.romByte, State.ramByte]

/-- One bus write is one store. -/
theorem busWrite_oneStore (k : Nat) (addr : Word) (v : Byte) (s : State) : OneStore k addr v s (busWrite k addr v s) where
  here h := by
    simp [busWrite_peek, h]
  elsewhere b h := by simp [busWrite_peek, h]
  readOnly h b := by simp [busWrite_peek, h]
  video := busWrite_video k addr v s
  events := busWrite_events k addr v s
  lastAddr := rfl
  lastData := rfl
  lastRw := rfl

/-! ## The canonical form of memory -/

theorem busWrite_keeps_wf (k : Nat) (addr : Word) (v : Byte) {s : State} (h : Memory.wf s = true) :
    Memory.wf (busWrite k addr v s) = true := by
  unfold busWrite
  cases ht : s.target addr with
  | memory i w =>
    simp only [Memory.wf, Bool.and_eq_true] at h
    cases w with
    | false => simp [targetWrite, Memory.wf, h]
    | true =>
      have hi : i < 65536 := by
        rw [target_memory ht]
        exact addr.isLt
      simp [targetWrite, Memory.wf, h, cellsWf_write v hi h.1.1]
  | cartridge i => simpa [targetWrite, Memory.wf] using h
  | consoleRam i =>
    simp only [Memory.wf, Bool.and_eq_true] at h
    simp [targetWrite, Memory.wf, h, cellsWf_write v (target_consoleRam ht) h.1.2]
  | video a => simpa [targetWrite, Memory.wf] using h
  | peripheral p o => simpa [targetWrite, Memory.wf] using h

end Sys2Proof.Machine
end

