-- ==== Sys2Proof/Laws/Decode.lean ====
section
/-! SUPPORT. The byte-order helpers of Decode.lean, the size of the opcode map, and what decoding does with a layout. -/

namespace Sys2Proof

/-! ## Words and their bytes -/

theorem wordOf_getLsbD (lo hi : Byte) (i : Nat) :
    (wordOf lo hi).getLsbD i = if i < 8 then lo.getLsbD i else hi.getLsbD (i - 8) :=
  BitVec.getLsbD_append

@[simp] theorem loByte_wordOf (lo hi : Byte) : loByte (wordOf lo hi) = lo := by
  apply BitVec.eq_of_getLsbD_eq
  intro i h
  simp [loByte, wordOf_getLsbD, h]

@[simp] theorem hiByte_wordOf (lo hi : Byte) : hiByte (wordOf lo hi) = hi := by
  apply BitVec.eq_of_getLsbD_eq
  intro i h
  simp [hiByte, wordOf_getLsbD, h]

@[simp] theorem wordOf_bytes (w : Word) : wordOf (loByte w) (hiByte w) = w := by
  apply BitVec.eq_of_getLsbD_eq
  intro i h
  rw [wordOf_getLsbD]
  by_cases h8 : i < 8
  · simp [loByte, h8]
  · have h₁ : i - 8 < 8 := by omega
    have h₂ : 8 + (i - 8) = i := by omega
    simp [hiByte, h8, h₁, h₂]

/-! ## The map -/

/-- The map has one entry for each of the 256 opcode values (30_encoding.md R179). -/
theorem opcodeMap_length : opcodeMap.length = 256 := by
  simp only [opcodeMap, List.length_append]
  rfl

/-- Decoding by layout, the operand bytes present. -/
theorem decode_one {op : Byte} {i : Instr} (h : layoutOf op = .one i) (rest : List Byte) :
    decode (op :: rest) = .ok (i, rest) := by
  simp [decode, h]

theorem decode_byte {op : Byte} {f : Byte → Instr} (h : layoutOf op = .byte f) (b : Byte) (rest : List Byte) :
    decode (op :: b :: rest) = .ok (f b, rest) := by
  simp [decode, h]

theorem decode_word {op : Byte} {f : Word → Instr} (h : layoutOf op = .word f) (b₁ b₂ : Byte) (rest : List Byte) :
    decode (op :: b₁ :: b₂ :: rest) = .ok (f (wordOf b₁ b₂), rest) := by
  simp [decode, h]

end Sys2Proof
end

