-- ==== Sys2Proof/Laws/Operands.lean ====
section
/-! SUPPORT. What the operand forms of Machine/Operands.lean and the stack operations can do: one lemma per operation says
all of it. -/

namespace Sys2Proof.Machine

/-! ## Pointer reads and effective addresses change the mirror and the draws only -/

@[simp] theorem read16_a (a : Word) (s : State) : (read16 a s).2.a = s.a := rfl
@[simp] theorem read16_x (a : Word) (s : State) : (read16 a s).2.x = s.x := rfl
@[simp] theorem read16_y (a : Word) (s : State) : (read16 a s).2.y = s.y := rfl
@[simp] theorem read16_sp (a : Word) (s : State) : (read16 a s).2.sp = s.sp := rfl
@[simp] theorem read16_pc (a : Word) (s : State) : (read16 a s).2.pc = s.pc := rfl
@[simp] theorem read16_p (a : Word) (s : State) : (read16 a s).2.p = s.p := rfl
@[simp] theorem read16_jammed (a : Word) (s : State) : (read16 a s).2.jammed = s.jammed := rfl
@[simp] theorem read16_nmiPending (a : Word) (s : State) : (read16 a s).2.nmiPending = s.nmiPending := rfl
@[simp] theorem read16_mode (a : Word) (s : State) : (read16 a s).2.mode = s.mode := rfl
@[simp] theorem read16_mem (a : Word) (s : State) : (read16 a s).2.mem = s.mem := rfl
@[simp] theorem read16_ram (a : Word) (s : State) : (read16 a s).2.ram = s.ram := rfl
@[simp] theorem read16_rom (a : Word) (s : State) : (read16 a s).2.rom = s.rom := rfl
@[simp] theorem read16_image (a : Word) (s : State) : (read16 a s).2.image = s.image := rfl
@[simp] theorem read16_loaded (a : Word) (s : State) : (read16 a s).2.loaded = s.loaded := rfl
@[simp] theorem read16_video (a : Word) (s : State) : (read16 a s).2.video = s.video := rfl
@[simp] theorem read16_totalCycles (a : Word) (s : State) : (read16 a s).2.totalCycles = s.totalCycles := rfl
@[simp] theorem read16_budgetTarget (a : Word) (s : State) : (read16 a s).2.budgetTarget = s.budgetTarget := rfl
@[simp] theorem read16_cfg (a : Word) (s : State) : (read16 a s).2.cfg = s.cfg := rfl
@[simp] theorem read16_irqLine (a : Word) (s : State) : (read16 a s).2.irqLine = s.irqLine := rfl
@[simp] theorem read16_cycles (a : Word) (s : State) : (read16 a s).2.cycles = s.cycles := rfl
@[simp] theorem read16_events (a : Word) (s : State) : (read16 a s).2.events = s.events := rfl
@[simp] theorem read16_target (a : Word) (b : Word) (s : State) : (read16 a s).2.target b = s.target b := rfl
@[simp] theorem read16_peek (a : Word) (b : Word) (s : State) : (read16 a s).2.peek b = s.peek b := rfl
@[simp] theorem read16_writable (a : Word) (b : Word) (s : State) : (read16 a s).2.writable b = s.writable b := rfl
@[simp] theorem read16_wf (a : Word) (s : State) : Memory.wf (read16 a s).2 = Memory.wf s := rfl

@[simp] theorem read16Zp_a (z : Byte) (s : State) : (read16Zp z s).2.a = s.a := rfl
@[simp] theorem read16Zp_x (z : Byte) (s : State) : (read16Zp z s).2.x = s.x := rfl
@[simp] theorem read16Zp_y (z : Byte) (s : State) : (read16Zp z s).2.y = s.y := rfl
@[simp] theorem read16Zp_sp (z : Byte) (s : State) : (read16Zp z s).2.sp = s.sp := rfl
@[simp] theorem read16Zp_pc (z : Byte) (s : State) : (read16Zp z s).2.pc = s.pc := rfl
@[simp] theorem read16Zp_p (z : Byte) (s : State) : (read16Zp z s).2.p = s.p := rfl
@[simp] theorem read16Zp_jammed (z : Byte) (s : State) : (read16Zp z s).2.jammed = s.jammed := rfl
@[simp] theorem read16Zp_nmiPending (z : Byte) (s : State) : (read16Zp z s).2.nmiPending = s.nmiPending := rfl
@[simp] theorem read16Zp_mode (z : Byte) (s : State) : (read16Zp z s).2.mode = s.mode := rfl
@[simp] theorem read16Zp_mem (z : Byte) (s : State) : (read16Zp z s).2.mem = s.mem := rfl
@[simp] theorem read16Zp_ram (z : Byte) (s : State) : (read16Zp z s).2.ram = s.ram := rfl
@[simp] theorem read16Zp_rom (z : Byte) (s : State) : (read16Zp z s).2.rom = s.rom := rfl
@[simp] theorem read16Zp_image (z : Byte) (s : State) : (read16Zp z s).2.image = s.image := rfl
@[simp] theorem read16Zp_loaded (z : Byte) (s : State) : (read16Zp z s).2.loaded = s.loaded := rfl
@[simp] theorem read16Zp_video (z : Byte) (s : State) : (read16Zp z s).2.video = s.video := rfl
@[simp] theorem read16Zp_totalCycles (z : Byte) (s : State) : (read16Zp z s).2.totalCycles = s.totalCycles := rfl
@[simp] theorem read16Zp_budgetTarget (z : Byte) (s : State) : (read16Zp z s).2.budgetTarget = s.budgetTarget := rfl
@[simp] theorem read16Zp_cfg (z : Byte) (s : State) : (read16Zp z s).2.cfg = s.cfg := rfl
@[simp] theorem read16Zp_irqLine (z : Byte) (s : State) : (read16Zp z s).2.irqLine = s.irqLine := rfl
@[simp] theorem read16Zp_cycles (z : Byte) (s : State) : (read16Zp z s).2.cycles = s.cycles := rfl
@[simp] theorem read16Zp_events (z : Byte) (s : State) : (read16Zp z s).2.events = s.events := rfl
@[simp] theorem read16Zp_target (z : Byte) (b : Word) (s : State) : (read16Zp z s).2.target b = s.target b := rfl
@[simp] theorem read16Zp_peek (z : Byte) (b : Word) (s : State) : (read16Zp z s).2.peek b = s.peek b := rfl
@[simp] theorem read16Zp_writable (z : Byte) (b : Word) (s : State) : (read16Zp z s).2.writable b = s.writable b := rfl
@[simp] theorem read16Zp_wf (z : Byte) (s : State) : Memory.wf (read16Zp z s).2 = Memory.wf s := rfl

@[simp] theorem indirectTarget_a (ptr : Word) (s : State) : (indirectTarget ptr s).2.a = s.a := rfl
@[simp] theorem indirectTarget_x (ptr : Word) (s : State) : (indirectTarget ptr s).2.x = s.x := rfl
@[simp] theorem indirectTarget_y (ptr : Word) (s : State) : (indirectTarget ptr s).2.y = s.y := rfl
@[simp] theorem indirectTarget_sp (ptr : Word) (s : State) : (indirectTarget ptr s).2.sp = s.sp := rfl
@[simp] theorem indirectTarget_pc (ptr : Word) (s : State) : (indirectTarget ptr s).2.pc = s.pc := rfl
@[simp] theorem indirectTarget_p (ptr : Word) (s : State) : (indirectTarget ptr s).2.p = s.p := rfl
@[simp] theorem indirectTarget_jammed (ptr : Word) (s : State) : (indirectTarget ptr s).2.jammed = s.jammed := rfl
@[simp] theorem indirectTarget_nmiPending (ptr : Word) (s : State) : (indirectTarget ptr s).2.nmiPending = s.nmiPending := rfl
@[simp] theorem indirectTarget_mode (ptr : Word) (s : State) : (indirectTarget ptr s).2.mode = s.mode := rfl
@[simp] theorem indirectTarget_mem (ptr : Word) (s : State) : (indirectTarget ptr s).2.mem = s.mem := rfl
@[simp] theorem indirectTarget_ram (ptr : Word) (s : State) : (indirectTarget ptr s).2.ram = s.ram := rfl
@[simp] theorem indirectTarget_rom (ptr : Word) (s : State) : (indirectTarget ptr s).2.rom = s.rom := rfl
@[simp] theorem indirectTarget_image (ptr : Word) (s : State) : (indirectTarget ptr s).2.image = s.image := rfl
@[simp] theorem indirectTarget_loaded (ptr : Word) (s : State) : (indirectTarget ptr s).2.loaded = s.loaded := rfl
@[simp] theorem indirectTarget_video (ptr : Word) (s : State) : (indirectTarget ptr s).2.video = s.video := rfl
@[simp] theorem indirectTarget_totalCycles (ptr : Word) (s : State) : (indirectTarget ptr s).2.totalCycles = s.totalCycles := rfl
@[simp] theorem indirectTarget_budgetTarget (ptr : Word) (s : State) : (indirectTarget ptr s).2.budgetTarget = s.budgetTarget := rfl
@[simp] theorem indirectTarget_cfg (ptr : Word) (s : State) : (indirectTarget ptr s).2.cfg = s.cfg := rfl
@[simp] theorem indirectTarget_irqLine (ptr : Word) (s : State) : (indirectTarget ptr s).2.irqLine = s.irqLine := rfl
@[simp] theorem indirectTarget_cycles (ptr : Word) (s : State) : (indirectTarget ptr s).2.cycles = s.cycles := rfl
@[simp] theorem indirectTarget_events (ptr : Word) (s : State) : (indirectTarget ptr s).2.events = s.events := rfl
@[simp] theorem indirectTarget_target (ptr : Word) (b : Word) (s : State) : (indirectTarget ptr s).2.target b = s.target b := rfl
@[simp] theorem indirectTarget_peek (ptr : Word) (b : Word) (s : State) : (indirectTarget ptr s).2.peek b = s.peek b := rfl
@[simp] theorem indirectTarget_writable (ptr : Word) (b : Word) (s : State) : (indirectTarget ptr s).2.writable b = s.writable b := rfl
@[simp] theorem indirectTarget_wf (ptr : Word) (s : State) : Memory.wf (indirectTarget ptr s).2 = Memory.wf s := rfl

@[simp] theorem effAddr_a (m : MemMode) (s : State) : (effAddr m s).2.a = s.a := by cases m <;> rfl
@[simp] theorem effAddr_x (m : MemMode) (s : State) : (effAddr m s).2.x = s.x := by cases m <;> rfl
@[simp] theorem effAddr_y (m : MemMode) (s : State) : (effAddr m s).2.y = s.y := by cases m <;> rfl
@[simp] theorem effAddr_sp (m : MemMode) (s : State) : (effAddr m s).2.sp = s.sp := by cases m <;> rfl
@[simp] theorem effAddr_pc (m : MemMode) (s : State) : (effAddr m s).2.pc = s.pc := by cases m <;> rfl
@[simp] theorem effAddr_p (m : MemMode) (s : State) : (effAddr m s).2.p = s.p := by cases m <;> rfl
@[simp] theorem effAddr_jammed (m : MemMode) (s : State) : (effAddr m s).2.jammed = s.jammed := by cases m <;> rfl
@[simp] theorem effAddr_nmiPending (m : MemMode) (s : State) : (effAddr m s).2.nmiPending = s.nmiPending := by cases m <;> rfl
@[simp] theorem effAddr_mode (m : MemMode) (s : State) : (effAddr m s).2.mode = s.mode := by cases m <;> rfl
@[simp] theorem effAddr_mem (m : MemMode) (s : State) : (effAddr m s).2.mem = s.mem := by cases m <;> rfl
@[simp] theorem effAddr_ram (m : MemMode) (s : State) : (effAddr m s).2.ram = s.ram := by cases m <;> rfl
@[simp] theorem effAddr_rom (m : MemMode) (s : State) : (effAddr m s).2.rom = s.rom := by cases m <;> rfl
@[simp] theorem effAddr_image (m : MemMode) (s : State) : (effAddr m s).2.image = s.image := by cases m <;> rfl
@[simp] theorem effAddr_loaded (m : MemMode) (s : State) : (effAddr m s).2.loaded = s.loaded := by cases m <;> rfl
@[simp] theorem effAddr_video (m : MemMode) (s : State) : (effAddr m s).2.video = s.video := by cases m <;> rfl
@[simp] theorem effAddr_totalCycles (m : MemMode) (s : State) : (effAddr m s).2.totalCycles = s.totalCycles := by cases m <;> rfl
@[simp] theorem effAddr_budgetTarget (m : MemMode) (s : State) : (effAddr m s).2.budgetTarget = s.budgetTarget := by cases m <;> rfl
@[simp] theorem effAddr_cfg (m : MemMode) (s : State) : (effAddr m s).2.cfg = s.cfg := by cases m <;> rfl
@[simp] theorem effAddr_irqLine (m : MemMode) (s : State) : (effAddr m s).2.irqLine = s.irqLine := by cases m <;> rfl
@[simp] theorem effAddr_cycles (m : MemMode) (s : State) : (effAddr m s).2.cycles = s.cycles := by cases m <;> rfl
@[simp] theorem effAddr_events (m : MemMode) (s : State) : (effAddr m s).2.events = s.events := by cases m <;> rfl
@[simp] theorem effAddr_target (m : MemMode) (b : Word) (s : State) : (effAddr m s).2.target b = s.target b := by
  cases m <;> rfl
@[simp] theorem effAddr_peek (m : MemMode) (b : Word) (s : State) : (effAddr m s).2.peek b = s.peek b := by
  cases m <;> rfl
@[simp] theorem effAddr_writable (m : MemMode) (b : Word) (s : State) :
    (effAddr m s).2.writable b = s.writable b := by cases m <;> rfl
@[simp] theorem effAddr_wf (m : MemMode) (s : State) : Memory.wf (effAddr m s).2 = Memory.wf s := by cases m <;> rfl

/-- The page-cross bit of an effective address is the claims' `pageCrossed`. -/
theorem effAddr_crossed (m : MemMode) (s : State) : (effAddr m s).1.crossed = pageCrossed m s := by
  cases m <;> rfl

theorem machineFrame_refl (s : State) : MachineFrame s s := ⟨rfl, rfl, rfl, rfl, rfl, rfl, rfl, rfl, rfl, rfl⟩

theorem noStore_refl (s : State) : NoStore s s := ⟨fun _ => rfl, rfl, rfl, rfl, rfl⟩

theorem noAccess_refl (s : State) : NoAccess s s := ⟨noStore_refl s, rfl, rfl, rfl, rfl⟩

/-! ## Loads -/

theorem loadMem_byte (m : MemMode) (s : State) : (loadMem m s).1 = operandByte m s := rfl

theorem loadMem_state (m : MemMode) (s : State) :
    (loadMem m s).2 = (busRead (operandAddr m s) (effAddr m s).2).2.withCycles (readOperandCycles (.mem m) s) := by
  simp only [loadMem, operandAddr, readOperandCycles, effAddr_crossed]
  cases pageCrossed m s <;> rfl

/-- A memory operand is read once, and nothing else of the machine but the cycle count changes. -/
theorem loadMem_frame (m : MemMode) (s : State) :
    MachineFrame s (loadMem m s).2 ∧ NoStore s (loadMem m s).2
      ∧ LastRead (operandAddr m s) (operandByte m s) (loadMem m s).2 := by
  rw [loadMem_state]
  exact ⟨by constructor <;> simp, by constructor <;> simp, by constructor <;> simp [operandByte]⟩

@[simp] theorem load_byte (o : ReadOperand) (s : State) : (load o s).1 = readOperandByte o s := by cases o <;> rfl

@[simp] theorem load_cycles (o : ReadOperand) (s : State) : (load o s).2.cycles = readOperandCycles o s := by
  cases o
  · rfl
  · simp [load, loadMem_state]

@[simp] theorem loadMem_a (m : MemMode) (s : State) : (loadMem m s).2.a = s.a := by simp [loadMem_state]
@[simp] theorem load_a (o : ReadOperand) (s : State) : (load o s).2.a = s.a := by cases o <;> simp [load]
@[simp] theorem loadMem_x (m : MemMode) (s : State) : (loadMem m s).2.x = s.x := by simp [loadMem_state]
@[simp] theorem load_x (o : ReadOperand) (s : State) : (load o s).2.x = s.x := by cases o <;> simp [load]
@[simp] theorem loadMem_y (m : MemMode) (s : State) : (loadMem m s).2.y = s.y := by simp [loadMem_state]
@[simp] theorem load_y (o : ReadOperand) (s : State) : (load o s).2.y = s.y := by cases o <;> simp [load]
@[simp] theorem loadMem_sp (m : MemMode) (s : State) : (loadMem m s).2.sp = s.sp := by simp [loadMem_state]
@[simp] theorem load_sp (o : ReadOperand) (s : State) : (load o s).2.sp = s.sp := by cases o <;> simp [load]
@[simp] theorem loadMem_pc (m : MemMode) (s : State) : (loadMem m s).2.pc = s.pc := by simp [loadMem_state]
@[simp] theorem load_pc (o : ReadOperand) (s : State) : (load o s).2.pc = s.pc := by cases o <;> simp [load]
@[simp] theorem loadMem_p (m : MemMode) (s : State) : (loadMem m s).2.p = s.p := by simp [loadMem_state]
@[simp] theorem load_p (o : ReadOperand) (s : State) : (load o s).2.p = s.p := by cases o <;> simp [load]

/-- A reading instruction's operand changes nothing but the cycle count and what its bus accesses show. -/
theorem load_frame (o : ReadOperand) (s : State) :
    MachineFrame s (load o s).2 ∧ OperandRead o s (load o s).2 := by
  cases o with
  | imm v => exact ⟨⟨rfl, rfl, rfl, rfl, rfl, rfl, rfl, rfl, rfl, rfl⟩, ⟨fun _ => rfl, rfl, rfl, rfl, rfl⟩, rfl, rfl, rfl, rfl⟩
  | mem m => exact ⟨(loadMem_frame m s).1, (loadMem_frame m s).2⟩

/-! ## Stores -/

theorem oneStore_of_eq {k : Nat} {addr : Word} {v : Byte} {s u : State} (hpeek : ∀ b, u.peek b = s.peek b)
    (ht : ∀ b, u.target b = s.target b) (hv : u.video = s.video) (he : u.events = s.events) (hc : u.cfg = s.cfg) :
    OneStore k addr v s (busWrite k addr v u) := by
  have hw : ∀ b, u.writable b = s.writable b := fun b => by simp [State.writable, ht]
  have h := busWrite_oneStore k addr v u
  exact
    { here := fun hb => h.here ((hw addr).trans hb)
      elsewhere := fun b hb => (h.elsewhere b (by simpa [ht] using hb)).trans (hpeek b)
      readOnly := fun hb b => (h.readOnly ((hw addr).trans hb) b).trans (hpeek b)
      video := by rw [h.video]; simp [videoAfterStore, ht, hv, hc]
      events := by rw [h.events]; simp [eventsAfterStore, ht, he]
      lastAddr := h.lastAddr
      lastData := h.lastData
      lastRw := h.lastRw }

theorem store_state (m : MemMode) (v : Byte) (s : State) :
    store m v s = (busWrite (storeCycles m) (operandAddr m s) v (effAddr m s).2).withCycles (storeCycles m) := rfl

/-- Stores respect updates of registers and of the cycle count. -/
theorem OneStore.withCycles {k : Nat} {addr : Word} {v : Byte} {s t : State} (h : OneStore k addr v s t) (n : Nat) :
    OneStore k addr v s (t.withCycles n) := ⟨h.here, h.elsewhere, h.readOnly, h.video, h.events, h.lastAddr, h.lastData, h.lastRw⟩

theorem OneStore.withP {k : Nat} {addr : Word} {v : Byte} {s t : State} (h : OneStore k addr v s t) (p : Flags) :
    OneStore k addr v s (t.withP p) := ⟨h.here, h.elsewhere, h.readOnly, h.video, h.events, h.lastAddr, h.lastData, h.lastRw⟩

theorem OneStore.withA {k : Nat} {addr : Word} {v : Byte} {s t : State} (h : OneStore k addr v s t) (a : Byte) :
    OneStore k addr v s (t.withA a) := ⟨h.here, h.elsewhere, h.readOnly, h.video, h.events, h.lastAddr, h.lastData, h.lastRw⟩

theorem OneStore.withSp {k : Nat} {addr : Word} {v : Byte} {s t : State} (h : OneStore k addr v s t) (a : Byte) :
    OneStore k addr v s (t.withSp a) := ⟨h.here, h.elsewhere, h.readOnly, h.video, h.events, h.lastAddr, h.lastData, h.lastRw⟩

theorem store_oneStore (m : MemMode) (v : Byte) (s : State) :
    OneStore (storeCycles m) (operandAddr m s) v s (store m v s) := by
  rw [store_state]
  exact OneStore.withCycles (oneStore_of_eq (by simp) (by simp) (by simp) (by simp) (by simp)) _

theorem store_frame (m : MemMode) (v : Byte) (s : State) : MachineFrame s (store m v s) := by
  rw [store_state]
  constructor <;> simp

@[simp] theorem store_a (m : MemMode) (v : Byte) (s : State) : (store m v s).a = s.a := by simp [store_state]
@[simp] theorem store_x (m : MemMode) (v : Byte) (s : State) : (store m v s).x = s.x := by simp [store_state]
@[simp] theorem store_y (m : MemMode) (v : Byte) (s : State) : (store m v s).y = s.y := by simp [store_state]
@[simp] theorem store_sp (m : MemMode) (v : Byte) (s : State) : (store m v s).sp = s.sp := by simp [store_state]
@[simp] theorem store_pc (m : MemMode) (v : Byte) (s : State) : (store m v s).pc = s.pc := by simp [store_state]
@[simp] theorem store_p (m : MemMode) (v : Byte) (s : State) : (store m v s).p = s.p := by simp [store_state]
@[simp] theorem store_cycles (m : MemMode) (v : Byte) (s : State) : (store m v s).cycles = storeCycles m := rfl

/-! ## Read-modify-write -/

theorem modifyMem_byte (op : ModifyOp) (m : MemMode) (s : State) :
    (modifyMem op m s).1 = modifyResult op s.p.c (operandByte m s) := by
  simp [modifyMem, operandByte, operandAddr]

theorem modifyMem_state (op : ModifyOp) (m : MemMode) (s : State) :
    (modifyMem op m s).2
      = ((busWrite (modifyCycles m) (operandAddr m s) (modifyResult op s.p.c (operandByte m s))
          (busRead (operandAddr m s) (effAddr m s).2).2).withP (modifyFlags op (operandByte m s) s.p)).withCycles
          (modifyCycles m) := by
  simp [modifyMem, operandByte, operandAddr]

theorem modifyMem_oneStore (op : ModifyOp) (m : MemMode) (s : State) :
    OneStore (modifyCycles m) (operandAddr m s) (modifyResult op s.p.c (operandByte m s)) s (modifyMem op m s).2 := by
  rw [modifyMem_state]
  exact OneStore.withCycles
    (OneStore.withP (oneStore_of_eq (by simp) (by simp) (by simp) (by simp) (by simp)) _) _

theorem modifyMem_frame (op : ModifyOp) (m : MemMode) (s : State) : MachineFrame s (modifyMem op m s).2 := by
  rw [modifyMem_state]
  constructor <;> simp

@[simp] theorem modifyMem_a (op : ModifyOp) (m : MemMode) (s : State) :
    (modifyMem op m s).2.a = s.a := by simp [modifyMem_state]
@[simp] theorem modifyMem_x (op : ModifyOp) (m : MemMode) (s : State) :
    (modifyMem op m s).2.x = s.x := by simp [modifyMem_state]
@[simp] theorem modifyMem_y (op : ModifyOp) (m : MemMode) (s : State) :
    (modifyMem op m s).2.y = s.y := by simp [modifyMem_state]
@[simp] theorem modifyMem_sp (op : ModifyOp) (m : MemMode) (s : State) :
    (modifyMem op m s).2.sp = s.sp := by simp [modifyMem_state]
@[simp] theorem modifyMem_pc (op : ModifyOp) (m : MemMode) (s : State) :
    (modifyMem op m s).2.pc = s.pc := by simp [modifyMem_state]
@[simp] theorem modifyMem_p (op : ModifyOp) (m : MemMode) (s : State) :
    (modifyMem op m s).2.p = modifyFlags op (operandByte m s) s.p := by simp [modifyMem_state]
@[simp] theorem modifyMem_cycles (op : ModifyOp) (m : MemMode) (s : State) :
    (modifyMem op m s).2.cycles = modifyCycles m := by simp [modifyMem_state]

/-! ## Masked stores -/

/-- A masked store is one bus write of the masked byte at the masked address (43_undocumented.md R351). -/
theorem storeMasked_state (corrupt : Bool) (m : MemMode) (v : Byte) (s : State) :
    storeMasked corrupt m v s
      = (busWrite (storeCycles m) (maskedAddr corrupt (maskedByte v (effAddr m s).1.base) (effAddr m s).1)
          (maskedByte v (effAddr m s).1.base) (effAddr m s).2).withCycles (storeCycles m) := rfl

theorem storeMasked_oneStore (corrupt : Bool) (m : MemMode) (v : Byte) (s : State) :
    OneStore (storeCycles m) (maskedAddr corrupt (maskedByte v (effAddr m s).1.base) (effAddr m s).1)
      (maskedByte v (effAddr m s).1.base) s (storeMasked corrupt m v s) := by
  rw [storeMasked_state]
  exact OneStore.withCycles (oneStore_of_eq (by simp) (by simp) (by simp) (by simp) (by simp)) _

theorem storeMasked_frame (corrupt : Bool) (m : MemMode) (v : Byte) (s : State) :
    MachineFrame s (storeMasked corrupt m v s) := by
  rw [storeMasked_state]
  constructor <;> simp

@[simp] theorem storeMasked_a (corrupt : Bool) (m : MemMode) (v : Byte) (s : State) :
    (storeMasked corrupt m v s).a = s.a := by simp [storeMasked_state]
@[simp] theorem storeMasked_x (corrupt : Bool) (m : MemMode) (v : Byte) (s : State) :
    (storeMasked corrupt m v s).x = s.x := by simp [storeMasked_state]
@[simp] theorem storeMasked_y (corrupt : Bool) (m : MemMode) (v : Byte) (s : State) :
    (storeMasked corrupt m v s).y = s.y := by simp [storeMasked_state]
@[simp] theorem storeMasked_sp (corrupt : Bool) (m : MemMode) (v : Byte) (s : State) :
    (storeMasked corrupt m v s).sp = s.sp := by simp [storeMasked_state]
@[simp] theorem storeMasked_pc (corrupt : Bool) (m : MemMode) (v : Byte) (s : State) :
    (storeMasked corrupt m v s).pc = s.pc := by simp [storeMasked_state]
@[simp] theorem storeMasked_p (corrupt : Bool) (m : MemMode) (v : Byte) (s : State) :
    (storeMasked corrupt m v s).p = s.p := by simp [storeMasked_state]

/-! ## The stack -/

@[simp] theorem push_a (k : Nat) (v : Byte) (s : State) : (push k v s).a = s.a := by simp [push]
@[simp] theorem push_x (k : Nat) (v : Byte) (s : State) : (push k v s).x = s.x := by simp [push]
@[simp] theorem push_y (k : Nat) (v : Byte) (s : State) : (push k v s).y = s.y := by simp [push]
@[simp] theorem push_pc (k : Nat) (v : Byte) (s : State) : (push k v s).pc = s.pc := by simp [push]
@[simp] theorem push_p (k : Nat) (v : Byte) (s : State) : (push k v s).p = s.p := by simp [push]
@[simp] theorem push_jammed (k : Nat) (v : Byte) (s : State) : (push k v s).jammed = s.jammed := by simp [push]
@[simp] theorem push_nmiPending (k : Nat) (v : Byte) (s : State) : (push k v s).nmiPending = s.nmiPending := by simp [push]
@[simp] theorem push_mode (k : Nat) (v : Byte) (s : State) : (push k v s).mode = s.mode := by simp [push]
@[simp] theorem push_rom (k : Nat) (v : Byte) (s : State) : (push k v s).rom = s.rom := by simp [push]
@[simp] theorem push_image (k : Nat) (v : Byte) (s : State) : (push k v s).image = s.image := by simp [push]
@[simp] theorem push_loaded (k : Nat) (v : Byte) (s : State) : (push k v s).loaded = s.loaded := by simp [push]
@[simp] theorem push_totalCycles (k : Nat) (v : Byte) (s : State) : (push k v s).totalCycles = s.totalCycles := by simp [push]
@[simp] theorem push_budgetTarget (k : Nat) (v : Byte) (s : State) : (push k v s).budgetTarget = s.budgetTarget := by simp [push]
@[simp] theorem push_cfg (k : Nat) (v : Byte) (s : State) : (push k v s).cfg = s.cfg := by simp [push]
@[simp] theorem push_irqLine (k : Nat) (v : Byte) (s : State) : (push k v s).irqLine = s.irqLine := by simp [push]
@[simp] theorem push_cycles (k : Nat) (v : Byte) (s : State) : (push k v s).cycles = s.cycles := by simp [push]
@[simp] theorem push_draws (k : Nat) (v : Byte) (s : State) : (push k v s).draws = s.draws := by simp [push]
@[simp] theorem push_sp (k : Nat) (v : Byte) (s : State) : (push k v s).sp = s.sp - 1 := by simp [push]
@[simp] theorem push_target (k : Nat) (v : Byte) (b : Word) (s : State) : (push k v s).target b = s.target b := by
  simp [push]
@[simp] theorem push_writable (k : Nat) (v : Byte) (b : Word) (s : State) :
    (push k v s).writable b = s.writable b := by
  simp [State.writable]

/-- A push is one store at the free slot. -/
theorem push_oneStore (k : Nat) (v : Byte) (s : State) : OneStore k (stackAddr s.sp) v s (push k v s) :=
  OneStore.withSp (busWrite_oneStore k (stackAddr s.sp) v s) _

theorem push_peek (k : Nat) (v : Byte) (b : Word) (s : State) :
    (push k v s).peek b
      = if s.writable (stackAddr s.sp) = true ∧ s.target b = s.target (stackAddr s.sp) then some v else s.peek b := by
  simp [push, busWrite_peek]

theorem push_keeps_wf (k : Nat) (v : Byte) {s : State} (h : Memory.wf s = true) : Memory.wf (push k v s) = true := by
  simpa [push] using busWrite_keeps_wf k (stackAddr s.sp) v h

@[simp] theorem pull_a (s : State) : (pull s).2.a = s.a := rfl
@[simp] theorem pull_x (s : State) : (pull s).2.x = s.x := rfl
@[simp] theorem pull_y (s : State) : (pull s).2.y = s.y := rfl
@[simp] theorem pull_pc (s : State) : (pull s).2.pc = s.pc := rfl
@[simp] theorem pull_p (s : State) : (pull s).2.p = s.p := rfl
@[simp] theorem pull_jammed (s : State) : (pull s).2.jammed = s.jammed := rfl
@[simp] theorem pull_nmiPending (s : State) : (pull s).2.nmiPending = s.nmiPending := rfl
@[simp] theorem pull_mode (s : State) : (pull s).2.mode = s.mode := rfl
@[simp] theorem pull_mem (s : State) : (pull s).2.mem = s.mem := rfl
@[simp] theorem pull_ram (s : State) : (pull s).2.ram = s.ram := rfl
@[simp] theorem pull_rom (s : State) : (pull s).2.rom = s.rom := rfl
@[simp] theorem pull_image (s : State) : (pull s).2.image = s.image := rfl
@[simp] theorem pull_loaded (s : State) : (pull s).2.loaded = s.loaded := rfl
@[simp] theorem pull_video (s : State) : (pull s).2.video = s.video := rfl
@[simp] theorem pull_totalCycles (s : State) : (pull s).2.totalCycles = s.totalCycles := rfl
@[simp] theorem pull_budgetTarget (s : State) : (pull s).2.budgetTarget = s.budgetTarget := rfl
@[simp] theorem pull_cfg (s : State) : (pull s).2.cfg = s.cfg := rfl
@[simp] theorem pull_irqLine (s : State) : (pull s).2.irqLine = s.irqLine := rfl
@[simp] theorem pull_cycles (s : State) : (pull s).2.cycles = s.cycles := rfl
@[simp] theorem pull_events (s : State) : (pull s).2.events = s.events := rfl
@[simp] theorem pull_sp (s : State) : (pull s).2.sp = s.sp + 1 := rfl
@[simp] theorem pull_target (b : Word) (s : State) : (pull s).2.target b = s.target b := rfl
@[simp] theorem pull_peek (b : Word) (s : State) : (pull s).2.peek b = s.peek b := rfl
@[simp] theorem pull_writable (b : Word) (s : State) : (pull s).2.writable b = s.writable b := rfl
@[simp] theorem pull_wf (s : State) : Memory.wf (pull s).2 = Memory.wf s := rfl

/-- A pull of a slot behind which plain memory stands returns the byte there. -/
theorem pull_of_peek {s : State} {v : Byte} (h : s.peek (stackAddr (s.sp + 1)) = some v) : (pull s).1 = v := by
  have : (s.withSp (s.sp + 1)).peek (stackAddr (s.sp + 1)) = some v := h
  show (busRead (stackAddr (s.sp + 1)) (s.withSp (s.sp + 1))).1 = v
  rw [busRead_of_peek this]

end Sys2Proof.Machine
end

