-- ==== Sys2Proof/Laws/Exec.lean ====
section
/-! SUPPORT. Said once, for all instructions: an instruction answers a next state, and it reaches it by bus reads, bus
writes on its own cycles, register updates and the jam alone. Every invariant of the step follows from this. -/

namespace Sys2Proof.Machine

theorem one_le_storeCycles (m : MemMode) : 1 ≤ storeCycles m := by cases m <;> simp [storeCycles]

theorem one_le_modifyCycles (m : MemMode) : 1 ≤ modifyCycles m := by cases m <;> simp [modifyCycles]

/-- What a property must be kept by to be kept by every instruction of at most `n` cycles. -/
structure Closed (n : Nat) (P : State → Prop) : Prop where
  read  : ∀ addr u, P u → P (busRead addr u).2
  write : ∀ k, 1 ≤ k → k ≤ n → ∀ addr v u, P u → P (busWrite k addr v u)
  regs  : ∀ u a x y sp pc p c, P u → P { u with a := a, x := x, y := y, sp := sp, pc := pc, p := p, cycles := c }
  jam   : ∀ u, P u → P { u with jammed := true }

namespace Closed

variable {n : Nat} {P : State → Prop} (h : Closed n P) {u : State}

include h

theorem withA (v : Byte) (hu : P u) : P (u.withA v) := h.regs u v u.x u.y u.sp u.pc u.p u.cycles hu
theorem withX (v : Byte) (hu : P u) : P (u.withX v) := h.regs u u.a v u.y u.sp u.pc u.p u.cycles hu
theorem withY (v : Byte) (hu : P u) : P (u.withY v) := h.regs u u.a u.x v u.sp u.pc u.p u.cycles hu
theorem withSp (v : Byte) (hu : P u) : P (u.withSp v) := h.regs u u.a u.x u.y v u.pc u.p u.cycles hu
theorem withPc (v : Word) (hu : P u) : P (u.withPc v) := h.regs u u.a u.x u.y u.sp v u.p u.cycles hu
theorem withP (v : Flags) (hu : P u) : P (u.withP v) := h.regs u u.a u.x u.y u.sp u.pc v u.cycles hu
theorem withCycles (c : Nat) (hu : P u) : P (u.withCycles c) := h.regs u u.a u.x u.y u.sp u.pc u.p c hu
theorem setNZ (v : Byte) (hu : P u) : P (u.setNZ v) := h.withP _ hu
theorem setAccumulator (v : Byte) (hu : P u) : P (u.setAccumulator v) := h.setNZ _ (h.withA _ hu)
theorem addWithCarry (v : Byte) (hu : P u) : P (addWithCarry v u) := h.withP _ (h.withA _ hu)
theorem subWithBorrow (v : Byte) (hu : P u) : P (subWithBorrow v u) := h.withP _ (h.withA _ hu)

theorem read16 (a : Word) (hu : P u) : P (read16 a u).2 := h.read _ _ (h.read _ _ hu)
theorem read16Zp (z : Byte) (hu : P u) : P (read16Zp z u).2 := h.read _ _ (h.read _ _ hu)
theorem indirectTarget (a : Word) (hu : P u) : P (indirectTarget a u).2 := h.read _ _ (h.read _ _ hu)

theorem effAddr (m : MemMode) (hu : P u) : P (effAddr m u).2 := by
  cases m with
  | izx z => exact h.read16Zp _ hu
  | izy z => exact h.read16Zp _ hu
  | zp z => exact hu
  | zpx z => exact hu
  | zpy z => exact hu
  | abs a => exact hu
  | abx a => exact hu
  | aby a => exact hu

theorem loadMem (m : MemMode) (hu : P u) : P (loadMem m u).2 := h.withCycles _ (h.read _ _ (h.effAddr m hu))

theorem load (o : ReadOperand) (hu : P u) : P (load o u).2 := by
  cases o with
  | imm v => exact h.withCycles _ hu
  | mem m => exact h.loadMem m hu

theorem store (m : MemMode) (v : Byte) (hn : storeCycles m ≤ n) (hu : P u) : P (store m v u) :=
  h.withCycles _ (h.write _ (one_le_storeCycles m) hn _ _ _ (h.effAddr m hu))

theorem storeMasked (c : Bool) (m : MemMode) (v : Byte) (hn : storeCycles m ≤ n) (hu : P u) :
    P (storeMasked c m v u) :=
  h.withCycles _ (h.write _ (one_le_storeCycles m) hn _ _ _ (h.effAddr m hu))

theorem modifyMem (op : ModifyOp) (m : MemMode) (hn : modifyCycles m ≤ n) (hu : P u) : P (modifyMem op m u).2 :=
  h.withCycles _ (h.withP _ (h.write _ (one_le_modifyCycles m) hn _ _ _ (h.read _ _ (h.effAddr m hu))))

theorem push (k : Nat) (v : Byte) (hk : 1 ≤ k) (hn : k ≤ n) (hu : P u) : P (push k v u) :=
  h.withSp _ (h.write k hk hn _ _ _ hu)

theorem pull (hu : P u) : P (pull u).2 := h.read _ _ (h.withSp _ hu)

theorem enterInterrupt (vector : Word) (b : Bool) (ret : Word) (hn : 7 ≤ n) (hu : P u) :
    P (enterInterrupt vector b ret u) :=
  h.withCycles _ (h.withPc _ (h.read16 _ (h.withP _
    (h.push 5 _ (by decide) (by omega) (h.push 4 _ (by decide) (by omega) (h.push 3 _ (by decide) (by omega) hu))))))

theorem branch (c : Bool) (off : Byte) (hu : P u) : P (branch c off u) := by
  unfold Machine.branch
  cases c
  · exact h.withCycles _ hu
  · exact h.withCycles _ (h.withPc _ hu)

end Closed

/-- Every instruction answers a next state, and keeps every property that bus reads, bus writes on its cycles, register
updates and the jam keep. -/
theorem exec_closed (i : Instr) (s : State) :
    ∃ t, exec i s = .next t ∧ ∀ P : State → Prop, Closed t.cycles P → P s → P t := by
  cases i with
  | lda o => exact ⟨_, rfl, fun P h hs => h.setNZ _ (h.withA _ (h.load o hs))⟩
  | ldx o => exact ⟨_, rfl, fun P h hs => h.setNZ _ (h.withX _ (h.load o hs))⟩
  | ldy o => exact ⟨_, rfl, fun P h hs => h.setNZ _ (h.withY _ (h.load o hs))⟩
  | sta m => exact ⟨_, rfl, fun P h hs => h.store m _ (Nat.le_refl _) hs⟩
  | stx m => exact ⟨_, rfl, fun P h hs => h.store m _ (Nat.le_refl _) hs⟩
  | sty m => exact ⟨_, rfl, fun P h hs => h.store m _ (Nat.le_refl _) hs⟩
  | tax => exact ⟨_, rfl, fun P h hs => h.withCycles _ (h.setNZ _ (h.withX _ hs))⟩
  | tay => exact ⟨_, rfl, fun P h hs => h.withCycles _ (h.setNZ _ (h.withY _ hs))⟩
  | txa => exact ⟨_, rfl, fun P h hs => h.withCycles _ (h.setNZ _ (h.withA _ hs))⟩
  | tya => exact ⟨_, rfl, fun P h hs => h.withCycles _ (h.setNZ _ (h.withA _ hs))⟩
  | tsx => exact ⟨_, rfl, fun P h hs => h.withCycles _ (h.setNZ _ (h.withX _ hs))⟩
  | txs => exact ⟨_, rfl, fun P h hs => h.withCycles _ (h.withSp _ hs)⟩
  | pha => exact ⟨_, rfl, fun P h hs => h.withCycles _ (h.push 3 _ (by decide) (Nat.le_refl 3) hs)⟩
  | php => exact ⟨_, rfl, fun P h hs => h.withCycles _ (h.push 3 _ (by decide) (Nat.le_refl 3) hs)⟩
  | pla => exact ⟨_, rfl, fun P h hs => h.withCycles _ (h.setNZ _ (h.withA _ (h.pull hs)))⟩
  | plp => exact ⟨_, rfl, fun P h hs => h.withCycles _ (h.withP _ (h.pull hs))⟩
  | adc o => exact ⟨_, rfl, fun P h hs => h.addWithCarry _ (h.load o hs)⟩
  | sbc o => exact ⟨_, rfl, fun P h hs => h.subWithBorrow _ (h.load o hs)⟩
  | and o => exact ⟨_, rfl, fun P h hs => h.setAccumulator _ (h.load o hs)⟩
  | ora o => exact ⟨_, rfl, fun P h hs => h.setAccumulator _ (h.load o hs)⟩
  | eor o => exact ⟨_, rfl, fun P h hs => h.setAccumulator _ (h.load o hs)⟩
  | cmp o => exact ⟨_, rfl, fun P h hs => h.withP _ (h.load o hs)⟩
  | cpx o => exact ⟨_, rfl, fun P h hs => h.withP _ (h.load o hs)⟩
  | cpy o => exact ⟨_, rfl, fun P h hs => h.withP _ (h.load o hs)⟩
  | bit m => exact ⟨_, rfl, fun P h hs => h.withP _ (h.loadMem m hs)⟩
  | inc m => exact ⟨_, rfl, fun P h hs => h.modifyMem _ m (Nat.le_refl _) hs⟩
  | dec m => exact ⟨_, rfl, fun P h hs => h.modifyMem _ m (Nat.le_refl _) hs⟩
  | inx => exact ⟨_, rfl, fun P h hs => h.withCycles _ (h.setNZ _ (h.withX _ hs))⟩
  | iny => exact ⟨_, rfl, fun P h hs => h.withCycles _ (h.setNZ _ (h.withY _ hs))⟩
  | dex => exact ⟨_, rfl, fun P h hs => h.withCycles _ (h.setNZ _ (h.withX _ hs))⟩
  | dey => exact ⟨_, rfl, fun P h hs => h.withCycles _ (h.setNZ _ (h.withY _ hs))⟩
  | asl o =>
    cases o with
    | acc => exact ⟨_, rfl, fun P h hs => h.withCycles _ (h.withP _ (h.withA _ hs))⟩
    | mem m => exact ⟨_, rfl, fun P h hs => h.modifyMem _ m (Nat.le_refl _) hs⟩
  | lsr o =>
    cases o with
    | acc => exact ⟨_, rfl, fun P h hs => h.withCycles _ (h.withP _ (h.withA _ hs))⟩
    | mem m => exact ⟨_, rfl, fun P h hs => h.modifyMem _ m (Nat.le_refl _) hs⟩
  | rol o =>
    cases o with
    | acc => exact ⟨_, rfl, fun P h hs => h.withCycles _ (h.withP _ (h.withA _ hs))⟩
    | mem m => exact ⟨_, rfl, fun P h hs => h.modifyMem _ m (Nat.le_refl _) hs⟩
  | ror o =>
    cases o with
    | acc => exact ⟨_, rfl, fun P h hs => h.withCycles _ (h.withP _ (h.withA _ hs))⟩
    | mem m => exact ⟨_, rfl, fun P h hs => h.modifyMem _ m (Nat.le_refl _) hs⟩
  | bpl off => exact ⟨_, rfl, fun P h hs => h.branch _ off hs⟩
  | bmi off => exact ⟨_, rfl, fun P h hs => h.branch _ off hs⟩
  | bvc off => exact ⟨_, rfl, fun P h hs => h.branch _ off hs⟩
  | bvs off => exact ⟨_, rfl, fun P h hs => h.branch _ off hs⟩
  | bcc off => exact ⟨_, rfl, fun P h hs => h.branch _ off hs⟩
  | bcs off => exact ⟨_, rfl, fun P h hs => h.branch _ off hs⟩
  | bne off => exact ⟨_, rfl, fun P h hs => h.branch _ off hs⟩
  | beq off => exact ⟨_, rfl, fun P h hs => h.branch _ off hs⟩
  | jmp o =>
    cases o with
    | abs a => exact ⟨_, rfl, fun P h hs => h.withCycles _ (h.withPc _ hs)⟩
    | ind a => exact ⟨_, rfl, fun P h hs => h.withCycles _ (h.withPc _ (h.indirectTarget a hs))⟩
  | jsr a =>
    exact ⟨_, rfl, fun P h hs => h.withCycles _ (h.withPc _
      (h.push 5 _ (by decide) (show 5 ≤ 6 by decide) (h.push 4 _ (by decide) (show 4 ≤ 6 by decide) hs)))⟩
  | rts => exact ⟨_, rfl, fun P h hs => h.withCycles _ (h.withPc _ (h.pull (h.pull hs)))⟩
  | rti => exact ⟨_, rfl, fun P h hs => h.withCycles _ (h.withPc _ (h.pull (h.pull (h.withP _ (h.pull hs)))))⟩
  | brk => exact ⟨_, rfl, fun P h hs => h.enterInterrupt _ _ _ (Nat.le_refl 7) hs⟩
  | clc => exact ⟨_, rfl, fun P h hs => h.withCycles _ (h.withP _ hs)⟩
  | sec => exact ⟨_, rfl, fun P h hs => h.withCycles _ (h.withP _ hs)⟩
  | cli => exact ⟨_, rfl, fun P h hs => h.withCycles _ (h.withP _ hs)⟩
  | sei => exact ⟨_, rfl, fun P h hs => h.withCycles _ (h.withP _ hs)⟩
  | cld => exact ⟨_, rfl, fun P h hs => h.withCycles _ (h.withP _ hs)⟩
  | sed => exact ⟨_, rfl, fun P h hs => h.withCycles _ (h.withP _ hs)⟩
  | clv => exact ⟨_, rfl, fun P h hs => h.withCycles _ (h.withP _ hs)⟩
  | nop f =>
    cases f with
    | imp k => exact ⟨_, rfl, fun P h hs => h.withCycles _ hs⟩
    | imm k v => exact ⟨_, rfl, fun P h hs => h.withCycles _ hs⟩
    | zp k z => exact ⟨_, rfl, fun P h hs => h.loadMem _ hs⟩
    | zpx k z => exact ⟨_, rfl, fun P h hs => h.loadMem _ hs⟩
    | abs a => exact ⟨_, rfl, fun P h hs => h.loadMem _ hs⟩
    | abx k a => exact ⟨_, rfl, fun P h hs => h.loadMem _ hs⟩
  | slo m => exact ⟨_, rfl, fun P h hs => h.setAccumulator _ (h.modifyMem _ m (Nat.le_refl _) hs)⟩
  | rla m => exact ⟨_, rfl, fun P h hs => h.setAccumulator _ (h.modifyMem _ m (Nat.le_refl _) hs)⟩
  | sre m => exact ⟨_, rfl, fun P h hs => h.setAccumulator _ (h.modifyMem _ m (Nat.le_refl _) hs)⟩
  | rra m => exact ⟨_, rfl, fun P h hs => h.addWithCarry _ (h.modifyMem _ m (Nat.le_refl _) hs)⟩
  | sax m => exact ⟨_, rfl, fun P h hs => h.store m _ (Nat.le_refl _) hs⟩
  | lax m => exact ⟨_, rfl, fun P h hs => h.setNZ _ (h.withX _ (h.withA _ (h.loadMem m hs)))⟩
  | dcp m => exact ⟨_, rfl, fun P h hs => h.withP _ (h.modifyMem _ m (Nat.le_refl _) hs)⟩
  | isc m => exact ⟨_, rfl, fun P h hs => h.subWithBorrow _ (h.modifyMem _ m (Nat.le_refl _) hs)⟩
  | anc k v => exact ⟨_, rfl, fun P h hs => h.withCycles _ (h.withP _ (h.setAccumulator _ hs))⟩
  | alr v => exact ⟨_, rfl, fun P h hs => h.withCycles _ (h.withP _ (h.withA _ hs))⟩
  | arr v => exact ⟨_, rfl, fun P h hs => h.withCycles _ (h.withP _ (h.withA _ hs))⟩
  | sbx v => exact ⟨_, rfl, fun P h hs => h.withCycles _ (h.withP _ (h.withX _ hs))⟩
  | ane v => exact ⟨_, rfl, fun P h hs => h.withCycles _ (h.setAccumulator _ hs)⟩
  | lxa v => exact ⟨_, rfl, fun P h hs => h.withCycles _ (h.withX _ (h.setAccumulator _ hs))⟩
  | sha m => exact ⟨_, rfl, fun P h hs => h.storeMasked _ m _ (Nat.le_refl _) hs⟩
  | shx a => exact ⟨_, rfl, fun P h hs => h.storeMasked _ (.aby a) _ (Nat.le_refl _) hs⟩
  | shy a => exact ⟨_, rfl, fun P h hs => h.storeMasked _ (.abx a) _ (Nat.le_refl _) hs⟩
  | tas a => exact ⟨_, rfl, fun P h hs => h.storeMasked _ (.aby a) _ (Nat.le_refl _) (h.withSp _ hs)⟩
  | las a => exact ⟨_, rfl, fun P h hs => h.withSp _ (h.withX _ (h.setAccumulator _ (h.loadMem _ hs)))⟩
  | usbc v => exact ⟨_, rfl, fun P h hs => h.withCycles _ (h.subWithBorrow _ hs)⟩
  | jam k =>
    exact ⟨_, rfl, fun P h hs => h.withCycles _ (by
      have := h.withPc (s.pc - 1) (h.jam s hs)
      exact this)⟩

/-- Every instruction answers a next state (60_exceptions.md R540). -/
theorem exec_next (i : Instr) (s : State) : ∃ t, exec i s = .next t := (exec_closed i s).imp fun _ h => h.1

/-- What every instruction of any length keeps. -/
theorem exec_keeps {P : State → Prop} (h : ∀ n, Closed n P) {i : Instr} {s t : State} (he : exec i s = .next t)
    (hs : P s) : P t := by
  obtain ⟨u, hu, hall⟩ := exec_closed i s
  cases hu.symm.trans he
  exact hall P (h _) hs

end Sys2Proof.Machine
end

