-- ==== Sys2Proof/Laws/Flags.lean ====
section
/-! SUPPORT. The flag computations of Machine/Flags.lean in the terms claims use: numbers, bits and `nzOf`. -/

namespace Sys2Proof.Machine

/-! ## N and Z, and the status byte -/

theorem bitAt_getLsbD (b : Bool) (i j : Nat) : (bitAt b i).getLsbD j = (b && decide (i = j ∧ j < 8)) := by
  cases b
  · simp [bitAt]
  · rw [Bool.true_and, Bool.eq_iff_iff]
    simp [bitAt]
    omega

theorem beq_zero_toNat (v : Byte) : (v == 0#8) = decide (v.toNat = 0) := by
  rw [show (v == 0#8) = decide (v = 0#8) from rfl]
  exact decide_eq_decide.mpr ⟨fun h => by simp [h], fun h => BitVec.eq_of_toNat_eq (by simpa using h)⟩

theorem setNZ_eq (v : Byte) (p : Flags) : setNZ v p = nzOf v p := by
  unfold setNZ nzOf
  rw [← beq_zero_toNat]
  rfl

theorem loadStatus_eq (v : Byte) : loadStatus v = flagsOf v := rfl

@[simp] theorem State.setNZ_eq (s : State) (v : Byte) : s.setNZ v = s.withP (nzOf v s.p) := by
  rw [State.setNZ, Machine.setNZ_eq]

/-- Pushing the flags and loading them back gives them again, but for B, which becomes the kind of push. -/
theorem loadStatus_statusByte (p : Flags) (b : Bool) : loadStatus (statusByte p b) = { p with b := b } := by
  simp only [loadStatus, statusByte, BitVec.getLsbD_or, bitAt_getLsbD]
  simp

/-! ## Single bits as numbers -/

/-- Bit 7 of a byte as a number. -/
theorem top_bit (v : Byte) : v.getLsbD 7 = decide (128 ≤ v.toNat) := by
  have h := v.isLt
  rw [BitVec.getLsbD, Nat.testBit_eq_decide_div_mod_eq]
  exact decide_eq_decide.mpr (by omega)

/-- Bit 0 of a byte as a number. -/
theorem low_bit (v : Byte) : v.getLsbD 0 = decide (v.toNat % 2 = 1) := by
  rw [BitVec.getLsbD, Nat.testBit_eq_decide_div_mod_eq]
  simp

theorem bitAt_toNat (c : Bool) : (bitAt c 0).toNat = c.toNat ∧ (bitAt c 7).toNat = 128 * c.toNat := by
  cases c <;> exact ⟨rfl, rfl⟩

/-! ## The modify functions as numbers (41_alu.md R247) -/

theorem shiftLeft_number (v : Byte) : v <<< 1 = BitVec.ofNat 8 (2 * v.toNat) := by
  apply BitVec.eq_of_toNat_eq
  simp [Nat.shiftLeft_eq, Nat.mul_comm]

theorem shiftRight_number (v : Byte) : v >>> 1 = BitVec.ofNat 8 (v.toNat / 2) := by
  have h := v.isLt
  apply BitVec.eq_of_toNat_eq
  simp [Nat.shiftRight_eq_div_pow]
  omega

theorem rotateLeft_number (v : Byte) (c : Bool) : (v <<< 1) ||| bitAt c 0 = BitVec.ofNat 8 (2 * v.toNat + c.toNat) := by
  have h : (v <<< 1) ||| bitAt c 0 = (v <<< 1) + bitAt c 0 := by
    rw [BitVec.add_eq_or_of_and_eq_zero]
    apply BitVec.eq_of_getLsbD_eq
    intro i _
    rw [BitVec.getLsbD_and, bitAt_getLsbD]
    by_cases h0 : 0 = i
    · subst h0
      simp
    · simp [h0]
  rw [h, shiftLeft_number]
  apply BitVec.eq_of_toNat_eq
  simp [(bitAt_toNat c).1]

theorem rotateRight_number (v : Byte) (c : Bool) :
    (v >>> 1) ||| bitAt c 7 = BitVec.ofNat 8 (v.toNat / 2 + 128 * c.toNat) := by
  have h : (v >>> 1) ||| bitAt c 7 = (v >>> 1) + bitAt c 7 := by
    rw [BitVec.add_eq_or_of_and_eq_zero]
    apply BitVec.eq_of_getLsbD_eq
    intro i _
    rw [BitVec.getLsbD_and, bitAt_getLsbD]
    by_cases h7 : 7 = i
    · subst h7
      simp
    · simp [h7]
  rw [h, shiftRight_number]
  apply BitVec.eq_of_toNat_eq
  simp [(bitAt_toNat c).2]

@[simp] theorem modifyResult_shiftLeft (c : Bool) (v : Byte) :
    modifyResult .shiftLeft c v = BitVec.ofNat 8 (2 * v.toNat) := shiftLeft_number v

@[simp] theorem modifyResult_shiftRight (c : Bool) (v : Byte) :
    modifyResult .shiftRight c v = BitVec.ofNat 8 (v.toNat / 2) := shiftRight_number v

@[simp] theorem modifyResult_rotateLeft (c : Bool) (v : Byte) :
    modifyResult .rotateLeft c v = BitVec.ofNat 8 (2 * v.toNat + c.toNat) := rotateLeft_number v c

@[simp] theorem modifyResult_rotateRight (c : Bool) (v : Byte) :
    modifyResult .rotateRight c v = BitVec.ofNat 8 (v.toNat / 2 + 128 * c.toNat) := rotateRight_number v c

@[simp] theorem modifyResult_increment (c : Bool) (v : Byte) : modifyResult .increment c v = v + 1 := rfl

@[simp] theorem modifyResult_decrement (c : Bool) (v : Byte) : modifyResult .decrement c v = v - 1 := rfl

/-- The carry a modify function leaves, as a number: the bit shifted out. -/
theorem modifyCarry_number (op : ModifyOp) (c : Bool) (v : Byte) :
    modifyCarry op c v
      = match op with
        | .shiftLeft => decide (128 ≤ v.toNat)
        | .rotateLeft => decide (128 ≤ v.toNat)
        | .shiftRight => decide (v.toNat % 2 = 1)
        | .rotateRight => decide (v.toNat % 2 = 1)
        | .increment => c
        | .decrement => c := by
  cases op
  · exact top_bit v
  · exact low_bit v
  · exact top_bit v
  · exact low_bit v
  · rfl
  · rfl

theorem modifyFlags_eq (op : ModifyOp) (v : Byte) (p : Flags) :
    modifyFlags op v p = nzOf (modifyResult op p.c v) { p with c := modifyCarry op p.c v } :=
  setNZ_eq _ _

end Sys2Proof.Machine
end

