-- ==== Sys2Proof/Laws/Frames.lean ====
section
/-! SUPPORT. Updates of registers, flags and the cycle count respect every frame: what an instruction does to the machine
is what its one operand access does. -/

namespace Sys2Proof.Machine

/-- `t` is `u` but for registers, flags and the reported cycles. -/
def OnlyRegs (u t : State) : Prop :=
  t = { u with a := t.a, x := t.x, y := t.y, sp := t.sp, pc := t.pc, p := t.p, cycles := t.cycles }

namespace OnlyRegs

variable {s u t : State} (h : OnlyRegs u t)

include h

theorem frame (f : MachineFrame s u) : MachineFrame s t := by
  rw [h]
  exact ⟨f.1, f.2, f.3, f.4, f.5, f.6, f.7, f.8, f.9, f.10⟩

theorem noStore (f : NoStore s u) : NoStore s t := by
  rw [h]
  exact ⟨f.1, f.2, f.3, f.4, f.5⟩

theorem noAccess (f : NoAccess s u) : NoAccess s t := by
  rw [h]
  exact ⟨⟨f.1.1, f.1.2, f.1.3, f.1.4, f.1.5⟩, f.2, f.3, f.4, f.5⟩

theorem lastRead {addr : Word} {v : Byte} (f : LastRead addr v u) : LastRead addr v t := by
  rw [h]
  exact ⟨f.1, f.2, f.3⟩

theorem oneStore {k : Nat} {addr : Word} {v : Byte} (f : OneStore k addr v s u) : OneStore k addr v s t := by
  rw [h]
  exact ⟨f.1, f.2, f.3, f.4, f.5, f.6, f.7, f.8⟩

theorem operandRead {o : ReadOperand} (f : OperandRead o s u) : OperandRead o s t := by
  cases o with
  | imm v => exact noAccess h f
  | mem m => exact ⟨noStore h f.1, lastRead h f.2⟩

end OnlyRegs

/-- What an instruction that loads an operand and then updates registers does to the machine. -/
theorem frame_of_load {o : ReadOperand} {s t : State} (h : OnlyRegs (load o s).2 t) :
    MachineFrame s t ∧ OperandRead o s t :=
  ⟨h.frame (load_frame o s).1, h.operandRead (load_frame o s).2⟩

/-- What an instruction that modifies memory and then updates registers does to the machine. -/
theorem frame_of_modify {op : ModifyOp} {m : MemMode} {s t : State} (h : OnlyRegs (modifyMem op m s).2 t) :
    MachineFrame s t ∧ OneStore (modifyCycles m) (operandAddr m s) (modifyResult op s.p.c (operandByte m s)) s t :=
  ⟨h.frame (modifyMem_frame op m s), h.oneStore (modifyMem_oneStore op m s)⟩

end Sys2Proof.Machine
end

