-- ==== Sys2Proof/Laws/PerInstr.lean ====
section
/-! SUPPORT. The family EncodeLength: per instruction, it has bytes exactly when it is well formed, and they are as many as
30_encoding.md R184 says. -/

namespace Sys2Proof.Laws.EncodeLength

/-- Length in bytes by addressing mode (30_encoding.md R161, R184). -/
def modeLength : MemMode → Nat
  | .zp _ => 2
  | .zpx _ => 2
  | .zpy _ => 2
  | .abs _ => 3
  | .abx _ => 3
  | .aby _ => 3
  | .izx _ => 2
  | .izy _ => 2

def readLength : ReadOperand → Nat
  | .imm _ => 2
  | .mem m => modeLength m

def modifyLength : ModifyOperand → Nat
  | .acc => 1
  | .mem m => modeLength m

def nopLength : NopForm → Nat
  | .imp _ => 1
  | .imm _ _ => 2
  | .zp _ _ => 2
  | .zpx _ _ => 2
  | .abs _ => 3
  | .abx _ _ => 3

/-- The length of an instruction from its operand (R184). -/
def length : Instr → Nat
  | .lda o => readLength o
  | .ldx o => readLength o
  | .ldy o => readLength o
  | .sta m => modeLength m
  | .stx m => modeLength m
  | .sty m => modeLength m
  | .tax => 1
  | .tay => 1
  | .txa => 1
  | .tya => 1
  | .tsx => 1
  | .txs => 1
  | .pha => 1
  | .php => 1
  | .pla => 1
  | .plp => 1
  | .adc o => readLength o
  | .sbc o => readLength o
  | .and o => readLength o
  | .ora o => readLength o
  | .eor o => readLength o
  | .cmp o => readLength o
  | .cpx o => readLength o
  | .cpy o => readLength o
  | .bit m => modeLength m
  | .inc m => modeLength m
  | .dec m => modeLength m
  | .inx => 1
  | .iny => 1
  | .dex => 1
  | .dey => 1
  | .asl o => modifyLength o
  | .lsr o => modifyLength o
  | .rol o => modifyLength o
  | .ror o => modifyLength o
  | .bpl _ => 2
  | .bmi _ => 2
  | .bvc _ => 2
  | .bvs _ => 2
  | .bcc _ => 2
  | .bcs _ => 2
  | .bne _ => 2
  | .beq _ => 2
  | .jmp _ => 3
  | .jsr _ => 3
  | .rts => 1
  | .rti => 1
  | .brk => 1
  | .clc => 1
  | .sec => 1
  | .cli => 1
  | .sei => 1
  | .cld => 1
  | .sed => 1
  | .clv => 1
  | .nop f => nopLength f
  | .slo m => modeLength m
  | .rla m => modeLength m
  | .sre m => modeLength m
  | .rra m => modeLength m
  | .sax m => modeLength m
  | .lax m => modeLength m
  | .dcp m => modeLength m
  | .isc m => modeLength m
  | .anc _ _ => 2
  | .alr _ => 2
  | .arr _ => 2
  | .sbx _ => 2
  | .ane _ => 2
  | .lxa _ => 2
  | .sha m => modeLength m
  | .shx _ => 3
  | .shy _ => 3
  | .tas _ => 3
  | .las _ => 3
  | .usbc _ => 2
  | .jam _ => 1

/-- The family's statement. -/
def Statement (i : Instr) : Prop :=
  (encode i).isSome = i.wellFormed ∧ ∀ bytes, encode i = some bytes → bytes.length = length i

/-- A fixed list of bytes of the right length. -/
theorem of_bytes {i : Instr} {bytes : List Byte} (h : encode i = some bytes) (hw : i.wellFormed = true)
    (hl : bytes.length = length i) : Statement i := by
  refine ⟨by rw [h, hw]; rfl, fun b hb => ?_⟩
  rw [h] at hb
  cases hb
  exact hl

/-- A memory mode, once its eight cases hold. -/
theorem of_modes {f : MemMode → Instr} (h : ∀ m, (encode (f m)).isSome = (f m).wellFormed)
    (hl : ∀ m bytes, encode (f m) = some bytes → bytes.length = length (f m)) (m : MemMode) : Statement (f m) :=
  ⟨h m, hl m⟩

theorem lda (o : ReadOperand) : Statement (.lda o) := by
  cases o with
  | imm v => exact of_bytes rfl rfl rfl
  | mem m => exact of_modes (f := fun m => .lda (.mem m)) (fun m => by cases m <;> rfl) (fun m b h => by cases m <;> cases h <;> rfl) m

theorem ldx (o : ReadOperand) : Statement (.ldx o) := by
  cases o with
  | imm v => exact of_bytes rfl rfl rfl
  | mem m => exact of_modes (f := fun m => .ldx (.mem m)) (fun m => by cases m <;> rfl) (fun m b h => by cases m <;> cases h <;> rfl) m

theorem ldy (o : ReadOperand) : Statement (.ldy o) := by
  cases o with
  | imm v => exact of_bytes rfl rfl rfl
  | mem m => exact of_modes (f := fun m => .ldy (.mem m)) (fun m => by cases m <;> rfl) (fun m b h => by cases m <;> cases h <;> rfl) m

theorem sta (m : MemMode) : Statement (.sta m) :=
  of_modes (fun m => by cases m <;> rfl) (fun m b h => by cases m <;> cases h <;> rfl) m

theorem stx (m : MemMode) : Statement (.stx m) :=
  of_modes (fun m => by cases m <;> rfl) (fun m b h => by cases m <;> cases h <;> rfl) m

theorem sty (m : MemMode) : Statement (.sty m) :=
  of_modes (fun m => by cases m <;> rfl) (fun m b h => by cases m <;> cases h <;> rfl) m

theorem tax : Statement .tax := of_bytes rfl rfl rfl

theorem tay : Statement .tay := of_bytes rfl rfl rfl

theorem txa : Statement .txa := of_bytes rfl rfl rfl

theorem tya : Statement .tya := of_bytes rfl rfl rfl

theorem tsx : Statement .tsx := of_bytes rfl rfl rfl

theorem txs : Statement .txs := of_bytes rfl rfl rfl

theorem pha : Statement .pha := of_bytes rfl rfl rfl

theorem php : Statement .php := of_bytes rfl rfl rfl

theorem pla : Statement .pla := of_bytes rfl rfl rfl

theorem plp : Statement .plp := of_bytes rfl rfl rfl

theorem adc (o : ReadOperand) : Statement (.adc o) := by
  cases o with
  | imm v => exact of_bytes rfl rfl rfl
  | mem m => exact of_modes (f := fun m => .adc (.mem m)) (fun m => by cases m <;> rfl) (fun m b h => by cases m <;> cases h <;> rfl) m

theorem sbc (o : ReadOperand) : Statement (.sbc o) := by
  cases o with
  | imm v => exact of_bytes rfl rfl rfl
  | mem m => exact of_modes (f := fun m => .sbc (.mem m)) (fun m => by cases m <;> rfl) (fun m b h => by cases m <;> cases h <;> rfl) m

theorem and (o : ReadOperand) : Statement (.and o) := by
  cases o with
  | imm v => exact of_bytes rfl rfl rfl
  | mem m => exact of_modes (f := fun m => .and (.mem m)) (fun m => by cases m <;> rfl) (fun m b h => by cases m <;> cases h <;> rfl) m

theorem ora (o : ReadOperand) : Statement (.ora o) := by
  cases o with
  | imm v => exact of_bytes rfl rfl rfl
  | mem m => exact of_modes (f := fun m => .ora (.mem m)) (fun m => by cases m <;> rfl) (fun m b h => by cases m <;> cases h <;> rfl) m

theorem eor (o : ReadOperand) : Statement (.eor o) := by
  cases o with
  | imm v => exact of_bytes rfl rfl rfl
  | mem m => exact of_modes (f := fun m => .eor (.mem m)) (fun m => by cases m <;> rfl) (fun m b h => by cases m <;> cases h <;> rfl) m

theorem cmp (o : ReadOperand) : Statement (.cmp o) := by
  cases o with
  | imm v => exact of_bytes rfl rfl rfl
  | mem m => exact of_modes (f := fun m => .cmp (.mem m)) (fun m => by cases m <;> rfl) (fun m b h => by cases m <;> cases h <;> rfl) m

theorem cpx (o : ReadOperand) : Statement (.cpx o) := by
  cases o with
  | imm v => exact of_bytes rfl rfl rfl
  | mem m => exact of_modes (f := fun m => .cpx (.mem m)) (fun m => by cases m <;> rfl) (fun m b h => by cases m <;> cases h <;> rfl) m

theorem cpy (o : ReadOperand) : Statement (.cpy o) := by
  cases o with
  | imm v => exact of_bytes rfl rfl rfl
  | mem m => exact of_modes (f := fun m => .cpy (.mem m)) (fun m => by cases m <;> rfl) (fun m b h => by cases m <;> cases h <;> rfl) m

theorem bit (m : MemMode) : Statement (.bit m) :=
  of_modes (fun m => by cases m <;> rfl) (fun m b h => by cases m <;> cases h <;> rfl) m

theorem inc (m : MemMode) : Statement (.inc m) :=
  of_modes (fun m => by cases m <;> rfl) (fun m b h => by cases m <;> cases h <;> rfl) m

theorem dec (m : MemMode) : Statement (.dec m) :=
  of_modes (fun m => by cases m <;> rfl) (fun m b h => by cases m <;> cases h <;> rfl) m

theorem inx : Statement .inx := of_bytes rfl rfl rfl

theorem iny : Statement .iny := of_bytes rfl rfl rfl

theorem dex : Statement .dex := of_bytes rfl rfl rfl

theorem dey : Statement .dey := of_bytes rfl rfl rfl

theorem asl (o : ModifyOperand) : Statement (.asl o) := by
  cases o with
  | acc => exact of_bytes rfl rfl rfl
  | mem m => exact of_modes (f := fun m => .asl (.mem m)) (fun m => by cases m <;> rfl) (fun m b h => by cases m <;> cases h <;> rfl) m

theorem lsr (o : ModifyOperand) : Statement (.lsr o) := by
  cases o with
  | acc => exact of_bytes rfl rfl rfl
  | mem m => exact of_modes (f := fun m => .lsr (.mem m)) (fun m => by cases m <;> rfl) (fun m b h => by cases m <;> cases h <;> rfl) m

theorem rol (o : ModifyOperand) : Statement (.rol o) := by
  cases o with
  | acc => exact of_bytes rfl rfl rfl
  | mem m => exact of_modes (f := fun m => .rol (.mem m)) (fun m => by cases m <;> rfl) (fun m b h => by cases m <;> cases h <;> rfl) m

theorem ror (o : ModifyOperand) : Statement (.ror o) := by
  cases o with
  | acc => exact of_bytes rfl rfl rfl
  | mem m => exact of_modes (f := fun m => .ror (.mem m)) (fun m => by cases m <;> rfl) (fun m b h => by cases m <;> cases h <;> rfl) m

theorem bpl (off : Byte) : Statement (.bpl off) := of_bytes rfl rfl rfl

theorem bmi (off : Byte) : Statement (.bmi off) := of_bytes rfl rfl rfl

theorem bvc (off : Byte) : Statement (.bvc off) := of_bytes rfl rfl rfl

theorem bvs (off : Byte) : Statement (.bvs off) := of_bytes rfl rfl rfl

theorem bcc (off : Byte) : Statement (.bcc off) := of_bytes rfl rfl rfl

theorem bcs (off : Byte) : Statement (.bcs off) := of_bytes rfl rfl rfl

theorem bne (off : Byte) : Statement (.bne off) := of_bytes rfl rfl rfl

theorem beq (off : Byte) : Statement (.beq off) := of_bytes rfl rfl rfl

theorem jmp (t : JumpOperand) : Statement (.jmp t) := by cases t <;> exact of_bytes rfl rfl rfl

theorem jsr (t : Word) : Statement (.jsr t) := of_bytes rfl rfl rfl

theorem rts : Statement .rts := of_bytes rfl rfl rfl

theorem rti : Statement .rti := of_bytes rfl rfl rfl

theorem brk : Statement .brk := of_bytes rfl rfl rfl

theorem clc : Statement .clc := of_bytes rfl rfl rfl

theorem sec : Statement .sec := of_bytes rfl rfl rfl

theorem cli : Statement .cli := of_bytes rfl rfl rfl

theorem sei : Statement .sei := of_bytes rfl rfl rfl

theorem cld : Statement .cld := of_bytes rfl rfl rfl

theorem sed : Statement .sed := of_bytes rfl rfl rfl

theorem clv : Statement .clv := of_bytes rfl rfl rfl

theorem nop (f : NopForm) : Statement (.nop f) := by cases f <;> exact of_bytes rfl rfl rfl

theorem slo (m : MemMode) : Statement (.slo m) :=
  of_modes (fun m => by cases m <;> rfl) (fun m b h => by cases m <;> cases h <;> rfl) m

theorem rla (m : MemMode) : Statement (.rla m) :=
  of_modes (fun m => by cases m <;> rfl) (fun m b h => by cases m <;> cases h <;> rfl) m

theorem sre (m : MemMode) : Statement (.sre m) :=
  of_modes (fun m => by cases m <;> rfl) (fun m b h => by cases m <;> cases h <;> rfl) m

theorem rra (m : MemMode) : Statement (.rra m) :=
  of_modes (fun m => by cases m <;> rfl) (fun m b h => by cases m <;> cases h <;> rfl) m

theorem sax (m : MemMode) : Statement (.sax m) :=
  of_modes (fun m => by cases m <;> rfl) (fun m b h => by cases m <;> cases h <;> rfl) m

theorem lax (m : MemMode) : Statement (.lax m) :=
  of_modes (fun m => by cases m <;> rfl) (fun m b h => by cases m <;> cases h <;> rfl) m

theorem dcp (m : MemMode) : Statement (.dcp m) :=
  of_modes (fun m => by cases m <;> rfl) (fun m b h => by cases m <;> cases h <;> rfl) m

theorem isc (m : MemMode) : Statement (.isc m) :=
  of_modes (fun m => by cases m <;> rfl) (fun m b h => by cases m <;> cases h <;> rfl) m

theorem anc (k : Fin 2) (v : Byte) : Statement (.anc k v) := of_bytes rfl rfl rfl

theorem alr (v : Byte) : Statement (.alr v) := of_bytes rfl rfl rfl

theorem arr (v : Byte) : Statement (.arr v) := of_bytes rfl rfl rfl

theorem sbx (v : Byte) : Statement (.sbx v) := of_bytes rfl rfl rfl

theorem ane (v : Byte) : Statement (.ane v) := of_bytes rfl rfl rfl

theorem lxa (v : Byte) : Statement (.lxa v) := of_bytes rfl rfl rfl

theorem sha (m : MemMode) : Statement (.sha m) :=
  of_modes (fun m => by cases m <;> rfl) (fun m b h => by cases m <;> cases h <;> rfl) m

theorem shx (a : Word) : Statement (.shx a) := of_bytes rfl rfl rfl

theorem shy (a : Word) : Statement (.shy a) := of_bytes rfl rfl rfl

theorem tas (a : Word) : Statement (.tas a) := of_bytes rfl rfl rfl

theorem las (a : Word) : Statement (.las a) := of_bytes rfl rfl rfl

theorem usbc (v : Byte) : Statement (.usbc v) := of_bytes rfl rfl rfl

theorem jam (k : Fin 12) : Statement (.jam k) := of_bytes rfl rfl rfl

end Sys2Proof.Laws.EncodeLength
end

