-- ==== Sys2Proof/Laws/Step.lean ====
section
/-! SUPPORT. Said once: what one step can be, and what it keeps. -/

namespace Sys2Proof.Machine

/-! ## Fetching -/

namespace Closed

variable {n : Nat} {P : State → Prop} (h : Closed n P) {u : State}

include h

theorem fetch8 (hu : P u) : P (fetch8 u).2 := h.withPc _ (h.read _ _ hu)

theorem fetch (hu : P u) : P (fetch u).2 := by
  unfold Machine.fetch
  dsimp only
  split
  · exact h.fetch8 hu
  · exact h.fetch8 (h.fetch8 hu)
  · exact h.fetch8 (h.fetch8 (h.fetch8 hu))

end Closed

@[simp] theorem fetchedLayout_running (op : Byte) : fetchedLayout false op = layoutOf op := rfl

@[simp] theorem fetchedLayout_jammed (op : Byte) : fetchedLayout true op = .one (.jam 0) := rfl

/-- What a fetch is while the CPU runs, by the layout of the byte at PC. -/
theorem fetch_running {s : State} (h : s.jammed = false) :
    fetch s = match layoutOf (fetch8 s).1 with
      | .one i => (i, (fetch8 s).2)
      | .byte f => (f (fetch8 (fetch8 s).2).1, (fetch8 (fetch8 s).2).2)
      | .word f =>
        (f (wordOf (fetch8 (fetch8 s).2).1 (fetch8 (fetch8 (fetch8 s).2).2).1), (fetch8 (fetch8 (fetch8 s).2).2).2) := by
  cases hl : layoutOf (fetch8 s).1 <;> simp [fetch, h, hl]

/-- A jammed CPU fetches one byte and has the halt opcode, whatever the byte is. -/
theorem fetch_jammed {s : State} (h : s.jammed = true) : fetch s = (.jam 0, (fetch8 s).2) := by
  simp [fetch, h]

@[simp] theorem pendingInterrupt_jammed {s : State} (h : s.jammed = true) : pendingInterrupt s = none := by
  simp [pendingInterrupt, h]

/-! ## The cases of a step -/

/-- A step is a halted cycle, an interrupt entry, or an instruction. -/
theorem step_cases {s t : State} (h : step s = .next t) :
    (halted s = true ∧ t = haltedTick s)
      ∨ (halted s = false ∧ ∃ int, pendingInterrupt s = some int ∧ t = finishTick (takeInterrupt s int))
      ∨ (halted s = false ∧ pendingInterrupt s = none
          ∧ ∃ u, exec (fetch s).1 (fetch s).2 = .next u ∧ t = finishTick u) := by
  unfold step at h
  by_cases hh : halted s = true
  · simp only [hh, if_true, Host.Outcome.next.injEq] at h
    exact .inl ⟨hh, h.symm⟩
  · rw [Bool.not_eq_true] at hh
    simp only [hh, Bool.false_eq_true, if_false] at h
    cases hp : pendingInterrupt s with
    | some int =>
      simp only [hp, Host.Outcome.next.injEq] at h
      exact .inr (.inl ⟨hh, int, rfl, h.symm⟩)
    | none =>
      obtain ⟨u, hu⟩ := exec_next (fetch s).1 (fetch s).2
      simp only [hp, hu, finish, Host.Outcome.next.injEq] at h
      exact .inr (.inr ⟨hh, rfl, u, hu, h.symm⟩)

/-- Every step answers a next state. -/
theorem step_next (s : State) : ∃ t, step s = .next t := by
  unfold step
  split
  · exact ⟨_, rfl⟩
  · split
    · exact ⟨_, rfl⟩
    · obtain ⟨u, hu⟩ := exec_next (fetch s).1 (fetch s).2
      exact ⟨finishTick u, by simp [hu, finish]⟩

/-- The step of a jammed CPU that is not halted: one read at PC, the jam's cycles, nothing else of the CPU. -/
theorem step_jammed {s : State} (h : s.jammed = true) (hh : halted s = false) :
    step s = .next (elapse s.cfg.jamCycles { (busRead s.pc s).2 with cycles := s.cfg.jamCycles }) := by
  simp [step, hh, h, fetch_jammed h, exec, execJam, finish, finishTick, fetch8, busRead, State.withPc,
    State.withCycles]

/-- A step is some work of the CPU, closed under what instructions and entries do, and then the time it took: one cycle
when halted, else what the CPU reports. -/
theorem step_work {s t : State} (h : step s = .next t) :
    ∃ n u, t = elapse n u ∧ (halted s = true ∧ n = 1 ∧ u = s ∨ halted s = false ∧ n = u.cycles)
      ∧ ∀ P : State → Prop, Closed n P → (∀ v, P v → P { v with nmiPending := false }) → P s → P u := by
  rcases step_cases h with ⟨hh, rfl⟩ | ⟨hh, int, _, rfl⟩ | ⟨hh, _, u, hu, rfl⟩
  · exact ⟨1, s, rfl, .inl ⟨hh, rfl, rfl⟩, fun _ _ _ hs => hs⟩
  · refine ⟨_, _, rfl, .inr ⟨hh, rfl⟩, fun P hP hn hs => ?_⟩
    cases int with
    | nmi => exact hP.enterInterrupt _ _ _ (Nat.le_refl 7) (hn s hs)
    | irq => exact hP.enterInterrupt _ _ _ (Nat.le_refl 7) hs
  · obtain ⟨w, hw, hall⟩ := exec_closed (fetch s).1 (fetch s).2
    cases hw.symm.trans hu
    exact ⟨_, _, rfl, .inr ⟨hh, rfl⟩, fun P hP _ hs => hall P hP (hP.fetch hs)⟩

/-! ## Elapsed time -/
@[simp] theorem elapse_a (n : Nat) (s : State) : (elapse n s).a = s.a := by unfold elapse periphClock; dsimp only; split <;> rfl
@[simp] theorem elapse_x (n : Nat) (s : State) : (elapse n s).x = s.x := by unfold elapse periphClock; dsimp only; split <;> rfl
@[simp] theorem elapse_y (n : Nat) (s : State) : (elapse n s).y = s.y := by unfold elapse periphClock; dsimp only; split <;> rfl
@[simp] theorem elapse_sp (n : Nat) (s : State) : (elapse n s).sp = s.sp := by unfold elapse periphClock; dsimp only; split <;> rfl
@[simp] theorem elapse_pc (n : Nat) (s : State) : (elapse n s).pc = s.pc := by unfold elapse periphClock; dsimp only; split <;> rfl
@[simp] theorem elapse_p (n : Nat) (s : State) : (elapse n s).p = s.p := by unfold elapse periphClock; dsimp only; split <;> rfl
@[simp] theorem elapse_jammed (n : Nat) (s : State) : (elapse n s).jammed = s.jammed := by unfold elapse periphClock; dsimp only; split <;> rfl
@[simp] theorem elapse_nmiPending (n : Nat) (s : State) : (elapse n s).nmiPending = s.nmiPending := by unfold elapse periphClock; dsimp only; split <;> rfl
@[simp] theorem elapse_mode (n : Nat) (s : State) : (elapse n s).mode = s.mode := by unfold elapse periphClock; dsimp only; split <;> rfl
@[simp] theorem elapse_mem (n : Nat) (s : State) : (elapse n s).mem = s.mem := by unfold elapse periphClock; dsimp only; split <;> rfl
@[simp] theorem elapse_ram (n : Nat) (s : State) : (elapse n s).ram = s.ram := by unfold elapse periphClock; dsimp only; split <;> rfl
@[simp] theorem elapse_rom (n : Nat) (s : State) : (elapse n s).rom = s.rom := by unfold elapse periphClock; dsimp only; split <;> rfl
@[simp] theorem elapse_lastAddr (n : Nat) (s : State) : (elapse n s).lastAddr = s.lastAddr := by unfold elapse periphClock; dsimp only; split <;> rfl
@[simp] theorem elapse_lastData (n : Nat) (s : State) : (elapse n s).lastData = s.lastData := by unfold elapse periphClock; dsimp only; split <;> rfl
@[simp] theorem elapse_lastRw (n : Nat) (s : State) : (elapse n s).lastRw = s.lastRw := by unfold elapse periphClock; dsimp only; split <;> rfl
@[simp] theorem elapse_image (n : Nat) (s : State) : (elapse n s).image = s.image := by unfold elapse periphClock; dsimp only; split <;> rfl
@[simp] theorem elapse_loaded (n : Nat) (s : State) : (elapse n s).loaded = s.loaded := by unfold elapse periphClock; dsimp only; split <;> rfl
@[simp] theorem elapse_budgetTarget (n : Nat) (s : State) : (elapse n s).budgetTarget = s.budgetTarget := by unfold elapse periphClock; dsimp only; split <;> rfl
@[simp] theorem elapse_cfg (n : Nat) (s : State) : (elapse n s).cfg = s.cfg := by unfold elapse periphClock; dsimp only; split <;> rfl
@[simp] theorem elapse_irqLine (n : Nat) (s : State) : (elapse n s).irqLine = s.irqLine := by unfold elapse periphClock; dsimp only; split <;> rfl
@[simp] theorem elapse_cycles (n : Nat) (s : State) : (elapse n s).cycles = s.cycles := by unfold elapse periphClock; dsimp only; split <;> rfl
@[simp] theorem elapse_draws (n : Nat) (s : State) : (elapse n s).draws = s.draws := by unfold elapse periphClock; dsimp only; split <;> rfl
@[simp] theorem elapse_totalCycles (n : Nat) (s : State) : (elapse n s).totalCycles = s.totalCycles + n := by
  unfold elapse periphClock; dsimp only; split <;> rfl
@[simp] theorem elapse_events (n : Nat) (s : State) : (elapse n s).events = .clock n :: s.events := by
  unfold elapse periphClock; dsimp only; split <;> rfl
theorem elapse_video (n : Nat) (s : State) :
    (elapse n s).video = if s.dual then videoSteps s.cfg (3 * n) s.video else s.video := by
  unfold elapse periphClock; dsimp only; split <;> rfl
@[simp] theorem elapse_target (n : Nat) (s : State) (b : Word) : (elapse n s).target b = s.target b := by
  simp [State.target]
@[simp] theorem elapse_peek (n : Nat) (s : State) (b : Word) : (elapse n s).peek b = s.peek b := by
  simp [State.peek, State.memByte, State.romByte, State.ramByte]
@[simp] theorem elapse_wf (n : Nat) (s : State) : Memory.wf (elapse n s) = Memory.wf s := by
  simp [Memory.wf]
@[simp] theorem elapse_dual (n : Nat) (s : State) : (elapse n s).dual = s.dual := by simp [State.dual]

/-! ## What every step keeps -/

/-- A property kept by the CPU's work and by the passing of time is kept by every step. -/
theorem step_keeps {P : State → Prop} (h : ∀ n, Closed n P) (hn : ∀ v, P v → P { v with nmiPending := false })
    (he : ∀ n v, P v → P (elapse n v)) {s t : State} (hstep : step s = .next t) (hs : P s) : P t := by
  obtain ⟨n, u, rfl, _, hall⟩ := step_work hstep
  exact he n u (hall P (h n) hn hs)

end Sys2Proof.Machine
end

