-- ==== Sys2Proof/Laws/Reset.lean ====
section
/-! SUPPORT. The state after reset, the reset procedure, loading and the placing of an instruction: they keep the canonical
form of memory, and `State.reset` is what the procedure leaves. -/

namespace Sys2Proof.Machine

/-- Resetting the machine that has just been reset changes nothing: `State.reset` is what the reset procedure leaves with
the default configuration and nothing loaded (70_reset_and_hazards.md R580 to R585). -/
theorem hostReset_reset : hostReset State.reset = .next State.reset := by rfl

theorem reset_memory_wf : Memory.wf State.reset = true := by rfl

theorem busReset_memory_wf (s : State) : Memory.wf (busReset s) = true := by rfl

/-- A completed reset leaves every memory array as its loader filled it, in canonical form. -/
theorem hostReset_memory_wf {s t : State} (h : hostReset s = .next t) : Memory.wf t = true := by
  unfold hostReset at h
  split at h
  · cases h
  · cases h
    rfl

/-- Placing a byte keeps the canonical form. -/
theorem placeByte_keeps_wf (addr : Word) (v : Byte) {s : State} (h : Memory.wf s = true) :
    Memory.wf (placeByte addr v s) = true := by
  have hs := h
  simp only [Memory.wf, Bool.and_eq_true] at h
  unfold placeByte
  cases ht : s.target addr with
  | memory i w =>
    have hi : i < 65536 := target_memory ht ▸ addr.isLt
    simp only [Memory.wf, Bool.and_eq_true]
    exact ⟨⟨cellsWf_write v hi h.1.1, h.1.2⟩, h.2⟩
  | cartridge i =>
    have hi : i < 4096 := target_cartridge ht
    simp only [Memory.wf, Bool.and_eq_true]
    exact ⟨h.1, cellsWf_write v hi h.2⟩
  | consoleRam i =>
    have hi : i < 128 := target_consoleRam ht
    simp only [Memory.wf, Bool.and_eq_true]
    exact ⟨⟨h.1.1, cellsWf_write v hi h.1.2⟩, h.2⟩
  | video a => exact hs
  | peripheral p o => exact hs

theorem placeBytes_keeps_wf (bytes : List Byte) (addr : Word) {s : State} (h : Memory.wf s = true) :
    Memory.wf (placeBytes addr bytes s) = true := by
  induction bytes generalizing addr s with
  | nil => exact h
  | cons b rest ih => exact ih (addr + 1) (placeByte_keeps_wf addr b h)

/-- Placing an instruction where the next step fetches keeps the canonical form. -/
theorem withFetchWord_keeps_wf (nbits w : Nat) {s : State} (h : Memory.wf s = true) :
    Memory.wf (s.withFetchWord nbits w) = true :=
  placeBytes_keeps_wf _ _ h

end Sys2Proof.Machine
end

