-- ==== Sys2Proof/Laws/Video.lean ====
section
/-! SUPPORT. What one color clock of the video engine can do: which fields each phase touches, the beam counter, the
queue, and the legal states every color clock keeps. -/

namespace Sys2Proof.Machine

/-! ## Write effects -/

@[simp] theorem applyReg_h (cfg : Config) (reg : VReg) (b : Byte) (v : Video) : (applyReg cfg reg b v).h = v.h := by
  cases reg <;> simp only [applyReg, applyVsync, applyHmove]
  split
  · rfl
  · split <;> rfl

@[simp] theorem applyReg_queue (cfg : Config) (reg : VReg) (b : Byte) (v : Video) :
    (applyReg cfg reg b v).queue = v.queue := by
  cases reg <;> simp only [applyReg, applyVsync, applyHmove]
  split
  · rfl
  · split <;> rfl

@[simp] theorem applyReg_fb (cfg : Config) (reg : VReg) (b : Byte) (v : Video) : (applyReg cfg reg b v).fb = v.fb := by
  cases reg <;> simp only [applyReg, applyVsync, applyHmove]
  split
  · rfl
  · split <;> rfl

theorem applyReg_line (cfg : Config) (reg : VReg) (b : Byte) (v : Video) :
    (applyReg cfg reg b v).line = v.line ∨ (applyReg cfg reg b v).line = 0 := by
  cases reg <;> simp only [applyReg, applyVsync, applyHmove, true_or]
  split
  · exact .inr rfl
  · split <;> exact .inl rfl

theorem wrapColumn_lt (n : Int) : wrapColumn n < visibleWidth := by
  unfold wrapColumn visibleWidth
  omega

theorem resetPosition_lt (cfg : Config) (v : Video) (d : Nat) : resetPosition cfg v d < visibleWidth :=
  Nat.mod_lt _ (by decide)

theorem movedBy_lt (hm : Byte) (pos : Nat) : movedBy hm pos < visibleWidth := wrapColumn_lt _

theorem applyReg_positioned (cfg : Config) (reg : VReg) (b : Byte) {v : Video} (h : v.positioned = true) :
    (applyReg cfg reg b v).positioned = true := by
  simp only [Video.positioned, Bool.and_eq_true, decide_eq_true_eq] at h ⊢
  cases reg <;> simp only [applyReg, applyVsync, applyHmove] <;>
    first
    | exact h
    | (split
       · exact h
       · split <;> exact h)
    | simp [h, resetPosition_lt, movedBy_lt]

@[simp] theorem masked_and (m b : Byte) : masked m (b &&& m) = true := by
  simp [masked, BitVec.and_assoc]

@[simp] theorem masked_zero (m : Byte) : masked m 0#8 = true := by simp [masked]

theorem applyReg_masked (cfg : Config) (reg : VReg) (b : Byte) {v : Video} (h : v.regs.masked = true) :
    (applyReg cfg reg (b &&& keepMask reg) v).regs.masked = true := by
  simp only [VideoRegs.masked, Bool.and_eq_true] at h ⊢
  cases reg <;> simp only [applyReg, applyVsync, applyHmove] <;>
    first
    | exact h
    | (split
       · simp [h]
       · split <;> simp [h])
    | simp [h]

@[simp] theorem applyWrite_h (cfg : Config) (v : Video) (w : PendingWrite) : (applyWrite cfg v w).h = v.h := by
  unfold applyWrite; split <;> simp

@[simp] theorem applyWrite_queue (cfg : Config) (v : Video) (w : PendingWrite) :
    (applyWrite cfg v w).queue = v.queue := by
  unfold applyWrite; split <;> simp

/-- A write neither reads nor changes the queue. -/
theorem applyWrite_withQueue (cfg : Config) (v : Video) (w : PendingWrite) (q : List PendingWrite) :
    applyWrite cfg { v with queue := q } w = { applyWrite cfg v w with queue := q } := by
  unfold applyWrite
  split
  · rename_i reg _
    cases reg <;> simp only [applyReg, applyHmove, applyVsync, resetPosition]
    split
    · rfl
    · split <;> rfl
  · rfl

/-- The delay still left is no part of a write's effect. -/
theorem applyWrite_countDown (cfg : Config) (v : Video) (w : PendingWrite) :
    applyWrite cfg v (countDown w) = applyWrite cfg v w := rfl

theorem applyWrite_wf (cfg : Config) (w : PendingWrite) (hl : 0 < (frameGeometry cfg).lines) {v : Video}
    (h : v.wf cfg = true) : (applyWrite cfg v w).wf cfg = true := by
  unfold applyWrite
  split
  · rename_i reg _
    simp only [Video.wf, Bool.and_eq_true, Video.inFrame, decide_eq_true_eq] at h ⊢
    obtain ⟨⟨⟨⟨hh, hline⟩, hp⟩, hm⟩, hf⟩ := h
    refine ⟨⟨⟨⟨by simpa using hh, ?_⟩, applyReg_positioned cfg reg _ hp⟩, applyReg_masked cfg reg _ hm⟩, ?_⟩
    · rcases applyReg_line cfg reg (w.value &&& keepMask reg) v with e | e <;> rw [e]
      · exact hline
      · exact hl
    · simpa [Video.fbWf] using hf
  · exact h

/-! ## The queue -/

/-- Draining applies writes and replaces the queue, and does nothing else. -/
theorem drainQueue_keeps {cfg : Config} {Q : Video → Prop} (hq : ∀ v q, Q v → Q { v with queue := q })
    (hw : ∀ v w, Q v → Q (applyWrite cfg v w)) (kept l : List PendingWrite) {v : Video} (h : Q v) :
    Q (drainQueue cfg kept l v) := by
  have hfold : ∀ (es : List PendingWrite) (u : Video), Q u → Q (es.foldl (applyWrite cfg) u) := by
    intro es
    induction es with
    | nil => exact fun u hu => hu
    | cons e es ih => exact fun u hu => ih _ (hw u e hu)
  induction l generalizing kept v with
  | nil => exact hq v kept h
  | cons w rest ih =>
    unfold drainQueue
    split
    · exact ih _ (hw _ w (hfold _ v h))
    · exact ih _ h

theorem phaseQueue_keeps {cfg : Config} {Q : Video → Prop} (hq : ∀ v q, Q v → Q { v with queue := q })
    (hw : ∀ v w, Q v → Q (applyWrite cfg v w)) {v : Video} (h : Q v) : Q (phaseQueue cfg v) :=
  drainQueue_keeps hq hw _ _ h

/-- What is left of a queue: entries of it that were not due, in order. -/
theorem drainQueue_queue (cfg : Config) (kept l : List PendingWrite) (v : Video) :
    ∀ w ∈ (drainQueue cfg kept l v).queue, w ∈ kept ∨ (w ∈ l ∧ w.remaining ≠ 0) := by
  induction l generalizing kept v with
  | nil => exact fun w hw => .inl hw
  | cons e rest ih =>
    intro w hw
    unfold drainQueue at hw
    split at hw
    · rcases ih _ _ w hw with h | ⟨h, h0⟩
      · exact .inl (List.mem_of_mem_filter h)
      · exact .inr ⟨List.mem_cons_of_mem _ h, h0⟩
    · rename_i hne
      rcases ih _ _ w hw with h | ⟨h, h0⟩
      · rcases List.mem_append.mp h with h | h
        · exact .inl h
        · rw [List.mem_singleton] at h
          subst h
          exact .inr ⟨List.mem_cons_self, hne⟩
      · exact .inr ⟨List.mem_cons_of_mem _ h, h0⟩

/-- A queue whose entries are all at most `n + 1` color clocks away is at most `n` away after one color clock. -/
theorem phaseQueue_remaining {cfg : Config} {v : Video} {n : Nat} (h : ∀ w ∈ v.queue, w.remaining ≤ n + 1) :
    ∀ w ∈ (phaseQueue cfg v).queue, 1 ≤ w.remaining ∧ w.remaining ≤ n := by
  intro w hw
  rcases drainQueue_queue cfg [] _ v w hw with h' | ⟨h', h0⟩
  · cases h'
  · obtain ⟨e, he, rfl⟩ := List.mem_map.mp h'
    have := h e he
    simp only [countDown] at h0 ⊢
    omega

theorem phaseQueue_of_empty {cfg : Config} {v : Video} (h : v.queue = []) : phaseQueue cfg v = v := by
  cases v
  simp_all [phaseQueue, drainQueue]

@[simp] theorem phaseQueue_h (cfg : Config) (v : Video) : (phaseQueue cfg v).h = v.h :=
  phaseQueue_keeps (Q := fun u => u.h = v.h) (fun _ _ h => h) (fun u w h => by simpa using h) rfl

/-! ## The later phases -/

@[simp] theorem phaseLock_h (cfg : Config) (v : Video) : (phaseLock cfg v).h = v.h := rfl
@[simp] theorem phaseLock_queue (cfg : Config) (v : Video) : (phaseLock cfg v).queue = v.queue := rfl
@[simp] theorem phaseDetect_h (v : Video) : (phaseDetect v).h = v.h := rfl
@[simp] theorem phaseDetect_queue (v : Video) : (phaseDetect v).queue = v.queue := rfl

theorem writePixel_eq (cfg : Config) (x : Nat) (c : Byte) (v : Video) :
    ∃ fb, writePixel cfg x c v = { v with fb := fb } := by
  unfold writePixel
  dsimp only
  split
  · exact ⟨_, rfl⟩
  · exact ⟨v.fb, rfl⟩

/-- Drawing touches the framebuffer and the collision latches only. -/
theorem phaseDraw_eq (cfg : Config) (v : Video) :
    ∃ fb cx, phaseDraw cfg v = { v with fb := fb, cx := cx } := by
  unfold phaseDraw
  dsimp only
  split
  · split
    · obtain ⟨fb, h⟩ := writePixel_eq cfg (v.h - cfg.hblankCc) 0 v
      exact ⟨fb, v.cx, by rw [h]⟩
    · obtain ⟨fb, h⟩ := writePixel_eq cfg (v.h - cfg.hblankCc)
        (pixelColour v.regs (signalsAt v (v.h - cfg.hblankCc)) (v.h - cfg.hblankCc)) v
      exact ⟨fb, _, by rw [h]⟩
  · exact ⟨v.fb, v.cx, rfl⟩

@[simp] theorem phaseDraw_h (cfg : Config) (v : Video) : (phaseDraw cfg v).h = v.h := by
  obtain ⟨fb, cx, h⟩ := phaseDraw_eq cfg v
  rw [h]
@[simp] theorem phaseDraw_queue (cfg : Config) (v : Video) : (phaseDraw cfg v).queue = v.queue := by
  obtain ⟨fb, cx, h⟩ := phaseDraw_eq cfg v
  rw [h]
@[simp] theorem phaseDraw_line (cfg : Config) (v : Video) : (phaseDraw cfg v).line = v.line := by
  obtain ⟨fb, cx, h⟩ := phaseDraw_eq cfg v
  rw [h]
@[simp] theorem phaseDraw_regs (cfg : Config) (v : Video) : (phaseDraw cfg v).regs = v.regs := by
  obtain ⟨fb, cx, h⟩ := phaseDraw_eq cfg v
  rw [h]
@[simp] theorem phaseDraw_positioned (cfg : Config) (v : Video) : (phaseDraw cfg v).positioned = v.positioned := by
  obtain ⟨fb, cx, h⟩ := phaseDraw_eq cfg v
  rw [h]; rfl

@[simp] theorem phaseAdvance_queue (cfg : Config) (v : Video) : (phaseAdvance cfg v).queue = v.queue := by
  unfold phaseAdvance; split <;> rfl
@[simp] theorem phaseAdvance_regs (cfg : Config) (v : Video) : (phaseAdvance cfg v).regs = v.regs := by
  unfold phaseAdvance; split <;> rfl
@[simp] theorem phaseAdvance_fb (cfg : Config) (v : Video) : (phaseAdvance cfg v).fb = v.fb := by
  unfold phaseAdvance; split <;> rfl
@[simp] theorem phaseAdvance_positioned (cfg : Config) (v : Video) :
    (phaseAdvance cfg v).positioned = v.positioned := by
  unfold phaseAdvance; split <;> rfl
theorem phaseAdvance_h (cfg : Config) (v : Video) :
    (phaseAdvance cfg v).h = if v.h + 1 = cfg.lineCc then 0 else v.h + 1 := by
  unfold phaseAdvance; split <;> rfl

/-! ## One color clock -/

/-- The beam counter moves by one and wraps, whatever else the color clock does (44_video_engine.md R441). -/
theorem videoStep_h (cfg : Config) (v : Video) :
    (videoStep cfg v).h = if v.h + 1 = cfg.lineCc then 0 else v.h + 1 := by
  simp [videoStep, phaseAdvance_h]

/-- The wrap ends a WSYNC halt and the HMOVE blanking (R441). -/
theorem videoStep_wrap {cfg : Config} {v : Video} (h : v.h + 1 = cfg.lineCc) :
    (videoStep cfg v).wsyncHalt = false ∧ (videoStep cfg v).hmoveBlank = false := by
  simp [videoStep, phaseAdvance, h]

theorem videoStep_remaining {cfg : Config} {v : Video} {n : Nat} (h : ∀ w ∈ v.queue, w.remaining ≤ n + 1) :
    ∀ w ∈ (videoStep cfg v).queue, 1 ≤ w.remaining ∧ w.remaining ≤ n := by
  simpa [videoStep] using phaseQueue_remaining (cfg := cfg) h

/-! ## Legal states -/

theorem pixelColour_even {r : VideoRegs} (h : r.masked = true) (g : Signals) (x : Nat) :
    (pixelColour r g x).getLsbD 0 = false := by
  have bit0 : ∀ b : Byte, masked (keepMask .colup0) b = true → b.getLsbD 0 = false := by
    intro b hb
    rw [masked, beq_iff_eq] at hb
    have h0 : (b &&& ~~~keepMask .colup0).getLsbD 0 = false := by rw [hb]; rfl
    simpa [keepMask] using h0
  simp only [VideoRegs.masked, Bool.and_eq_true] at h
  have h0 := bit0 r.colup0 (by simp [h])
  have h1 := bit0 r.colup1 (show masked (keepMask .colup1) _ = true by simp [h])
  have hf := bit0 r.colupf (show masked (keepMask .colupf) _ = true by simp [h])
  have hb := bit0 r.colubk (show masked (keepMask .colubk) _ = true by simp [h])
  unfold pixelColour playfieldColour
  split_ifs <;> assumption

theorem writePixel_fbWf {cfg : Config} {x : Nat} {c : Byte} {v : Video} (hx : x < visibleWidth)
    (hc : c.getLsbD 0 = false) (h : v.fbWf cfg = true) : (writePixel cfg x c v).fbWf cfg = true := by
  unfold writePixel
  dsimp only
  split
  · rename_i hrow
    simp only [Video.fbWf, Bool.and_eq_true, List.all_eq_true, Bool.not_eq_true'] at h ⊢
    have hlt : (v.line - visibleBase cfg v) * visibleWidth + x < visibleWidth * (frameGeometry cfg).fbHeight := by
      have h1 : v.line - visibleBase cfg v + 1 ≤ (frameGeometry cfg).fbHeight := hrow.2
      have h2 := Nat.mul_le_mul_left visibleWidth h1
      rw [Nat.mul_add, Nat.mul_one, Nat.mul_comm visibleWidth (v.line - visibleBase cfg v)] at h2
      omega
    refine ⟨cellsWf_write c hlt h.1, fun e he => ?_⟩
    unfold cellWrite at he
    split at he
    · exact h.2 e (mem_cellErase he)
    · rcases mem_cellInsert he with rfl | he
      · exact hc
      · exact h.2 e he
  · exact h

theorem phaseDraw_fbWf {cfg : Config} {v : Video} (hcfg : cfg.lineCc = cfg.hblankCc + visibleWidth)
    (hh : v.h < cfg.lineCc) (hm : v.regs.masked = true) (h : v.fbWf cfg = true) :
    (phaseDraw cfg v).fbWf cfg = true := by
  unfold phaseDraw
  split
  · rename_i hv
    have hx : v.h - cfg.hblankCc < visibleWidth := by
      simp only [visible, Bool.and_eq_true, decide_eq_true_eq] at hv
      omega
    dsimp only
    split
    · exact writePixel_fbWf hx rfl h
    · exact writePixel_fbWf hx (pixelColour_even hm _ _) h
  · exact h

theorem frame_lines_pos {cfg : Config} (h : validConfig cfg = true) : 0 < (frameGeometry cfg).lines := by
  simp only [validConfig, Bool.and_eq_true, decide_eq_true_eq] at h
  unfold frameGeometry
  cases cfg.videoStd
  · exact h.1.1.2
  · exact h.1.2

theorem lineCc_eq {cfg : Config} (h : validConfig cfg = true) : cfg.lineCc = cfg.hblankCc + visibleWidth := by
  simp only [validConfig, Bool.and_eq_true, beq_iff_eq] at h
  exact h.1.1.1.1

/-- One color clock keeps the legal states of the engine. -/
theorem videoStep_wf {cfg : Config} (hcfg : validConfig cfg = true) {v : Video} (h : v.wf cfg = true) :
    (videoStep cfg v).wf cfg = true := by
  have hl := frame_lines_pos hcfg
  have h₁ : (phaseQueue cfg v).wf cfg = true :=
    phaseQueue_keeps (Q := fun u => u.wf cfg = true) (fun _ _ hu => hu) (fun u w hu => applyWrite_wf cfg w hl hu) h
  revert h₁
  unfold videoStep
  generalize phaseQueue cfg v = u
  intro h₁
  simp only [Video.wf, Bool.and_eq_true, Video.inFrame, decide_eq_true_eq] at h₁
  obtain ⟨⟨⟨⟨hh, hline⟩, hp⟩, hm⟩, hf⟩ := h₁
  have hd : (phaseDraw cfg (phaseDetect (phaseLock cfg u))).fbWf cfg = true :=
    phaseDraw_fbWf (lineCc_eq hcfg) hh hm hf
  have hpos : (phaseDetect (phaseLock cfg u)).positioned = true := by
    simp only [Video.positioned, Bool.and_eq_true, decide_eq_true_eq] at hp ⊢
    have hlock : ∀ a b p q, q < visibleWidth → lockedPosition cfg a b p q < visibleWidth := by
      intro a b p q hq
      unfold lockedPosition
      split
      · exact Nat.mod_lt _ (by decide)
      · exact hq
    exact ⟨⟨⟨⟨hp.1.1.1.1, hp.1.1.1.2⟩, hlock _ _ _ _ hp.1.1.2⟩, hlock _ _ _ _ hp.1.2⟩, hp.2⟩
  have hmask : (phaseDetect (phaseLock cfg u)).regs.masked = true := hm
  have hline' : (phaseDetect (phaseLock cfg u)).line = u.line := rfl
  simp only [Video.wf, Video.inFrame, Bool.and_eq_true, decide_eq_true_eq, phaseAdvance_positioned, phaseAdvance_regs,
    phaseDraw_positioned, phaseDraw_regs, Video.fbWf, phaseAdvance_fb]
  refine ⟨⟨⟨⟨?_, ?_⟩, hpos⟩, hmask⟩, by simpa [Video.fbWf] using hd⟩
  · rw [phaseAdvance_h]
    simp only [phaseDraw_h, phaseDetect_h, phaseLock_h]
    split
    · omega
    · omega
  · unfold phaseAdvance
    split
    · exact Nat.mod_lt _ hl
    · simpa [hline'] using hline

/-! ## Many color clocks -/

theorem videoSteps_keeps {cfg : Config} {Q : Video → Prop} (h : ∀ v, Q v → Q (videoStep cfg v)) (n : Nat) {v : Video}
    (hv : Q v) : Q (videoSteps cfg n v) := by
  induction n generalizing v with
  | zero => exact hv
  | succ n ih => exact ih (h v hv)

theorem videoSteps_wf {cfg : Config} (hcfg : validConfig cfg = true) (n : Nat) {v : Video} (h : v.wf cfg = true) :
    (videoSteps cfg n v).wf cfg = true :=
  videoSteps_keeps (Q := fun u => u.wf cfg = true) (fun _ hu => videoStep_wf hcfg hu) n h

/-- After `n` color clocks the beam is `n` columns further, modulo the line. -/
theorem videoSteps_h (cfg : Config) (n : Nat) {v : Video} (h : v.h < cfg.lineCc) :
    (videoSteps cfg n v).h = (v.h + n) % cfg.lineCc := by
  induction n generalizing v with
  | zero => exact (Nat.mod_eq_of_lt h).symm
  | succ n ih =>
    have hs := videoStep_h cfg v
    have hlt : (videoStep cfg v).h < cfg.lineCc := by
      rw [hs]; split <;> omega
    rw [videoSteps, ih hlt, hs]
    split
    · rename_i hw
      have : v.h + (n + 1) = n + cfg.lineCc := by omega
      rw [this, Nat.add_mod_right, Nat.zero_add]
    · congr 1; omega

theorem videoSteps_add (cfg : Config) (m n : Nat) (v : Video) :
    videoSteps cfg (m + n) v = videoSteps cfg n (videoSteps cfg m v) := by
  induction m generalizing v with
  | zero => simp [videoSteps]
  | succ m ih => rw [Nat.add_right_comm, videoSteps, ih]; rfl

/-- After as many color clocks as its longest delay, and at least one, a queue is empty. -/
theorem videoSteps_queue_empty (cfg : Config) (n : Nat) {v : Video} (hn : 1 ≤ n)
    (h : ∀ w ∈ v.queue, w.remaining ≤ n) : (videoSteps cfg n v).queue = [] := by
  induction n generalizing v with
  | zero => omega
  | succ n ih =>
    have hstep := videoStep_remaining (cfg := cfg) h
    cases n with
    | zero =>
      rw [videoSteps, videoSteps]
      apply List.eq_nil_iff_forall_not_mem.mpr
      intro w hw
      have := hstep w hw
      omega
    | succ n => exact ih (by omega) fun w hw => (hstep w hw).2

end Sys2Proof.Machine
end

