-- ==== Sys2Proof/Tests/Slice0.lean ====
section
/-! SUPPORT. The model's own tests. Expected values come from the spec: the vectors of 95_test_vectors.md (named in each
comment), the map of 30_encoding.md R179, and the examples of the rules. -/

namespace Sys2Proof.Tests

open Sys2Proof Sys2Proof.Machine

set_option maxRecDepth 8000

/-! ## WellFormed refuses an operand form the instruction has no opcode for -/

theorem test_wellFormed_accumulator_group : (!(Instr.lda (.mem (.zpy 0))).wellFormed && !(Instr.sta (.zpy 0)).wellFormed && !(Instr.adc (.mem (.zpy 0))).wellFormed) = true := by decide

theorem test_wellFormed_x_indexed_group : (!(Instr.asl (.mem (.aby 0))).wellFormed && !(Instr.inc (.izx 0)).wellFormed && !(Instr.ldy (.mem (.zpy 0))).wellFormed) = true := by decide

theorem test_wellFormed_y_indexed_group : (!(Instr.ldx (.mem (.zpx 0))).wellFormed && !(Instr.ldx (.mem (.abx 0))).wellFormed) = true := by decide

theorem test_wellFormed_plain_group : (!(Instr.bit (.zpx 0)).wellFormed && !(Instr.cpx (.mem (.abx 0))).wellFormed && !(Instr.cpy (.mem (.izy 0))).wellFormed) = true := by decide

theorem test_wellFormed_stx_group : (!(Instr.stx (.zpx 0)).wellFormed && !(Instr.stx (.aby 0)).wellFormed) = true := by decide

theorem test_wellFormed_sty_group : (!(Instr.sty (.zpy 0)).wellFormed && !(Instr.sty (.abx 0)).wellFormed) = true := by decide

theorem test_wellFormed_sax_group : (!(Instr.sax (.zpx 0)).wellFormed && !(Instr.sax (.izy 0)).wellFormed) = true := by decide

theorem test_wellFormed_lax_group : (!(Instr.lax (.zpx 0)).wellFormed && !(Instr.lax (.abx 0)).wellFormed) = true := by decide

theorem test_wellFormed_sha_group : (!(Instr.sha (.abx 0)).wellFormed && !(Instr.sha (.izx 0)).wellFormed) = true := by decide

theorem test_wellFormed_undocumented_group : (!(Instr.slo (.zpy 0)).wellFormed && !(Instr.rra (.zpy 0)).wellFormed && !(Instr.isc (.zpy 0)).wellFormed) = true := by decide

/-! ## Every opcode of the map decodes to its row, and encodes back -/

/-- Each byte string decodes to the instruction beside it with nothing left over, and is its encoding. -/
def decodes (l : List (List Byte × Instr)) : Bool :=
  l.all fun e =>
    (match decode e.1 with
      | .ok (i, []) => i == e.2
      | .ok (_, _ :: _) => false
      | .error _ => false) && encode e.2 == some e.1

/-- Row `0x` of the map of 30_encoding.md R179 (operand bytes `$12`, `$34`). -/
theorem test_decode_row_0 :
    decodes
      [ ([0x00], .brk),
        ([0x01, 0x12], .ora (.mem (.izx 0x12))),
        ([0x02], .jam 0),
        ([0x03, 0x12], .slo (.izx 0x12)),
        ([0x04, 0x12], .nop (.zp 0 0x12)),
        ([0x05, 0x12], .ora (.mem (.zp 0x12))),
        ([0x06, 0x12], .asl (.mem (.zp 0x12))),
        ([0x07, 0x12], .slo (.zp 0x12)),
        ([0x08], .php),
        ([0x09, 0x12], .ora (.imm 0x12)),
        ([0x0A], .asl .acc),
        ([0x0B, 0x12], .anc 0 0x12),
        ([0x0C, 0x12, 0x34], .nop (.abs 0x3412)),
        ([0x0D, 0x12, 0x34], .ora (.mem (.abs 0x3412))),
        ([0x0E, 0x12, 0x34], .asl (.mem (.abs 0x3412))),
        ([0x0F, 0x12, 0x34], .slo (.abs 0x3412)) ] = true := by decide

/-- Row `1x` of the map of 30_encoding.md R179 (operand bytes `$12`, `$34`). -/
theorem test_decode_row_1 :
    decodes
      [ ([0x10, 0x12], .bpl 0x12),
        ([0x11, 0x12], .ora (.mem (.izy 0x12))),
        ([0x12], .jam 1),
        ([0x13, 0x12], .slo (.izy 0x12)),
        ([0x14, 0x12], .nop (.zpx 0 0x12)),
        ([0x15, 0x12], .ora (.mem (.zpx 0x12))),
        ([0x16, 0x12], .asl (.mem (.zpx 0x12))),
        ([0x17, 0x12], .slo (.zpx 0x12)),
        ([0x18], .clc),
        ([0x19, 0x12, 0x34], .ora (.mem (.aby 0x3412))),
        ([0x1A], .nop (.imp 1)),
        ([0x1B, 0x12, 0x34], .slo (.aby 0x3412)),
        ([0x1C, 0x12, 0x34], .nop (.abx 0 0x3412)),
        ([0x1D, 0x12, 0x34], .ora (.mem (.abx 0x3412))),
        ([0x1E, 0x12, 0x34], .asl (.mem (.abx 0x3412))),
        ([0x1F, 0x12, 0x34], .slo (.abx 0x3412)) ] = true := by decide

/-- Row `2x` of the map of 30_encoding.md R179 (operand bytes `$12`, `$34`). -/
theorem test_decode_row_2 :
    decodes
      [ ([0x20, 0x12, 0x34], .jsr 0x3412),
        ([0x21, 0x12], .and (.mem (.izx 0x12))),
        ([0x22], .jam 2),
        ([0x23, 0x12], .rla (.izx 0x12)),
        ([0x24, 0x12], .bit (.zp 0x12)),
        ([0x25, 0x12], .and (.mem (.zp 0x12))),
        ([0x26, 0x12], .rol (.mem (.zp 0x12))),
        ([0x27, 0x12], .rla (.zp 0x12)),
        ([0x28], .plp),
        ([0x29, 0x12], .and (.imm 0x12)),
        ([0x2A], .rol .acc),
        ([0x2B, 0x12], .anc 1 0x12),
        ([0x2C, 0x12, 0x34], .bit (.abs 0x3412)),
        ([0x2D, 0x12, 0x34], .and (.mem (.abs 0x3412))),
        ([0x2E, 0x12, 0x34], .rol (.mem (.abs 0x3412))),
        ([0x2F, 0x12, 0x34], .rla (.abs 0x3412)) ] = true := by decide

/-- Row `3x` of the map of 30_encoding.md R179 (operand bytes `$12`, `$34`). -/
theorem test_decode_row_3 :
    decodes
      [ ([0x30, 0x12], .bmi 0x12),
        ([0x31, 0x12], .and (.mem (.izy 0x12))),
        ([0x32], .jam 3),
        ([0x33, 0x12], .rla (.izy 0x12)),
        ([0x34, 0x12], .nop (.zpx 1 0x12)),
        ([0x35, 0x12], .and (.mem (.zpx 0x12))),
        ([0x36, 0x12], .rol (.mem (.zpx 0x12))),
        ([0x37, 0x12], .rla (.zpx 0x12)),
        ([0x38], .sec),
        ([0x39, 0x12, 0x34], .and (.mem (.aby 0x3412))),
        ([0x3A], .nop (.imp 2)),
        ([0x3B, 0x12, 0x34], .rla (.aby 0x3412)),
        ([0x3C, 0x12, 0x34], .nop (.abx 1 0x3412)),
        ([0x3D, 0x12, 0x34], .and (.mem (.abx 0x3412))),
        ([0x3E, 0x12, 0x34], .rol (.mem (.abx 0x3412))),
        ([0x3F, 0x12, 0x34], .rla (.abx 0x3412)) ] = true := by decide

/-- Row `4x` of the map of 30_encoding.md R179 (operand bytes `$12`, `$34`). -/
theorem test_decode_row_4 :
    decodes
      [ ([0x40], .rti),
        ([0x41, 0x12], .eor (.mem (.izx 0x12))),
        ([0x42], .jam 4),
        ([0x43, 0x12], .sre (.izx 0x12)),
        ([0x44, 0x12], .nop (.zp 1 0x12)),
        ([0x45, 0x12], .eor (.mem (.zp 0x12))),
        ([0x46, 0x12], .lsr (.mem (.zp 0x12))),
        ([0x47, 0x12], .sre (.zp 0x12)),
        ([0x48], .pha),
        ([0x49, 0x12], .eor (.imm 0x12)),
        ([0x4A], .lsr .acc),
        ([0x4B, 0x12], .alr 0x12),
        ([0x4C, 0x12, 0x34], .jmp (.abs 0x3412)),
        ([0x4D, 0x12, 0x34], .eor (.mem (.abs 0x3412))),
        ([0x4E, 0x12, 0x34], .lsr (.mem (.abs 0x3412))),
        ([0x4F, 0x12, 0x34], .sre (.abs 0x3412)) ] = true := by decide

/-- Row `5x` of the map of 30_encoding.md R179 (operand bytes `$12`, `$34`). -/
theorem test_decode_row_5 :
    decodes
      [ ([0x50, 0x12], .bvc 0x12),
        ([0x51, 0x12], .eor (.mem (.izy 0x12))),
        ([0x52], .jam 5),
        ([0x53, 0x12], .sre (.izy 0x12)),
        ([0x54, 0x12], .nop (.zpx 2 0x12)),
        ([0x55, 0x12], .eor (.mem (.zpx 0x12))),
        ([0x56, 0x12], .lsr (.mem (.zpx 0x12))),
        ([0x57, 0x12], .sre (.zpx 0x12)),
        ([0x58], .cli),
        ([0x59, 0x12, 0x34], .eor (.mem (.aby 0x3412))),
        ([0x5A], .nop (.imp 3)),
        ([0x5B, 0x12, 0x34], .sre (.aby 0x3412)),
        ([0x5C, 0x12, 0x34], .nop (.abx 2 0x3412)),
        ([0x5D, 0x12, 0x34], .eor (.mem (.abx 0x3412))),
        ([0x5E, 0x12, 0x34], .lsr (.mem (.abx 0x3412))),
        ([0x5F, 0x12, 0x34], .sre (.abx 0x3412)) ] = true := by decide

/-- Row `6x` of the map of 30_encoding.md R179 (operand bytes `$12`, `$34`). -/
theorem test_decode_row_6 :
    decodes
      [ ([0x60], .rts),
        ([0x61, 0x12], .adc (.mem (.izx 0x12))),
        ([0x62], .jam 6),
        ([0x63, 0x12], .rra (.izx 0x12)),
        ([0x64, 0x12], .nop (.zp 2 0x12)),
        ([0x65, 0x12], .adc (.mem (.zp 0x12))),
        ([0x66, 0x12], .ror (.mem (.zp 0x12))),
        ([0x67, 0x12], .rra (.zp 0x12)),
        ([0x68], .pla),
        ([0x69, 0x12], .adc (.imm 0x12)),
        ([0x6A], .ror .acc),
        ([0x6B, 0x12], .arr 0x12),
        ([0x6C, 0x12, 0x34], .jmp (.ind 0x3412)),
        ([0x6D, 0x12, 0x34], .adc (.mem (.abs 0x3412))),
        ([0x6E, 0x12, 0x34], .ror (.mem (.abs 0x3412))),
        ([0x6F, 0x12, 0x34], .rra (.abs 0x3412)) ] = true := by decide

/-- Row `7x` of the map of 30_encoding.md R179 (operand bytes `$12`, `$34`). -/
theorem test_decode_row_7 :
    decodes
      [ ([0x70, 0x12], .bvs 0x12),
        ([0x71, 0x12], .adc (.mem (.izy 0x12))),
        ([0x72], .jam 7),
        ([0x73, 0x12], .rra (.izy 0x12)),
        ([0x74, 0x12], .nop (.zpx 3 0x12)),
        ([0x75, 0x12], .adc (.mem (.zpx 0x12))),
        ([0x76, 0x12], .ror (.mem (.zpx 0x12))),
        ([0x77, 0x12], .rra (.zpx 0x12)),
        ([0x78], .sei),
        ([0x79, 0x12, 0x34], .adc (.mem (.aby 0x3412))),
        ([0x7A], .nop (.imp 4)),
        ([0x7B, 0x12, 0x34], .rra (.aby 0x3412)),
        ([0x7C, 0x12, 0x34], .nop (.abx 3 0x3412)),
        ([0x7D, 0x12, 0x34], .adc (.mem (.abx 0x3412))),
        ([0x7E, 0x12, 0x34], .ror (.mem (.abx 0x3412))),
        ([0x7F, 0x12, 0x34], .rra (.abx 0x3412)) ] = true := by decide

/-- Row `8x` of the map of 30_encoding.md R179 (operand bytes `$12`, `$34`). -/
theorem test_decode_row_8 :
    decodes
      [ ([0x80, 0x12], .nop (.imm 0 0x12)),
        ([0x81, 0x12], .sta (.izx 0x12)),
        ([0x82, 0x12], .nop (.imm 1 0x12)),
        ([0x83, 0x12], .sax (.izx 0x12)),
        ([0x84, 0x12], .sty (.zp 0x12)),
        ([0x85, 0x12], .sta (.zp 0x12)),
        ([0x86, 0x12], .stx (.zp 0x12)),
        ([0x87, 0x12], .sax (.zp 0x12)),
        ([0x88], .dey),
        ([0x89, 0x12], .nop (.imm 2 0x12)),
        ([0x8A], .txa),
        ([0x8B, 0x12], .ane 0x12),
        ([0x8C, 0x12, 0x34], .sty (.abs 0x3412)),
        ([0x8D, 0x12, 0x34], .sta (.abs 0x3412)),
        ([0x8E, 0x12, 0x34], .stx (.abs 0x3412)),
        ([0x8F, 0x12, 0x34], .sax (.abs 0x3412)) ] = true := by decide

/-- Row `9x` of the map of 30_encoding.md R179 (operand bytes `$12`, `$34`). -/
theorem test_decode_row_9 :
    decodes
      [ ([0x90, 0x12], .bcc 0x12),
        ([0x91, 0x12], .sta (.izy 0x12)),
        ([0x92], .jam 8),
        ([0x93, 0x12], .sha (.izy 0x12)),
        ([0x94, 0x12], .sty (.zpx 0x12)),
        ([0x95, 0x12], .sta (.zpx 0x12)),
        ([0x96, 0x12], .stx (.zpy 0x12)),
        ([0x97, 0x12], .sax (.zpy 0x12)),
        ([0x98], .tya),
        ([0x99, 0x12, 0x34], .sta (.aby 0x3412)),
        ([0x9A], .txs),
        ([0x9B, 0x12, 0x34], .tas 0x3412),
        ([0x9C, 0x12, 0x34], .shy 0x3412),
        ([0x9D, 0x12, 0x34], .sta (.abx 0x3412)),
        ([0x9E, 0x12, 0x34], .shx 0x3412),
        ([0x9F, 0x12, 0x34], .sha (.aby 0x3412)) ] = true := by decide

/-- Row `Ax` of the map of 30_encoding.md R179 (operand bytes `$12`, `$34`). -/
theorem test_decode_row_A :
    decodes
      [ ([0xA0, 0x12], .ldy (.imm 0x12)),
        ([0xA1, 0x12], .lda (.mem (.izx 0x12))),
        ([0xA2, 0x12], .ldx (.imm 0x12)),
        ([0xA3, 0x12], .lax (.izx 0x12)),
        ([0xA4, 0x12], .ldy (.mem (.zp 0x12))),
        ([0xA5, 0x12], .lda (.mem (.zp 0x12))),
        ([0xA6, 0x12], .ldx (.mem (.zp 0x12))),
        ([0xA7, 0x12], .lax (.zp 0x12)),
        ([0xA8], .tay),
        ([0xA9, 0x12], .lda (.imm 0x12)),
        ([0xAA], .tax),
        ([0xAB, 0x12], .lxa 0x12),
        ([0xAC, 0x12, 0x34], .ldy (.mem (.abs 0x3412))),
        ([0xAD, 0x12, 0x34], .lda (.mem (.abs 0x3412))),
        ([0xAE, 0x12, 0x34], .ldx (.mem (.abs 0x3412))),
        ([0xAF, 0x12, 0x34], .lax (.abs 0x3412)) ] = true := by decide

/-- Row `Bx` of the map of 30_encoding.md R179 (operand bytes `$12`, `$34`). -/
theorem test_decode_row_B :
    decodes
      [ ([0xB0, 0x12], .bcs 0x12),
        ([0xB1, 0x12], .lda (.mem (.izy 0x12))),
        ([0xB2], .jam 9),
        ([0xB3, 0x12], .lax (.izy 0x12)),
        ([0xB4, 0x12], .ldy (.mem (.zpx 0x12))),
        ([0xB5, 0x12], .lda (.mem (.zpx 0x12))),
        ([0xB6, 0x12], .ldx (.mem (.zpy 0x12))),
        ([0xB7, 0x12], .lax (.zpy 0x12)),
        ([0xB8], .clv),
        ([0xB9, 0x12, 0x34], .lda (.mem (.aby 0x3412))),
        ([0xBA], .tsx),
        ([0xBB, 0x12, 0x34], .las 0x3412),
        ([0xBC, 0x12, 0x34], .ldy (.mem (.abx 0x3412))),
        ([0xBD, 0x12, 0x34], .lda (.mem (.abx 0x3412))),
        ([0xBE, 0x12, 0x34], .ldx (.mem (.aby 0x3412))),
        ([0xBF, 0x12, 0x34], .lax (.aby 0x3412)) ] = true := by decide

/-- Row `Cx` of the map of 30_encoding.md R179 (operand bytes `$12`, `$34`). -/
theorem test_decode_row_C :
    decodes
      [ ([0xC0, 0x12], .cpy (.imm 0x12)),
        ([0xC1, 0x12], .cmp (.mem (.izx 0x12))),
        ([0xC2, 0x12], .nop (.imm 3 0x12)),
        ([0xC3, 0x12], .dcp (.izx 0x12)),
        ([0xC4, 0x12], .cpy (.mem (.zp 0x12))),
        ([0xC5, 0x12], .cmp (.mem (.zp 0x12))),
        ([0xC6, 0x12], .dec (.zp 0x12)),
        ([0xC7, 0x12], .dcp (.zp 0x12)),
        ([0xC8], .iny),
        ([0xC9, 0x12], .cmp (.imm 0x12)),
        ([0xCA], .dex),
        ([0xCB, 0x12], .sbx 0x12),
        ([0xCC, 0x12, 0x34], .cpy (.mem (.abs 0x3412))),
        ([0xCD, 0x12, 0x34], .cmp (.mem (.abs 0x3412))),
        ([0xCE, 0x12, 0x34], .dec (.abs 0x3412)),
        ([0xCF, 0x12, 0x34], .dcp (.abs 0x3412)) ] = true := by decide

/-- Row `Dx` of the map of 30_encoding.md R179 (operand bytes `$12`, `$34`). -/
theorem test_decode_row_D :
    decodes
      [ ([0xD0, 0x12], .bne 0x12),
        ([0xD1, 0x12], .cmp (.mem (.izy 0x12))),
        ([0xD2], .jam 10),
        ([0xD3, 0x12], .dcp (.izy 0x12)),
        ([0xD4, 0x12], .nop (.zpx 4 0x12)),
        ([0xD5, 0x12], .cmp (.mem (.zpx 0x12))),
        ([0xD6, 0x12], .dec (.zpx 0x12)),
        ([0xD7, 0x12], .dcp (.zpx 0x12)),
        ([0xD8], .cld),
        ([0xD9, 0x12, 0x34], .cmp (.mem (.aby 0x3412))),
        ([0xDA], .nop (.imp 5)),
        ([0xDB, 0x12, 0x34], .dcp (.aby 0x3412)),
        ([0xDC, 0x12, 0x34], .nop (.abx 4 0x3412)),
        ([0xDD, 0x12, 0x34], .cmp (.mem (.abx 0x3412))),
        ([0xDE, 0x12, 0x34], .dec (.abx 0x3412)),
        ([0xDF, 0x12, 0x34], .dcp (.abx 0x3412)) ] = true := by decide

/-- Row `Ex` of the map of 30_encoding.md R179 (operand bytes `$12`, `$34`). -/
theorem test_decode_row_E :
    decodes
      [ ([0xE0, 0x12], .cpx (.imm 0x12)),
        ([0xE1, 0x12], .sbc (.mem (.izx 0x12))),
        ([0xE2, 0x12], .nop (.imm 4 0x12)),
        ([0xE3, 0x12], .isc (.izx 0x12)),
        ([0xE4, 0x12], .cpx (.mem (.zp 0x12))),
        ([0xE5, 0x12], .sbc (.mem (.zp 0x12))),
        ([0xE6, 0x12], .inc (.zp 0x12)),
        ([0xE7, 0x12], .isc (.zp 0x12)),
        ([0xE8], .inx),
        ([0xE9, 0x12], .sbc (.imm 0x12)),
        ([0xEA], .nop (.imp 0)),
        ([0xEB, 0x12], .usbc 0x12),
        ([0xEC, 0x12, 0x34], .cpx (.mem (.abs 0x3412))),
        ([0xED, 0x12, 0x34], .sbc (.mem (.abs 0x3412))),
        ([0xEE, 0x12, 0x34], .inc (.abs 0x3412)),
        ([0xEF, 0x12, 0x34], .isc (.abs 0x3412)) ] = true := by decide

/-- Row `Fx` of the map of 30_encoding.md R179 (operand bytes `$12`, `$34`). -/
theorem test_decode_row_F :
    decodes
      [ ([0xF0, 0x12], .beq 0x12),
        ([0xF1, 0x12], .sbc (.mem (.izy 0x12))),
        ([0xF2], .jam 11),
        ([0xF3, 0x12], .isc (.izy 0x12)),
        ([0xF4, 0x12], .nop (.zpx 5 0x12)),
        ([0xF5, 0x12], .sbc (.mem (.zpx 0x12))),
        ([0xF6, 0x12], .inc (.zpx 0x12)),
        ([0xF7, 0x12], .isc (.zpx 0x12)),
        ([0xF8], .sed),
        ([0xF9, 0x12, 0x34], .sbc (.mem (.aby 0x3412))),
        ([0xFA], .nop (.imp 6)),
        ([0xFB, 0x12, 0x34], .isc (.aby 0x3412)),
        ([0xFC, 0x12, 0x34], .nop (.abx 5 0x3412)),
        ([0xFD, 0x12, 0x34], .sbc (.mem (.abx 0x3412))),
        ([0xFE, 0x12, 0x34], .inc (.abx 0x3412)),
        ([0xFF, 0x12, 0x34], .isc (.abx 0x3412)) ] = true := by decide

theorem test_decode_short : decode [] = .error .noOpcode ∧ decode [0xA9] = .error (.missingOperand 0xA9)
    ∧ decode [0x4C, 0x00] = .error (.missingOperand 0x4C) := ⟨rfl, rfl, rfl⟩

theorem test_decodeTableWord : decodeTableWord 16 0x42A9 = some (.lda (.imm 0x42))
    ∧ decodeTableWord 24 0x12349D = some (.sta (.abx 0x1234)) ∧ decodeTableWord 8 0x20 = some (.jsr 0) := by decide

/-! ## One step each: the vectors of 95_test_vectors.md -/

/-- A start state of section 0 there: the code at `$0200`, defaults, and what differs. Flags are the digits `NVDIZC` in
binary. -/
structure Start where
  code  : List Byte
  a     : Byte := 0
  x     : Byte := 0
  y     : Byte := 0
  sp    : Byte := 0xFD
  flags : Nat := 0
  cells : List Host.Cell := []
  irq   : Bool := false
  nmi   : Bool := false

def Start.state (v : Start) : State :=
  placeBytes 0x200 v.code
    { State.reset with
      a := v.a
      x := v.x
      y := v.y
      sp := v.sp
      pc := 0x200
      p :=
        { n := v.flags.testBit 5, v := v.flags.testBit 4, b := false, d := v.flags.testBit 3, i := v.flags.testBit 2,
          z := v.flags.testBit 1, c := v.flags.testBit 0 }
      mem := v.cells
      irqLine := v.irq
      nmiPending := v.nmi }

/-- What the vector's end column shows, and the bytes written. -/
structure Seen where
  a      : Byte := 0
  x      : Byte := 0
  y      : Byte := 0
  sp     : Byte := 0xFD
  pc     : Word
  flags  : Nat := 0
  cells  : List Host.Cell := []
  cycles : Nat

def gives (v : Start) (e : Seen) : Bool :=
  match step v.state with
  | .next t =>
    t.a == e.a && t.x == e.x && t.y == e.y && t.sp == e.sp && t.pc == e.pc
      && 32 * t.p.n.toNat + 16 * t.p.v.toNat + 8 * t.p.d.toNat + 4 * t.p.i.toNat + 2 * t.p.z.toNat + t.p.c.toNat == e.flags
      && t.cycles == e.cycles && e.cells.all fun c => t.memByte c.1 == c.2
  | .fault _ => false
  | .refused _ => false

/-- LS6: LDA abs,Y wraps $FFFF→$0000 (+1). -/
theorem test_lda_LS6 :
    gives { code := [0xB9, 0xFF, 0xFF], y := 0x01, cells := [(0x0000, 0x44)] }
      { a := 0x44, y := 0x01, pc := 0x0203, cycles := 5 } = true := by decide

/-- LS9: LDA (zp),Y pointer at $FF wraps. -/
theorem test_lda_LS9 :
    gives { code := [0xB1, 0xFF], y := 0x02, cells := [(0x0000, 0x31), (0x3102, 0x77)] }
      { a := 0x77, y := 0x02, pc := 0x0202, cycles := 5 } = true := by decide

/-- LS10: LDX zp,Y. -/
theorem test_ldx_LS10 :
    gives { code := [0xB6, 0x10], y := 0x05, cells := [(0x0015, 0x80)] }
      { x := 0x80, y := 0x05, pc := 0x0202, flags := 0b100000, cycles := 4 } = true := by decide

/-- LS11: LDY abs,X. -/
theorem test_ldy_LS11 :
    gives { code := [0xBC, 0x00, 0x30], x := 0x03, cells := [(0x3003, 0x01)] }
      { x := 0x03, y := 0x01, pc := 0x0203, cycles := 4 } = true := by decide

/-- LS12: STA abs,X page cross: no penalty. -/
theorem test_sta_LS12 :
    gives { code := [0x9D, 0xFF, 0x30], a := 0xAB, x := 0x01 }
      { a := 0xAB, x := 0x01, pc := 0x0203, cells := [(0x3100, 0xAB)], cycles := 5 } = true := by decide

/-- LS13: STA (zp),Y cross: no penalty. -/
theorem test_sta_LS13 :
    gives { code := [0x91, 0x20], a := 0xCD, y := 0x01, cells := [(0x0020, 0xFF), (0x0021, 0x30)] }
      { a := 0xCD, y := 0x01, pc := 0x0202, cells := [(0x3100, 0xCD)], cycles := 6 } = true := by decide

/-- LS14: STX zp,Y wraps in page 0. -/
theorem test_stx_LS14 :
    gives { code := [0x96, 0xFF], x := 0x12, y := 0x02 }
      { x := 0x12, y := 0x02, pc := 0x0202, cells := [(0x0001, 0x12)], cycles := 4 } = true := by decide

/-- LS15: STY abs. -/
theorem test_sty_LS15 :
    gives { code := [0x8C, 0x34, 0x12], y := 0x56 }
      { y := 0x56, pc := 0x0203, cells := [(0x1234, 0x56)], cycles := 4 } = true := by decide

/-- LS16: TAX sets N. -/
theorem test_tax_LS16 :
    gives { code := [0xAA], a := 0x80 }
      { a := 0x80, x := 0x80, pc := 0x0201, flags := 0b100000, cycles := 2 } = true := by decide

/-- LS17: TXS sets no flag. -/
theorem test_txs_LS17 :
    gives { code := [0x9A] }
      { sp := 0x00, pc := 0x0201, cycles := 2 } = true := by decide

/-- LS18: TSX sets Z. -/
theorem test_tsx_LS18 :
    gives { code := [0xBA], sp := 0x00 }
      { sp := 0x00, pc := 0x0201, flags := 0b000010, cycles := 2 } = true := by decide

/-- LS19: PHA. -/
theorem test_pha_LS19 :
    gives { code := [0x48], a := 0x3C, sp := 0xFF }
      { a := 0x3C, sp := 0xFE, pc := 0x0201, cells := [(0x01FF, 0x3C)], cycles := 3 } = true := by decide

/-- LS24: PHA wraps S $00→$FF. -/
theorem test_pha_LS24 :
    gives { code := [0x48], a := 0x77, sp := 0x00 }
      { a := 0x77, sp := 0xFF, pc := 0x0201, cells := [(0x0100, 0x77)], cycles := 3 } = true := by decide

/-- LS20: PHP pushes B=1 and bit 5=1. -/
theorem test_php_LS20 :
    gives { code := [0x08], sp := 0xFF, flags := 0b100001 }
      { sp := 0xFE, pc := 0x0201, flags := 0b100001, cells := [(0x01FF, 0xB1)], cycles := 3 } = true := by decide

/-- LS21: PLA sets Z. -/
theorem test_pla_LS21 :
    gives { code := [0x68], a := 0x12, sp := 0xFE }
      { sp := 0xFF, pc := 0x0201, flags := 0b000010, cycles := 4 } = true := by decide

/-- LS22: PLP $FF (bits 5, 4 ignored for flags). -/
theorem test_plp_LS22 :
    gives { code := [0x28], sp := 0xFE, cells := [(0x01FF, 0xFF)] }
      { sp := 0xFF, pc := 0x0201, flags := 0b111111, cycles := 4 } = true := by decide

/-- LS23: PLP wraps S $FF→$00. -/
theorem test_plp_LS23 :
    gives { code := [0x28], sp := 0xFF, flags := 0b000101 }
      { sp := 0x00, pc := 0x0201, cycles := 4 } = true := by decide

/-- AL1: ADC binary, signed overflow. -/
theorem test_adc_AL1 :
    gives { code := [0x69, 0x50], a := 0x50 }
      { a := 0xA0, pc := 0x0202, flags := 0b110000, cycles := 2 } = true := by decide

/-- AL14: ADC decimal 79+00+1: N, V from intermediate. -/
theorem test_adc_AL14 :
    gives { code := [0x69, 0x00], a := 0x79, flags := 0b001001 }
      { a := 0x80, pc := 0x0202, flags := 0b111000, cycles := 2 } = true := by decide

/-- AL8: SBC binary, borrow in. -/
theorem test_sbc_AL8 :
    gives { code := [0xE9, 0x05], a := 0x05 }
      { a := 0xFF, pc := 0x0202, flags := 0b100000, cycles := 2 } = true := by decide

/-- AL20: SBC decimal 21-34. -/
theorem test_sbc_AL20 :
    gives { code := [0xE9, 0x34], a := 0x21, flags := 0b001001 }
      { a := 0x87, pc := 0x0202, flags := 0b101000, cycles := 2 } = true := by decide

/-- AL22: CMP less. -/
theorem test_cmp_AL22 :
    gives { code := [0xC9, 0x41], a := 0x40 }
      { a := 0x40, pc := 0x0202, flags := 0b100000, cycles := 2 } = true := by decide

/-- AL23: CMP unsigned greater. -/
theorem test_cmp_AL23 :
    gives { code := [0xC9, 0x01], a := 0x80 }
      { a := 0x80, pc := 0x0202, flags := 0b000001, cycles := 2 } = true := by decide

/-- AL24: CPX. -/
theorem test_cpx_AL24 :
    gives { code := [0xE0, 0x10], x := 0x20 }
      { x := 0x20, pc := 0x0202, flags := 0b000001, cycles := 2 } = true := by decide

/-- AL25: CPY 0 vs $FF. -/
theorem test_cpy_AL25 :
    gives { code := [0xC0, 0xFF] }
      { pc := 0x0202, cycles := 2 } = true := by decide

/-- AL26: BIT zp: N, V from memory, Z from AND. -/
theorem test_bit_AL26 :
    gives { code := [0x24, 0x10], a := 0x0F, cells := [(0x0010, 0xC0)] }
      { a := 0x0F, pc := 0x0202, flags := 0b110010, cycles := 3 } = true := by decide

/-- AL27: BIT abs. -/
theorem test_bit_AL27 :
    gives { code := [0x2C, 0x00, 0x30], a := 0x01, cells := [(0x3000, 0x41)] }
      { a := 0x01, pc := 0x0203, flags := 0b010000, cycles := 4 } = true := by decide

/-- AL28: INC zp wraps to 0. -/
theorem test_inc_AL28 :
    gives { code := [0xE6, 0x10], cells := [(0x0010, 0xFF)] }
      { pc := 0x0202, flags := 0b000010, cells := [(0x0010, 0x00)], cycles := 5 } = true := by decide

/-- AL30: INC abs,X page cross: 7, no penalty. -/
theorem test_inc_AL30 :
    gives { code := [0xFE, 0xFF, 0x30], x := 0x01, cells := [(0x3100, 0x7F)] }
      { x := 0x01, pc := 0x0203, flags := 0b100000, cells := [(0x3100, 0x80)], cycles := 7 } = true := by decide

/-- AL29: DEC abs. -/
theorem test_dec_AL29 :
    gives { code := [0xCE, 0x00, 0x30], cells := [(0x3000, 0x81)] }
      { pc := 0x0203, flags := 0b100000, cells := [(0x3000, 0x80)], cycles := 6 } = true := by decide

/-- AL31: INX wraps (§8 scenario 2 step 1). -/
theorem test_inx_AL31 :
    gives { code := [0xE8], x := 0xFF }
      { pc := 0x0201, flags := 0b000010, cycles := 2 } = true := by decide

/-- AL32: DEY wraps. -/
theorem test_dey_AL32 :
    gives { code := [0x88] }
      { y := 0xFF, pc := 0x0201, flags := 0b100000, cycles := 2 } = true := by decide

/-- AL33: ASL A. -/
theorem test_asl_AL33 :
    gives { code := [0x0A], a := 0x81 }
      { a := 0x02, pc := 0x0201, flags := 0b000001, cycles := 2 } = true := by decide

/-- AL34: LSR A. -/
theorem test_lsr_AL34 :
    gives { code := [0x4A], a := 0x01 }
      { pc := 0x0201, flags := 0b000011, cycles := 2 } = true := by decide

/-- AL35: ROL A with carry. -/
theorem test_rol_AL35 :
    gives { code := [0x2A], a := 0x80, flags := 0b000001 }
      { a := 0x01, pc := 0x0201, flags := 0b000001, cycles := 2 } = true := by decide

/-- AL36: ROR A with carry. -/
theorem test_ror_AL36 :
    gives { code := [0x6A], a := 0x01, flags := 0b000001 }
      { a := 0x80, pc := 0x0201, flags := 0b100001, cycles := 2 } = true := by decide

/-- AL37: ROR zp. -/
theorem test_ror_AL37 :
    gives { code := [0x66, 0x10], cells := [(0x0010, 0x02)] }
      { pc := 0x0202, cells := [(0x0010, 0x01)], cycles := 5 } = true := by decide

/-- AL38: AND. -/
theorem test_and_AL38 :
    gives { code := [0x29, 0x0F], a := 0xF3 }
      { a := 0x03, pc := 0x0202, cycles := 2 } = true := by decide

/-- AL39: ORA. -/
theorem test_ora_AL39 :
    gives { code := [0x09, 0x80], a := 0x01 }
      { a := 0x81, pc := 0x0202, flags := 0b100000, cycles := 2 } = true := by decide

/-- AL40: EOR to zero. -/
theorem test_eor_AL40 :
    gives { code := [0x49, 0xFF], a := 0xFF }
      { pc := 0x0202, flags := 0b000010, cycles := 2 } = true := by decide

/-- CF1: BNE not taken. -/
theorem test_bne_CF1 :
    gives { code := [0xD0, 0x10], flags := 0b000010 }
      { pc := 0x0202, flags := 0b000010, cycles := 2 } = true := by decide

/-- CF4: BNE taken, +127, same page. -/
theorem test_bne_CF4 :
    gives { code := [0xD0, 0x7F] }
      { pc := 0x0281, cycles := 3 } = true := by decide

/-- CF3: BEQ taken backward across page. -/
theorem test_beq_CF3 :
    gives { code := [0xF0, 0xFC], flags := 0b000010 }
      { pc := 0x01FE, flags := 0b000010, cycles := 4 } = true := by decide

/-- CF5: BPL taken, −128, across page. -/
theorem test_bpl_CF5 :
    gives { code := [0x10, 0x80] }
      { pc := 0x0182, cycles := 4 } = true := by decide

/-- CF6: BMI taken. -/
theorem test_bmi_CF6 :
    gives { code := [0x30, 0x02], flags := 0b100000 }
      { pc := 0x0204, flags := 0b100000, cycles := 3 } = true := by decide

/-- CF7: BVC taken. -/
theorem test_bvc_CF7 :
    gives { code := [0x50, 0x02] }
      { pc := 0x0204, cycles := 3 } = true := by decide

/-- CF8: BVS taken. -/
theorem test_bvs_CF8 :
    gives { code := [0x70, 0x02], flags := 0b010000 }
      { pc := 0x0204, flags := 0b010000, cycles := 3 } = true := by decide

/-- CF9: BCC taken. -/
theorem test_bcc_CF9 :
    gives { code := [0x90, 0x02] }
      { pc := 0x0204, cycles := 3 } = true := by decide

/-- CF10: BCS taken. -/
theorem test_bcs_CF10 :
    gives { code := [0xB0, 0x02], flags := 0b000001 }
      { pc := 0x0204, flags := 0b000001, cycles := 3 } = true := by decide

/-- CF11: JMP abs. -/
theorem test_jmp_CF11 :
    gives { code := [0x4C, 0x34, 0x12] }
      { pc := 0x1234, cycles := 3 } = true := by decide

/-- CF13: JMP ($30FF) page bug. -/
theorem test_jmp_CF13 :
    gives { code := [0x6C, 0xFF, 0x30], cells := [(0x3000, 0x50), (0x30FF, 0x80), (0x3100, 0x40)] }
      { pc := 0x5080, cycles := 5 } = true := by decide

/-- CF14: JSR pushes return−1. -/
theorem test_jsr_CF14 :
    gives { code := [0x20, 0x00, 0x30], sp := 0xFF }
      { pc := 0x3000, cells := [(0x01FF, 0x02), (0x01FE, 0x02)], cycles := 6 } = true := by decide

/-- CF15: RTS adds 1. -/
theorem test_rts_CF15 :
    gives { code := [0x60], cells := [(0x01FE, 0x02), (0x01FF, 0x30)] }
      { sp := 0xFF, pc := 0x3003, cycles := 6 } = true := by decide

/-- CF16: RTI: no +1, bits 5,4 ignored. -/
theorem test_rti_CF16 :
    gives { code := [0x40], sp := 0xFC, cells := [(0x01FD, 0xC3), (0x01FF, 0x30)] }
      { sp := 0xFF, pc := 0x3000, flags := 0b110011, cycles := 6 } = true := by decide

/-- CF17: BRK: pushes addr+2, B=1, D kept. -/
theorem test_brk_CF17 :
    gives { code := [0x00, 0xEA], sp := 0xFF, flags := 0b001001, cells := [(0xFFFF, 0x90)] }
      { sp := 0xFC, pc := 0x9000, flags := 0b001101, cells := [(0x01FF, 0x02), (0x01FE, 0x02), (0x01FD, 0x39)], cycles := 7 } = true := by decide

/-- CF18: CLC. -/
theorem test_clc_CF18 :
    gives { code := [0x18], flags := 0b000001 }
      { pc := 0x0201, cycles := 2 } = true := by decide

/-- CF19: SEC. -/
theorem test_sec_CF19 :
    gives { code := [0x38] }
      { pc := 0x0201, flags := 0b000001, cycles := 2 } = true := by decide

/-- CF20: CLI. -/
theorem test_cli_CF20 :
    gives { code := [0x58], flags := 0b000100 }
      { pc := 0x0201, cycles := 2 } = true := by decide

/-- CF21: SEI. -/
theorem test_sei_CF21 :
    gives { code := [0x78] }
      { pc := 0x0201, flags := 0b000100, cycles := 2 } = true := by decide

/-- CF22: CLD. -/
theorem test_cld_CF22 :
    gives { code := [0xD8], flags := 0b001000 }
      { pc := 0x0201, cycles := 2 } = true := by decide

/-- CF23: SED. -/
theorem test_sed_CF23 :
    gives { code := [0xF8] }
      { pc := 0x0201, flags := 0b001000, cycles := 2 } = true := by decide

/-- CF24: CLV. -/
theorem test_clv_CF24 :
    gives { code := [0xB8], flags := 0b010000 }
      { pc := 0x0201, cycles := 2 } = true := by decide

/-- UN36: NOP immediate $80. -/
theorem test_nop_UN36 :
    gives { code := [0x80, 0x55] }
      { pc := 0x0202, cycles := 2 } = true := by decide

/-- UN40: NOP abs,X cross (+1) $1C. -/
theorem test_nop_UN40 :
    gives { code := [0x1C, 0xFF, 0x12], x := 0x01 }
      { x := 0x01, pc := 0x0203, cycles := 5 } = true := by decide

/-- UN1: SLO zp. -/
theorem test_slo_UN1 :
    gives { code := [0x07, 0x10], a := 0x01, cells := [(0x0010, 0x81)] }
      { a := 0x03, pc := 0x0202, flags := 0b000001, cells := [(0x0010, 0x02)], cycles := 5 } = true := by decide

/-- UN2: RLA zp. -/
theorem test_rla_UN2 :
    gives { code := [0x27, 0x10], a := 0xFF, flags := 0b000001, cells := [(0x0010, 0x40)] }
      { a := 0x81, pc := 0x0202, flags := 0b100000, cells := [(0x0010, 0x81)], cycles := 5 } = true := by decide

/-- UN3: SRE zp. -/
theorem test_sre_UN3 :
    gives { code := [0x47, 0x10], a := 0x0F, cells := [(0x0010, 0x03)] }
      { a := 0x0E, pc := 0x0202, flags := 0b000001, cells := [(0x0010, 0x01)], cycles := 5 } = true := by decide

/-- UN4: RRA zp binary. -/
theorem test_rra_UN4 :
    gives { code := [0x67, 0x10], a := 0x10, cells := [(0x0010, 0x03)] }
      { a := 0x12, pc := 0x0202, cells := [(0x0010, 0x01)], cycles := 5 } = true := by decide

/-- UN5: RRA zp decimal. -/
theorem test_rra_UN5 :
    gives { code := [0x67, 0x10], a := 0x09, flags := 0b001000, cells := [(0x0010, 0x03)] }
      { a := 0x11, pc := 0x0202, flags := 0b001000, cells := [(0x0010, 0x01)], cycles := 5 } = true := by decide

/-- UN6: SAX zp. -/
theorem test_sax_UN6 :
    gives { code := [0x87, 0x10], a := 0xF0, x := 0x3C }
      { a := 0xF0, x := 0x3C, pc := 0x0202, cells := [(0x0010, 0x30)], cycles := 3 } = true := by decide

/-- UN7: LAX zp. -/
theorem test_lax_UN7 :
    gives { code := [0xA7, 0x10], cells := [(0x0010, 0x80)] }
      { a := 0x80, x := 0x80, pc := 0x0202, flags := 0b100000, cycles := 3 } = true := by decide

/-- UN8: LAX (zp),Y page cross (+1). -/
theorem test_lax_UN8 :
    gives { code := [0xB3, 0x20], y := 0x01, cells := [(0x0020, 0xFF), (0x0021, 0x30), (0x3100, 0x01)] }
      { a := 0x01, x := 0x01, y := 0x01, pc := 0x0202, cycles := 6 } = true := by decide

/-- UN9: DCP zp. -/
theorem test_dcp_UN9 :
    gives { code := [0xC7, 0x10], a := 0x40, cells := [(0x0010, 0x41)] }
      { a := 0x40, pc := 0x0202, flags := 0b000011, cells := [(0x0010, 0x40)], cycles := 5 } = true := by decide

/-- UN11: ISC zp decimal. -/
theorem test_isc_UN11 :
    gives { code := [0xE7, 0x10], a := 0x40, flags := 0b001001, cells := [(0x0010, 0x0F)] }
      { a := 0x30, pc := 0x0202, flags := 0b001001, cells := [(0x0010, 0x10)], cycles := 5 } = true := by decide

/-- UN12: ISC abs,X cross: 7, no penalty. -/
theorem test_isc_UN12 :
    gives { code := [0xFF, 0xFF, 0x30], a := 0x05, x := 0x01, flags := 0b000001 }
      { a := 0x04, x := 0x01, pc := 0x0203, flags := 0b000001, cells := [(0x3100, 0x01)], cycles := 7 } = true := by decide

/-- UN13: ANC. -/
theorem test_anc_UN13 :
    gives { code := [0x0B, 0x80], a := 0xC0 }
      { a := 0x80, pc := 0x0202, flags := 0b100001, cycles := 2 } = true := by decide

/-- UN14: ALR. -/
theorem test_alr_UN14 :
    gives { code := [0x4B, 0x03], a := 0xFF }
      { a := 0x01, pc := 0x0202, flags := 0b000001, cycles := 2 } = true := by decide

/-- UN16: ARR binary 2. -/
theorem test_arr_UN16 :
    gives { code := [0x6B, 0xFF], a := 0x40 }
      { a := 0x20, pc := 0x0202, flags := 0b010000, cycles := 2 } = true := by decide

/-- UN17: ARR decimal 1. -/
theorem test_arr_UN17 :
    gives { code := [0x6B, 0xFF], a := 0x66, flags := 0b001001 }
      { a := 0x19, pc := 0x0202, flags := 0b111001, cycles := 2 } = true := by decide

/-- UN19: SBX no borrow. -/
theorem test_sbx_UN19 :
    gives { code := [0xCB, 0x02], a := 0x0F, x := 0xF3 }
      { a := 0x0F, x := 0x01, pc := 0x0202, flags := 0b000001, cycles := 2 } = true := by decide

/-- UN20: SBX borrow. -/
theorem test_sbx_UN20 :
    gives { code := [0xCB, 0x05], a := 0x0F, x := 0xF3 }
      { a := 0x0F, x := 0xFE, pc := 0x0202, flags := 0b100000, cycles := 2 } = true := by decide

/-- UN21: ANE (MAGIC_ANE=$EE). -/
theorem test_ane_UN21 :
    gives { code := [0x8B, 0xFF], x := 0xFF }
      { a := 0xEE, x := 0xFF, pc := 0x0202, flags := 0b100000, cycles := 2 } = true := by decide

/-- UN22: ANE 2. -/
theorem test_ane_UN22 :
    gives { code := [0x8B, 0x0F], a := 0x11, x := 0x3F }
      { a := 0x0F, x := 0x3F, pc := 0x0202, cycles := 2 } = true := by decide

/-- UN23: LXA (MAGIC_LXA=$EE). -/
theorem test_lxa_UN23 :
    gives { code := [0xAB, 0xFF] }
      { a := 0xEE, x := 0xEE, pc := 0x0202, flags := 0b100000, cycles := 2 } = true := by decide

/-- UN25: SHA abs,Y cross: address corrupted. -/
theorem test_sha_UN25 :
    gives { code := [0x9F, 0xF0, 0x12], a := 0xFF, x := 0x0F, y := 0x20 }
      { a := 0xFF, x := 0x0F, y := 0x20, pc := 0x0203, cells := [(0x0310, 0x03)], cycles := 5 } = true := by decide

/-- UN26: SHA (zp),Y. -/
theorem test_sha_UN26 :
    gives { code := [0x93, 0x20], a := 0xFF, x := 0x7F, y := 0x01, cells := [(0x0021, 0x30)] }
      { a := 0xFF, x := 0x7F, y := 0x01, pc := 0x0202, cells := [(0x3001, 0x31)], cycles := 6 } = true := by decide

/-- UN27: SHX abs,Y no cross. -/
theorem test_shx_UN27 :
    gives { code := [0x9E, 0x00, 0x12], x := 0xFF, y := 0x10 }
      { x := 0xFF, y := 0x10, pc := 0x0203, cells := [(0x1210, 0x13)], cycles := 5 } = true := by decide

/-- UN28: SHX abs,Y cross. -/
theorem test_shx_UN28 :
    gives { code := [0x9E, 0xF0, 0x12], x := 0x05, y := 0x20 }
      { x := 0x05, y := 0x20, pc := 0x0203, cells := [(0x0110, 0x01)], cycles := 5 } = true := by decide

/-- UN29: SHY abs,X no cross. -/
theorem test_shy_UN29 :
    gives { code := [0x9C, 0x00, 0x12], x := 0x10, y := 0x0F }
      { x := 0x10, y := 0x0F, pc := 0x0203, cells := [(0x1210, 0x03)], cycles := 5 } = true := by decide

/-- UN30: SHY abs,X cross. -/
theorem test_shy_UN30 :
    gives { code := [0x9C, 0xF0, 0x12], x := 0x20, y := 0x02 }
      { x := 0x20, y := 0x02, pc := 0x0203, cells := [(0x0210, 0x02)], cycles := 5 } = true := by decide

/-- UN31: TAS abs,Y. -/
theorem test_tas_UN31 :
    gives { code := [0x9B, 0x00, 0x12], a := 0xF3, x := 0x3F, y := 0x01 }
      { a := 0xF3, x := 0x3F, y := 0x01, sp := 0x33, pc := 0x0203, cells := [(0x1201, 0x13)], cycles := 5 } = true := by decide

/-- UN32: LAS abs,Y. -/
theorem test_las_UN32 :
    gives { code := [0xBB, 0x00, 0x12], y := 0x01, sp := 0xF0, cells := [(0x1201, 0x3C)] }
      { a := 0x30, x := 0x30, y := 0x01, sp := 0x30, pc := 0x0203, cycles := 4 } = true := by decide

/-- UN33: LAS abs,Y cross (+1). -/
theorem test_las_UN33 :
    gives { code := [0xBB, 0xFF, 0x12], y := 0x01, sp := 0xFF, cells := [(0x1300, 0x80)] }
      { a := 0x80, x := 0x80, y := 0x01, sp := 0x80, pc := 0x0203, flags := 0b100000, cycles := 5 } = true := by decide

/-- UN34: USBC (= SBC imm). -/
theorem test_usbc_UN34 :
    gives { code := [0xEB, 0x01], flags := 0b000001 }
      { a := 0xFF, pc := 0x0202, flags := 0b100000, cycles := 2 } = true := by decide

/-- UN41: JAM $02 (first execute). -/
theorem test_jam_UN41 :
    gives { code := [0x02] }
      { pc := 0x0200, cycles := 2 } = true := by decide

/-- IN1: IRQ taken (I=0): pushes B=0. -/
theorem test_interrupt_IN1 :
    gives { code := [0xEA], sp := 0xFF, cells := [(0xFFFF, 0x90)], irq := true }
      { sp := 0xFC, pc := 0x9000, flags := 0b000100, cells := [(0x01FF, 0x02), (0x01FE, 0x00), (0x01FD, 0x20)], cycles := 7 } = true := by decide

/-- IN2: IRQ masked (I=1): NOP runs. -/
theorem test_interrupt_IN2 :
    gives { code := [0xEA], sp := 0xFF, flags := 0b000100, irq := true }
      { sp := 0xFF, pc := 0x0201, flags := 0b000100, cycles := 2 } = true := by decide

/-- IN3: NMI before IRQ, ignores I. -/
theorem test_interrupt_IN3 :
    gives { code := [0xEA], sp := 0xFF, flags := 0b000100, cells := [(0xFFFB, 0xA0), (0xFFFF, 0x90)], irq := true, nmi := true }
      { sp := 0xFC, pc := 0xA000, flags := 0b000100, cells := [(0x01FF, 0x02), (0x01FE, 0x00), (0x01FD, 0x24)], cycles := 7 } = true := by decide

/-- IN4: NMI with D=1: D kept. -/
theorem test_interrupt_IN4 :
    gives { code := [0xEA], sp := 0xFF, flags := 0b001000, cells := [(0xFFFB, 0xA0)], nmi := true }
      { sp := 0xFC, pc := 0xA000, flags := 0b001100, cells := [(0x01FF, 0x02), (0x01FE, 0x00), (0x01FD, 0x28)], cycles := 7 } = true := by decide

/-! ### The instructions section 2 has no vector for: the examples of their rules -/

/-- R207: A = 0 gives Y = 0, Z = 1. -/
theorem test_tay_R207 :
    gives { code := [0xA8], y := 0x55 }
      { pc := 0x0201, flags := 0b000010, cycles := 2 } = true := by decide

/-- R208: X = $01 gives A = $01, N = 0, Z = 0. -/
theorem test_txa_R208 :
    gives { code := [0x8A], x := 0x01 }
      { a := 0x01, x := 0x01, pc := 0x0201, cycles := 2 } = true := by decide

/-- R209: Y = $FF gives A = $FF, N = 1. -/
theorem test_tya_R209 :
    gives { code := [0x98], y := 0xFF }
      { a := 0xFF, y := 0xFF, pc := 0x0201, flags := 0b100000, cycles := 2 } = true := by decide

/-- R262: Y = $7F gives $80, N = 1. -/
theorem test_iny_R262 :
    gives { code := [0xC8], y := 0x7F }
      { y := 0x80, pc := 0x0201, flags := 0b100000, cycles := 2 } = true := by decide

/-- R263: X = 0 gives $FF, N = 1, Z = 0. -/
theorem test_dex_R263 :
    gives { code := [0xCA] }
      { x := 0xFF, pc := 0x0201, flags := 0b100000, cycles := 2 } = true := by decide

/-! ## The console: video, timing, decode (sections 3 and 4 of 95_test_vectors.md) -/

/-- A console machine at column `h` with code at `$F000`. -/
def console (h : Nat) (code : List Byte) : State :=
  placeBytes 0xF000 code
    { State.reset with
      mode := .console
      cfg := { defaultConfig with mode := .console }
      pc := 0xF000
      video := { Video.reset with h := h } }

/-- A property of the state one step leaves. -/
def afterStep (s : State) (p : State → Bool) : Bool :=
  match step s with
  | .next t => p t
  | .fault _ => false
  | .refused _ => false

/-- VT1, VT2, VT3: STA RESP0 at column 0, 117 and 217. -/
theorem test_video_VT1 : afterStep (console 0 [0x85, 0x10]) (fun t => t.video.posP0 == 5 && t.video.h == 9) = true := by
  decide

theorem test_video_VT2 : afterStep (console 117 [0x85, 0x10]) (fun t => t.video.posP0 == 62) = true := by decide

theorem test_video_VT3 : afterStep (console 217 [0x85, 0x10]) (fun t => t.video.posP0 == 2) = true := by decide

/-- VT5: STA WSYNC in mid-line halts; VT7: applied on the last color clock of the line it halts nothing. -/
theorem test_video_VT5 :
    afterStep (console 24 [0x85, 0x02]) (fun t => t.video.wsyncHalt && t.video.h == 33) = true := by decide

theorem test_video_VT7 :
    afterStep (console 219 [0x85, 0x02]) (fun t => !t.video.wsyncHalt && t.video.h == 0 && t.video.line == 1) = true := by
  decide

/-- VT10, VT11: HMOVE in blank and in the visible part. -/
theorem test_video_VT10 :
    (let v := applyWrite defaultConfig { Video.reset with h := 8, posP0 := 5, regs := { hmp0 := 0x70 } } ⟨0, 0x2A, 0⟩
     v.posP0 == 158 && v.hmoveBlank) = true := by decide

theorem test_video_VT11 :
    (let v := applyWrite defaultConfig { Video.reset with h := 108, posP0 := 10, regs := { hmp0 := 0x80 } } ⟨0, 0x2A, 0⟩
     v.posP0 == 18 && !v.hmoveBlank) = true := by decide

/-- VT13: overlapping players latch P0-P1 at column 5. -/
theorem test_video_VT13 :
    (videoStep defaultConfig
      { Video.reset with h := 73, posP0 := 5, posP1 := 5, grp0New := 0x80, grp1New := 0x80 }).cx.p0p1 = true := by
  decide

/-- VT14: AUDC0 4, AUDF0 31, AUDV0 8 is 31400 / 64 Hz; volume 0 is silence. -/
theorem test_video_VT14 :
    audioTone defaultConfig { Video.reset with regs := { audc0 := 4, audf0 := 31, audv0 := 8 } } 0 = some ⟨31400, 64, 8⟩
      ∧ audioTone defaultConfig { Video.reset with regs := { audc0 := 4, audf0 := 31 } } 0 = none := by decide

/-- MD4, MD6: STA WSYNC is scheduled with delay 9; `$01FF` and `$00FF` are one RAM cell. -/
theorem test_decode_MD4 : (busWrite 3 0x0002 0 (console 0 [])).video.queue = [⟨9, 0x02, 0⟩] := by decide

theorem test_decode_MD6 : ((busWrite 3 0x01FF 0x5A (console 0 [])).peek 0x00FF) = some 0x5A := by decide

/-- MD15: LDA $30 reads CXM0P with nothing latched: the latch gives `$30`. -/
theorem test_console_MD15 :
    afterStep (console 0 [0xA5, 0x30]) (fun t => t.a == 0x30 && !t.p.n && !t.p.z) = true := by decide

/-- RS1, W1: breadboard reset with the image `A9 42 02`; RS4: flat test reset with a vector. MD10: a refused load. -/
theorem test_reset_RS1 :
    (match hostReset { State.reset with cfg := { defaultConfig with mode := .breadboard }, image := Image.ofBytes [0xA9, 0x42, 0x02] } with
      | .next t =>
        t.pc == 0x8000 && t.lastAddr == 0xFFFD && t.memByte 0x8001 == 0x42 && t.memByte 0x8003 == 0xEA
          && afterStep t (fun u => u.a == 0x42 && u.pc == 0x8002 && u.totalCycles == 2)
      | .fault _ => false
      | .refused _ => false) = true := by decide

theorem test_reset_RS4 :
    (match hostReset { State.reset with image := ⟨65536, [(0xFFFD, 0x04)]⟩ } with
      | .next t => t.pc == 0x0400
      | .fault _ => false
      | .refused _ => false) = true := by decide

theorem test_reset_MD10 :
    hostReset { State.reset with cfg := { defaultConfig with mode := .console }, image := ⟨4097, []⟩ }
      = .refused .bankSwitchedCartridge := by rfl

/-! ## Witnesses: a concrete state and operands that meet the hypotheses of each obligation that has some -/

/-- A machine in flat test mode with code at `$0200`. -/
def flat (code : List Byte) : State := placeBytes 0x200 code { State.reset with pc := 0x200 }

/-- A breadboard machine. -/
def breadboard : State := { State.reset with mode := .breadboard, cfg := { defaultConfig with mode := .breadboard } }

theorem test_witness_DecodeEncode :
    (Instr.lda (.imm 0xFF)).wellFormed = true ∧ (Instr.jam 11).wellFormed = true ∧ (Instr.nop (.abx 5 0xFFFF)).wellFormed = true := by
  decide

/-- A running and a jammed machine. -/
theorem test_witness_FetchDecodesWhatTheBusReturns :
    (flat [0xA9]).jammed = false ∧ { flat [0xA9] with jammed := true }.jammed = true := by decide

/-- The jammed machine meets the hypotheses with a halt opcode. -/
theorem test_witness_StepRunsTheDecodedInstruction_jammed :
    halted { flat [0xF2] with jammed := true } = false ∧ pendingInterrupt { flat [0xF2] with jammed := true } = none
      ∧ decode [0xF2] = .ok (.jam 11, []) ∧ { flat [0xF2] with jammed := true }.jammed = true
      ∧ { flat [0xF2] with jammed := true }.peek 0x200 = some 0xF2 ∧ ∃ k, Instr.jam 11 = .jam k :=
  ⟨by decide, by decide, rfl, rfl, by decide, _, rfl⟩

theorem test_witness_StepRunsTheDecodedInstruction :
    (flat [0xA9, 0x42]).jammed = false ∧ halted (flat [0xA9, 0x42]) = false ∧ pendingInterrupt (flat [0xA9, 0x42]) = none
      ∧ decode [0xA9, 0x42] = .ok (.lda (.imm 0x42), [])
      ∧ (∀ k v, [0xA9#8, 0x42#8][k]? = some v →
          (flat [0xA9, 0x42]).peek ((flat [0xA9, 0x42]).pc + BitVec.ofNat 16 k) = some v)
      ∧ [0xA9#8, 0x42#8].getLast? = some 0x42 := by
  refine ⟨rfl, by decide, by decide, rfl, fun k v h => ?_, rfl⟩
  match k with
  | 0 => cases h; decide
  | 1 => cases h; decide
  | k + 2 => cases h

theorem test_witness_NopForms :
    (∃ k z, (NopForm.zp 2 0xFF) = .zp k z ∧ MemMode.zp 0xFF = .zp z ∧ 3 = 3)
      ∧ (∃ k z, (NopForm.zpx 5 0xFF) = .zpx k z ∧ MemMode.zpx 0xFF = .zpx z ∧ 4 = 4)
      ∧ (∃ a, (NopForm.abs 0xFFFF) = .abs a ∧ MemMode.abs 0xFFFF = .abs a ∧ 4 = 4)
      ∧ ∃ k a, (NopForm.abx 5 0xFFFF) = .abx k a ∧ MemMode.abx 0xFFFF = .abx a ∧ 4 = 4 :=
  ⟨⟨_, _, rfl, rfl, rfl⟩, ⟨_, _, rfl, rfl, rfl⟩, ⟨_, rfl, rfl, rfl⟩, ⟨_, _, rfl, rfl, rfl⟩⟩

/-- 99 + 99 + 1 and 0 - 99 - 1 in packed decimal, with their results. -/
theorem test_witness_DecimalAdderOnDigits :
    (9 < 10 ∧ 0 < 10) ∧ (addDec 0x99 0x99 true).r = 0x99 ∧ (addDec 0x99 0x99 true).c = true
      ∧ (subDec 0x00 0x99 false).r = 0x00 ∧ (subDec 0x00 0x99 false).c = false := by decide

theorem test_witness_ArrResult : (flat []).p.d = false ∧ { (flat []).p with d := true }.d = true := by decide

theorem test_witness_ReturnUndoesEntry :
    (flat []).writable (stackAddr (flat []).sp) = true ∧ (flat []).writable (stackAddr ((flat []).sp - 1)) = true
      ∧ (flat []).writable (stackAddr ((flat []).sp - 2)) = true
      ∧ (console 0 []).writable (stackAddr 0x82) = true ∧ (console 0 []).writable (stackAddr 0x80) = true
      ∧ (console 0 []).writable (stackAddr 0x7F) = false := by decide

/-- Jammed at a halt opcode in memory, and jammed inside the video window, where the refetch returns no halt opcode (43 R375:
PC stays, JAM_CYCLES). -/
theorem test_witness_JamResult :
    { flat [0x02] with jammed := true }.jammed = true ∧ halted { flat [0x02] with jammed := true } = false
      ∧ (∃ t, step { flat [0x02] with jammed := true } = .next t) ∧ ∃ t, hostReset State.reset = .next t :=
  ⟨rfl, rfl, ⟨_, rfl⟩, _, rfl⟩

theorem test_jam_repeats_whatever_the_refetch_returns :
    (let s := { console 0 [] with jammed := true, pc := 0x0006, lastData := 0x29 }
     match step s with
     | .next t => (busRead s.pc s).1 == 0x29 && t.jammed && t.pc == 0x0006 && t.totalCycles == s.totalCycles + 2
         && t.a == s.a && t.lastAddr == 0x0006
     | .fault _ => false
     | .refused _ => false) = true := by decide

theorem test_witness_CyclesOfEveryOpcode :
    (∃ k, (layoutOf 0xF2).build 0 0 = .jam k) ∧ ∀ k, (layoutOf 0xA9).build 0 0 ≠ .jam k :=
  ⟨⟨11, rfl⟩, fun k h => nomatch (show Instr.lda (.imm 0) = .jam k from h)⟩

theorem test_witness_FlatModeIsRam : (flat []).mode = .flatTest ∧ (0x0001 : Word) ≠ 0x0000 := by decide

/-- The clauses at the ends of their ranges. -/
theorem test_witness_ConsoleDecode :
    (console 0 []).mode = .console
      ∧ (0x1000 / 4096 % 2 = 1 ∧ 0xFFFF / 4096 % 2 = 1) ∧ (0xE07F / 4096 % 2 = 0 ∧ 0xE07F / 128 % 2 = 0)
      ∧ (0x0D80 / 4096 % 2 = 0 ∧ 0x0D80 / 128 % 2 = 1 ∧ 0x0D80 / 512 % 2 = 0)
      ∧ 0x0FFF / 4096 % 2 = 0 ∧ 0x0FFF / 128 % 2 = 1 ∧ 0x0FFF / 512 % 2 = 1 := by decide

theorem test_witness_BreadboardDecode :
    breadboard.mode = .breadboard ∧ breadboard.cfg.bbMap = defaultBbMap
      ∧ breadboard.target 0x3FFF = .memory 0x3FFF true ∧ breadboard.target 0x4000 = .peripheral .crtRam 0
      ∧ breadboard.target 0x47FF = .peripheral .crtRam 0x7FF ∧ breadboard.target 0x4FFF = .peripheral .crtRegs 1
      ∧ breadboard.target 0x5FFF = .peripheral .serial 3 ∧ breadboard.target 0x7FFF = .peripheral .parallel 15
      ∧ breadboard.target 0x8000 = .memory 0x8000 false
      ∧ (∀ r ∈ ([] : List MapRange), 0 < r.first ∨ r.last < 0)
      ∧ (∀ r ∈ defaultBbMap, r.first ≤ r.last ∧ ∀ q ∈ defaultBbMap, q ≠ r → r.last < q.first ∨ q.last < r.last) := by
  refine ⟨rfl, rfl, by decide, by decide, by decide, by decide, by decide, by decide, by decide, ?_, by decide⟩
  intro r h
  cases h

/-- A map with one table range. -/
def tableMap : List MapRange := [⟨0x4000, 0x4002, .periph .serial (.table 0x4000 [7, 5, 9])⟩]

/-- Both ends of the range and the addresses beside it. -/
theorem test_table_offsets :
    breadboardTarget tableMap 0x4000 = .peripheral .serial 7 ∧ breadboardTarget tableMap 0x4002 = .peripheral .serial 9
      ∧ breadboardTarget tableMap 0x3FFF = .memory 0x3FFF true ∧ breadboardTarget tableMap 0x4003 = .memory 0x4003 true :=
  ⟨by rfl, by rfl, by rfl, by rfl⟩

theorem test_witness_ReadAfterWrite : (flat [0xA9]).peek 0x200 = some 0xA9 ∧ (flat []).writable 0x200 = true := by decide

theorem test_witness_VideoWindowRead :
    (console 0 []).mode = .console ∧ (∀ n ∈ [0, 1, 2, 3, 4, 5, 6, 7, 8, 13, 14, 15], n / 4096 % 2 = 0 ∧ n / 128 % 2 = 0) := by
  decide

theorem test_witness_VideoWindowWrite :
    (console 0 []).mode = .console ∧ (0xEF7F / 4096 % 2 = 0 ∧ 0xEF7F / 128 % 2 = 0) ∧ 1 ≤ 1 := by decide

/-- An empty queue, a queue of two registers due and undue together, and one of a single register. -/
theorem test_witness_DelayedWriteApplies :
    (Video.reset.queue = [] ∧ 1 ≤ 24 ∧ 23 < 24)
      ∧ ([⟨1, 0x06, 1⟩, ⟨2, 0x07, 2⟩, ⟨0, 0x06, 3⟩, ⟨9, 0x06, 4⟩] : List PendingWrite).Pairwise
          (fun e w => e.reg = w.reg → w.remaining ≤ 1 → e.remaining ≤ 1)
      ∧ ∀ e ∈ ([⟨9, 0x06, 1⟩, ⟨1, 0x06, 2⟩] : List PendingWrite), e.reg = 0x06 := by decide

theorem test_witness_BeamCounter :
    ({ Video.reset with h := 226 }).h + 1 ≠ defaultConfig.lineCc ∧ ({ Video.reset with h := 227 }).h + 1 = defaultConfig.lineCc := by
  decide

theorem test_witness_StrobeEffects : 0x2D ≤ 0x2D ∧ 0x3F ≤ 0x3F ∧ 0x2D ≤ 0x3F := by decide

theorem test_witness_VsyncEdges :
    ((0x01 : BitVec 6) ≠ 0x00 ∧ (0x3F : BitVec 6) ≠ 0x00)
      ∧ (∃ t, step { console 0 [0xA9] with video := { Video.reset with frameReady := true } } = .next t)
      ∧ ∃ t, hostReset State.reset = .next t :=
  ⟨by decide, ⟨_, rfl⟩, _, rfl⟩

/-- Both missiles locked and both free, after an empty queue and after a due RESM0 write. -/
theorem test_witness_LockAndDetector :
    (let v := { Video.reset with regs := { resmp0 := 0x02, resmp1 := 0x02 } }
     let w := { v with queue := [⟨1, 0x12, 0⟩] }
     (phaseQueue defaultConfig w).regs.resmp0.getLsbD 1 && (phaseQueue defaultConfig w).regs.resmp1.getLsbD 1
       && !(phaseQueue defaultConfig Video.reset).regs.resmp0.getLsbD 1
       && !(phaseQueue defaultConfig Video.reset).regs.resmp1.getLsbD 1 && decide (v.queue = [])) = true := by decide

/-- A visible color clock, one in blank, one in the HMOVE-blanked columns, and one of each pixel kind. -/
theorem test_witness_VisibleClockDraws :
    (let v := { Video.reset with h := 68, line := 40, hmoveBlank := true, regs := { ctrlpf := 0x04 } }
     let u := { Video.reset with h := 227, line := 231, enablNew := true, posBL := 159, regs := { ctrlpf := 0x04 } }
     let w := { Video.reset with h := 68, line := 40, grp0New := 0x80, grp1New := 0x80 }
     decide (defaultConfig.hblankCc ≤ v.h) && !v.regs.vblank.getLsbD 1 && decide (v.h - defaultConfig.hblankCc < 8)
       && decide ((frameGeometry defaultConfig).visibleStart ≤ v.line) && !decide (defaultConfig.hblankCc ≤ Video.reset.h)
       && (signalsAt u 159).bl && decide (u.line - 40 < (frameGeometry defaultConfig).fbHeight)
       && (signalsAt w 0).p0 && (signalsAt { w with grp0New := 0 } 0).p1 && !(signalsAt { w with grp0New := 0 } 0).p0
       && !(signalsAt { w with grp0New := 0, grp1New := 0 } 0).p1) = true := by decide

theorem test_witness_ObjectBits :
    (79 < 80 ∧ 15 < 16 ∧ 16 ≤ 16 ∧ 47 < 48 ∧ 48 ≤ 48) ∧ ({ ctrlpf := 0x00 } : VideoRegs).ctrlpf.getLsbD 0 = false
      ∧ ({ ctrlpf := 0x01 } : VideoRegs).ctrlpf.getLsbD 0 = true := by decide

theorem test_witness_AudioOutput :
    (let v := { Video.reset with regs := { audc0 := 4, audf0 := 31, audv0 := 8 } }
     v.regs.audc0 = 4 ∧ v.regs.audf0 = 31 ∧ v.regs.audv0 = 8) := by decide

theorem test_witness_InterruptCheck :
    halted (flat []) = false ∧ (flat []).jammed = false ∧ { flat [] with nmiPending := true }.nmiPending = true
      ∧ { flat [] with irqLine := true, p := loadStatus 0 }.irqLine = true ∧ (flat []).mode ≠ .console
      ∧ (loadStatus 0).i = false ∧ (flat []).nmiPending = false ∧ (flat []).irqLine = false
      ∧ { flat [] with jammed := true }.jammed = true := by decide

theorem test_witness_TickTime :
    (flat []).mode ≠ .console ∧ (console 0 []).mode = .console
      ∧ ({ Video.reset with wsyncHalt := true }).wsyncHalt = true := by decide

theorem test_witness_EveryStepAnswers :
    (console 0 []).target 0xF000 = .cartridge 0 ∧ (console 0 []).target 0x1FFF = .cartridge 0xFFF
      ∧ 0 < (console 0 []).cfg.jamCycles ∧ (flat []).nmiPending = false := by decide

/-- The reset state steps, and the console machine too. -/
theorem test_witness_StepKeepsLegalState :
    (∃ t, step State.reset = .next t) ∧ validConfig State.reset.cfg = true ∧ Memory.wf State.reset = true
      ∧ State.reset.video.wf State.reset.cfg = true :=
  ⟨⟨_, rfl⟩, by decide, by decide, by decide⟩

theorem test_witness_LegalStateHolds :
    (∃ t, hostReset State.reset = .next t) ∧ validConfig State.reset.cfg = true := ⟨⟨_, rfl⟩, by decide⟩

theorem test_witness_ClockRatio :
    (∃ t, step (console 0 [0x85, 0x02]) = .next t) ∧ (console 0 []).video.h < (console 0 []).cfg.lineCc
      ∧ (console 0 [0x85, 0x02]).clockAgrees ∧ ∃ t, hostReset State.reset = .next t :=
  ⟨⟨_, rfl⟩, by decide, fun _ => by decide, ⟨_, rfl⟩⟩

/-- A machine halted by WSYNC at column 33 of a line whose count agrees (VT5). -/
def halted33 : State :=
  { console 0 [] with totalCycles := 11, video := { Video.reset with h := 33, wsyncHalt := true } }

theorem test_witness_WsyncReleasesAtLineStart :
    halted33.mode = .console ∧ validConfig halted33.cfg = true ∧ halted33.video.h < halted33.cfg.lineCc
      ∧ halted33.clockAgrees ∧ halted33.video.wsyncHalt = true
      ∧ (halted33.cfg.lineCc - halted33.video.h) / 3 = 65 :=
  ⟨rfl, by decide, by decide, fun _ => by decide, rfl, by decide⟩

/-- A console machine with the NTSC geometry, after reset and 7 cycles past its first frame, and the PAL geometry. -/
theorem test_witness_BudgetedRuns :
    (let s := console 0 []
     let t := { s with budgetTarget := 19912, totalCycles := 19919 }
     validConfig s.cfg && decide (s.cfg.mode = .console) && decide (s.cfg.jamCycles ≤ 8) && s.budgetTarget == 0
       && s.totalCycles == 0 && s.cfg.lineCc == 228 && (frameGeometry s.cfg).lines == 262
       && t.budgetTarget == 19912 * 1 && decide (t.totalCycles ≤ 19912 * 1 + 7)
       && validConfig { s.cfg with videoStd := .pal } && (frameGeometry { s.cfg with videoStd := .pal }).lines == 312)
      = true := by decide

theorem test_witness_QueueEmptyAtStepBoundaries :
    defaultDelays { defaultConfig with writeDelays := [] } ∧ State.reset.video.queue = []
      ∧ (∃ t, step State.reset = .next t) ∧ ∃ t, hostReset State.reset = .next t :=
  ⟨fun _ _ => rfl, rfl, ⟨_, rfl⟩, ⟨_, rfl⟩⟩

/-- A console image of exactly 4096 bytes loads, one more is refused; the vector is a byte of plain memory. -/
theorem test_witness_HostResetResults :
    ({ defaultConfig with mode := .console }).mode = .console ∧ 4096 < 4097 ∧ 4096 ≤ 4096
      ∧ (∃ t, hostReset State.reset = .next t) ∧ State.reset.peek 0xFFFC = some 0 ∧ State.reset.peek 0xFFFD = some 0 :=
  ⟨rfl, by decide, by decide, ⟨_, rfl⟩, by decide, by decide⟩

theorem test_witness_LoaderContents :
    (∃ t, hostReset State.reset = .next t) ∧ (∃ t, hostReset { State.reset with cfg := breadboard.cfg } = .next t)
      ∧ (∃ t, hostReset { State.reset with cfg := (console 0 []).cfg } = .next t)
      ∧ State.reset.cfg.mode = .flatTest ∧ breadboard.cfg.mode = .breadboard ∧ (console 0 []).cfg.mode = .console
      ∧ 65535 < 65536 ∧ 127 < 128 ∧ 4095 < 4096 ∧ 4096 < 4097 :=
  ⟨⟨_, rfl⟩, ⟨_, rfl⟩, ⟨_, rfl⟩, by decide, by decide, by decide, by decide, by decide, by decide, by decide⟩

end Sys2Proof.Tests
end

section
/-! SUPPORT. The settled statements about the state (10_state.md): the status byte, the legal states every step keeps, and
the values after reset. -/

namespace Sys2Proof.Machine

/-! ## The status byte -/

/-- Bit 5 of a pushed status byte is always 1 (10_state.md R43). -/
theorem statusByte_bit5 (p : Flags) (b : Bool) : (statusByte p b).getLsbD 5 = true := by
  simp [statusByte, bitAt_getLsbD]

/-- Loading discards bit 5 (10_state.md R44). -/
theorem loadStatus_flipBit5 (v : Byte) : loadStatus (v ^^^ 0x20) = loadStatus v := by
  simp [loadStatus]

/-- Settles O22: each flag's bit is read off `loadStatus_statusByte`, the round trip through `LoadStatus`; only bit 5,
which loading discards, is computed from the layout. -/
theorem statusByteLayout : Obligations.StatusByteLayout := by
  unfold Obligations.StatusByteLayout
  refine ⟨fun p b => ?_, fun v => ⟨loadStatus_eq v, loadStatus_flipBit5 v⟩⟩
  have h := loadStatus_statusByte p b
  exact ⟨congrArg Flags.n h, congrArg Flags.v h, statusByte_bit5 p b, congrArg Flags.b h, congrArg Flags.d h,
    congrArg Flags.i h, congrArg Flags.z h, congrArg Flags.c h, h⟩

/-! ## The legal states -/

/-- The legal states of the machine: a consistent configuration, canonical memory, a legal video engine. -/
def LegalState (s : State) : Prop :=
  validConfig s.cfg = true ∧ Memory.wf s = true ∧ s.video.wf s.cfg = true

/-- The legal states of the engine say nothing about the queue, so scheduling a write keeps them. -/
theorem schedule_wf (cfg : Config) (v : Video) (reg : BitVec 6) (b : Byte) (d : Nat) :
    (schedule v reg b d).wf cfg = v.wf cfg := rfl

/-- A store reaches the video engine through its queue alone, so it keeps the engine's legal states. -/
theorem busWrite_video_wf (k : Nat) (addr : Word) (b : Byte) (s : State) (cfg : Config) :
    (busWrite k addr b s).video.wf cfg = s.video.wf cfg := by
  rw [busWrite_video]
  unfold videoAfterStore
  cases s.target addr with
  | video a => exact schedule_wf _ _ _ _ _
  | _ => rfl

/-- What the CPU does to the machine, on any cycle, keeps the legal states. -/
theorem legalState_closed (n : Nat) : Closed n LegalState where
  read _ _ hu := hu
  write k _ _ addr b u := fun ⟨hcfg, hmem, hvideo⟩ => by
    refine ⟨?_, busWrite_keeps_wf k addr b hmem, ?_⟩
    · rwa [busWrite_cfg]
    · rwa [busWrite_cfg, busWrite_video_wf]
  regs _ _ _ _ _ _ _ _ hu := hu
  jam _ hu := hu

/-- The passing of time keeps the legal states: in dual mode by `videoSteps_wf`, else nothing of them changes. -/
theorem elapse_legalState (n : Nat) {s : State} (h : LegalState s) : LegalState (elapse n s) := by
  obtain ⟨hcfg, hmem, hvideo⟩ := h
  refine ⟨?_, ?_, ?_⟩
  · rwa [elapse_cfg]
  · rwa [elapse_wf]
  · rw [elapse_cfg, elapse_video]
    split
    · exact videoSteps_wf hcfg _ hvideo
    · exact hvideo

/-- Settles O52: `LegalState` is kept by all the CPU can do and by the color clocks that follow, hence by every step. -/
theorem stepKeepsLegalState : Obligations.StepKeepsLegalState := by
  unfold Obligations.StepKeepsLegalState
  intro s t hstep hs
  exact step_keeps (P := LegalState) legalState_closed (fun _ hv => hv) (fun n _ => elapse_legalState n) hstep hs

/-! ## The state after reset -/

/-- Settles O58: `State.reset` is a literal, whose fields are compared with the table of 10_state.md R84. -/
theorem resetStateValues : Obligations.ResetStateValues := by
  unfold Obligations.ResetStateValues
  decide

end Sys2Proof.Machine
end

section
/-! SUPPORT. The settled statements about memory and the bus (20_memory.md): what one transaction leaves unchanged, the
decode of each mode, the console's video window, and what the loaders leave in memory. -/

namespace Sys2Proof.Machine

/-! ## One bus transaction -/

theorem busRead_frame (addr : Word) (s : State) : MachineFrame s (busRead addr s).2 := by
  constructor <;> simp

theorem busRead_noStore (addr : Word) (s : State) : NoStore s (busRead addr s).2 := by
  constructor <;> simp

theorem busRead_cpuIs (addr : Word) (s : State) : CpuIs (busRead addr s).2 s.a s.x s.y s.sp s.pc s.p s.cycles := by
  constructor <;> simp

theorem busRead_lastRead (addr : Word) (s : State) : LastRead addr (busRead addr s).1 (busRead addr s).2 :=
  ⟨rfl, rfl, rfl⟩

theorem busWrite_frame (k : Nat) (addr : Word) (v : Byte) (s : State) : MachineFrame s (busWrite k addr v s) := by
  constructor <;> simp

theorem busWrite_cpuIs (k : Nat) (addr : Word) (v : Byte) (s : State) :
    CpuIs (busWrite k addr v s) s.a s.x s.y s.sp s.pc s.p s.cycles := by
  constructor <;> simp

/-- A write to an address that is not RAM changes no byte. -/
theorem busWrite_peek_of_not_writable {k : Nat} {addr : Word} {v : Byte} {s : State} (h : s.writable addr = false)
    (b : Word) : (busWrite k addr v s).peek b = s.peek b :=
  (busWrite_oneStore k addr v s).readOnly h b

/-- Settles O36: the mirror fields are the ones `busRead` and `busWrite` set, the rest are their frames. -/
theorem mirrorShowsTheLastAccess : Obligations.MirrorShowsTheLastAccess := by
  unfold Obligations.MirrorShowsTheLastAccess
  intro s a v k
  exact ⟨busRead_lastRead a s, busRead_noStore a s, busRead_frame a s, busRead_cpuIs a s, rfl, rfl, rfl,
    busWrite_frame k a v s, busWrite_cpuIs k a v s⟩

/-- Settles O35: `busWrite_peek` is the read after write by cell, `busRead_of_peek` the read of plain memory. -/
theorem readAfterWrite : Obligations.ReadAfterWrite := by
  unfold Obligations.ReadAfterWrite
  intro s a b v k
  refine ⟨busWrite_peek k a b v s, fun w hw => ?_⟩
  rw [busRead_of_peek hw]
  exact ⟨rfl, rfl⟩

/-! ## Flat test mode -/

section
variable {s : State} (h : s.mode = .flatTest)
include h

theorem target_flatTest (a : Word) : s.target a = .memory a.toNat true := by
  simp [State.target, busTarget, h]

theorem target_flatTest_ne {a b : Word} (hab : b ≠ a) : s.target b ≠ s.target a := by
  rw [target_flatTest h, target_flatTest h]
  intro heq
  injection heq with hn
  exact hab (BitVec.eq_of_toNat_eq hn)

theorem writable_flatTest (a : Word) : s.writable a = true := by
  simp [State.writable, target_flatTest h]

/-- In flat test mode a read returns the memory byte of its address, whatever the address. -/
theorem peek_flatTest (a : Word) : s.peek a = some (busRead a s).1 := by
  have hp : s.peek a = some (s.memByte a.toNat) := by simp [State.peek, target_flatTest h]
  rw [busRead_of_peek hp, hp]

end

/-- Settles O32: every read is that of a byte of plain memory (`peek_flatTest`), before and after the write, so the
bytes follow from `busWrite_oneStore`. -/
theorem flatModeIsRam : Obligations.FlatModeIsRam := by
  unfold Obligations.FlatModeIsRam
  intro s a v k h
  have hw : (busWrite k a v s).mode = .flatTest := by rw [busWrite_mode, h]
  have hstore := busWrite_oneStore k a v s
  refine ⟨peek_flatTest h a, ?_, rfl, rfl, ?_, fun b hb => ?_, ?_, ?_, busWrite_draws k a v s⟩
  · rw [busRead_of_peek (peek_flatTest h a)]
  · exact Option.some.inj ((peek_flatTest hw a).symm.trans (hstore.here (writable_flatTest h a)))
  · apply Option.some.inj
    calc some (busRead b (busWrite k a v s)).1
        = (busWrite k a v s).peek b := (peek_flatTest hw b).symm
      _ = s.peek b := hstore.elsewhere b (target_flatTest_ne h hb)
      _ = some (busRead b s).1 := peek_flatTest h b
  · simp [busWrite_video, videoAfterStore, target_flatTest h]
  · simp [busWrite_events, eventsAfterStore, target_flatTest h]

/-! ## Console decode -/

theorem toNat_and_1FFF (a : Word) : (a &&& 0x1FFF#16).toNat = a.toNat % 8192 := by
  rw [BitVec.toNat_and]
  exact Nat.and_two_pow_sub_one_eq_mod a.toNat 13

/-- A mask of the low `i` of the console's address lines passes the address modulo `2 ^ i`. -/
theorem toNat_and_lowLines (a : Word) {m : Word} {i : Nat} (hi : i ≤ 13) (hm : m.toNat = 2 ^ i - 1) :
    ((a &&& 0x1FFF#16) &&& m).toNat = a.toNat % 2 ^ i := by
  rw [BitVec.toNat_and, toNat_and_1FFF, hm, Nat.and_two_pow_sub_one_eq_mod]
  exact Nat.mod_mod_of_dvd _ (pow_dvd_pow 2 hi)

/-- The address lines A12 to A0 of an address, as digits of its number. -/
theorem addressLine (a : Word) {i : Nat} (hi : i < 13) :
    (a &&& 0x1FFF#16).getLsbD i = decide (a.toNat / 2 ^ i % 2 = 1) := by
  rw [← BitVec.testBit_toNat, toNat_and_1FFF, show 8192 = 2 ^ 13 from rfl, Nat.testBit_mod_two_pow,
    Nat.testBit_eq_decide_div_mod_eq]
  simp [hi]

/-- The console decode (20_memory.md R115 to R120) in numbers. -/
theorem consoleTarget_eq (a : Word) :
    consoleTarget a =
      if a.toNat / 4096 % 2 = 1 then .cartridge (a.toNat % 4096)
      else if a.toNat / 128 % 2 = 0 then .video (BitVec.ofNat 16 (a.toNat % 8192))
      else if a.toNat / 512 % 2 = 0 then .consoleRam (a.toNat % 128)
      else .peripheral .timerSwitch (a.toNat % 32) := by
  have hcart := toNat_and_lowLines a (i := 12) (m := 0x0FFF#16) (by decide) rfl
  have hram := toNat_and_lowLines a (i := 7) (m := 0x7F#16) (by decide) rfl
  have hport := toNat_and_lowLines a (i := 5) (m := 0x1F#16) (by decide) rfl
  have hvideo : a &&& 0x1FFF#16 = BitVec.ofNat 16 (a.toNat % 8192) := by
    rw [← toNat_and_1FFF, BitVec.ofNat_toNat, BitVec.setWidth_eq]
  simp only [consoleTarget, hcart, hram, hport, addressLine a (show 12 < 13 by decide),
    addressLine a (show 7 < 13 by decide), addressLine a (show 9 < 13 by decide)]
  simp [hvideo]

/-- Lines A15 to A13 do not take part in the console decode. -/
theorem consoleTarget_mirror (a : Word) : consoleTarget (a + 0x2000) = consoleTarget a := by
  have hlines : (a + 0x2000) &&& 0x1FFF#16 = a &&& 0x1FFF#16 := by
    apply BitVec.eq_of_toNat_eq
    rw [toNat_and_1FFF, toNat_and_1FFF, BitVec.toNat_add]
    change (a.toNat + 8192) % 65536 % 8192 = a.toNat % 8192
    omega
  simp only [consoleTarget, hlines]

theorem target_console {s : State} (h : s.mode = .console) (a : Word) : s.target a = consoleTarget a := by
  simp [State.target, busTarget, h]

/-- Settles O33: each clause is a branch of `consoleTarget_eq`. -/
theorem consoleDecode : Obligations.ConsoleDecode := by
  unfold Obligations.ConsoleDecode
  intro s a hmode
  simp only [target_console hmode]
  refine ⟨fun h12 => ?_, fun h12 h7 => ?_, fun h12 h7 h9 => ?_, fun h12 h7 h9 => ?_, consoleTarget_mirror a⟩
  all_goals rw [consoleTarget_eq]
  · simp [h12]
  · simp [h12, h7]
  · simp [h12, h7, h9]
  · simp [h12, h7, h9]

/-! ## Breadboard decode -/

theorem breadboardTarget_of_uncovered {map : List MapRange} {n : Nat}
    (h : ∀ r ∈ map, n < r.first ∨ r.last < n) : breadboardTarget map n = .memory n true := by
  have hnone : map.find? (fun r => decide (r.first ≤ n) && decide (n ≤ r.last)) = none := by
    rw [List.find?_eq_none]
    intro r hr
    have := h r hr
    simp only [Bool.and_eq_true, decide_eq_true_eq]
    omega
  simp [breadboardTarget, hnone]

/-- An address one range covers and no other is decoded by that range. -/
theorem breadboardTarget_of_covered {map : List MapRange} {r : MapRange} {n : Nat} (hr : r ∈ map)
    (hfirst : r.first ≤ n) (hlast : n ≤ r.last) (hother : ∀ q ∈ map, q ≠ r → n < q.first ∨ q.last < n) :
    breadboardTarget map n = mapTarget r.target n := by
  unfold breadboardTarget
  split
  case h_1 q hq =>
    have hin := List.find?_some hq
    simp only [Bool.and_eq_true, decide_eq_true_eq] at hin
    have hqr : q = r := by
      by_contra hne
      have := hother q (List.mem_of_find?_eq_some hq) hne
      omega
    rw [hqr]
  case h_2 hnone =>
    have := List.find?_eq_none.mp hnone r hr
    simp [hfirst, hlast] at this

/-- The ranges of the default map are disjoint (20_memory.md R111). -/
theorem defaultBbMap_disjoint :
    ∀ r ∈ defaultBbMap, ∀ q ∈ defaultBbMap, q ≠ r → r.last < q.first ∨ q.last < r.first := by decide

theorem breadboardTarget_default {r : MapRange} {n : Nat} (hr : r ∈ defaultBbMap) (hfirst : r.first ≤ n)
    (hlast : n ≤ r.last) : breadboardTarget defaultBbMap n = mapTarget r.target n := by
  refine breadboardTarget_of_covered hr hfirst hlast fun q hq hne => ?_
  have := defaultBbMap_disjoint r hr q hq hne
  omega

/-- A mask of the low `bits` lines passes the address modulo `2 ^ bits`. -/
theorem offsetOf_mask (n bits : Nat) : offsetOf (.mask (2 ^ bits - 1)) n = n % 2 ^ bits :=
  Nat.and_two_pow_sub_one_eq_mod n bits

theorem target_breadboard {s : State} (h : s.mode = .breadboard) (a : Word) :
    s.target a = breadboardTarget s.cfg.bbMap a.toNat := by
  simp [State.target, busTarget, h]

/-- A store to read-only memory changes no byte (20_memory.md R113). -/
theorem busWrite_peek_of_rom {s : State} {a : Word} {i : Nat} (h : s.target a = .memory i false) (k : Nat) (v : Byte)
    (b : Word) : (busWrite k a v s).peek b = s.peek b :=
  busWrite_peek_of_not_writable (by simp [State.writable, h]) b

/-- Settles O34: both maps by the one range that covers the address (`breadboardTarget_of_covered`), the offset
functions by a table of all their values (`offsetOf_table`). -/
theorem breadboardDecode : Obligations.BreadboardDecode := by
  unfold Obligations.BreadboardDecode
  intro s a hmode
  have ht := target_breadboard hmode a
  refine ⟨fun hmap => ?_, fun r hr hfirst hlast hother => ?_, fun f => ⟨_, fun m hm => offsetOf_table f hm⟩,
    fun h => ht.trans (breadboardTarget_of_uncovered h)⟩
  · rw [hmap] at ht
    have hrange (r : MapRange) (hr : r ∈ defaultBbMap) (hfirst : r.first ≤ a.toNat) (hlast : a.toNat < r.last + 1) :
        s.target a = mapTarget r.target a.toNat :=
      ht.trans (breadboardTarget_default hr hfirst (Nat.le_of_lt_succ hlast))
    refine ⟨fun h => ?_, fun h h' => ?_, fun h h' => ?_, fun h h' => ?_, fun h h' => ?_, fun h => ?_⟩
    · exact hrange ⟨0x0000, 0x3FFF, .ram⟩ (by decide) (Nat.zero_le _) h
    · exact hrange ⟨0x4000, 0x47FF, .periph .crtRam (.minus 0x4000)⟩ (by decide) h h'
    · exact (hrange ⟨0x4800, 0x4FFF, .periph .crtRegs (.mask 0x01)⟩ (by decide) h h').trans
        (congrArg (Target.peripheral .crtRegs) (offsetOf_mask a.toNat 1))
    · exact (hrange ⟨0x5000, 0x5FFF, .periph .serial (.mask 0x03)⟩ (by decide) h h').trans
        (congrArg (Target.peripheral .serial) (offsetOf_mask a.toNat 2))
    · exact (hrange ⟨0x6000, 0x7FFF, .periph .parallel (.mask 0x0F)⟩ (by decide) h h').trans
        (congrArg (Target.peripheral .parallel) (offsetOf_mask a.toNat 4))
    · have hrom := hrange ⟨0x8000, 0xFFFF, .rom⟩ (by decide) h a.isLt
      exact ⟨hrom, busWrite_peek_of_rom hrom⟩
  · replace ht := ht.trans (breadboardTarget_of_covered hr hfirst hlast hother)
    refine ⟨fun h => ?_, fun h => ?_, fun p rule h => ?_, fun p base h => ?_, fun p bits h => ?_,
      fun p base offsets h => ?_⟩
    all_goals rw [h] at ht
    · exact ht
    · exact ⟨ht, busWrite_peek_of_rom ht⟩
    · exact ht
    · exact ht
    · exact ht
    · exact ht

/-! ## The console's video window -/

/-- The addresses of the video window: A12 and A7 clear (20_memory.md R115). -/
theorem target_videoWindow {s : State} (hmode : s.mode = .console) {a : Word} (h12 : a.toNat / 4096 % 2 = 0)
    (h7 : a.toNat / 128 % 2 = 0) : s.target a = .video (BitVec.ofNat 16 (a.toNat % 8192)) := by
  rw [target_console hmode, consoleTarget_eq]
  simp [h12, h7]

theorem readRegOf_toNat (n : Nat) : (readRegOf (BitVec.ofNat 16 (n % 8192))).toNat = n % 16 := by
  simp [readRegOf, BitVec.extractLsb'_toNat]

theorem writeRegOf_eq (n : Nat) : writeRegOf (BitVec.ofNat 16 (n % 8192)) = BitVec.ofNat 6 (n % 64) := by
  apply BitVec.eq_of_toNat_eq
  simp [writeRegOf, BitVec.extractLsb'_toNat]

theorem isInputReg_readRegOf (n : Nat) :
    isInputReg (readRegOf (BitVec.ofNat 16 (n % 8192))) = decide (8 ≤ n % 16 ∧ n % 16 ≤ 13) := by
  simp [isInputReg, readRegOf_toNat]

theorem tiaRead_bit7 (v : Video) (reg : BitVec 4) (input : Bool) :
    (tiaRead v reg input).getLsbD 7 = (readBits v reg input).1 := by
  simp only [tiaRead, BitVec.getLsbD_or, bitAt_getLsbD]
  simp

theorem tiaRead_bit6 (v : Video) (reg : BitVec 4) (input : Bool) :
    (tiaRead v reg input).getLsbD 6 = (readBits v reg input).2 := by
  simp only [tiaRead, BitVec.getLsbD_or, bitAt_getLsbD]
  simp

section
variable {s : State} {a w : Word} (h : s.target a = .video w)
include h

theorem busRead_video_byte : (busRead a s).1 =
    ((tiaRead s.video (readRegOf w) (Config.freeBit s.draws) &&& 0xC0#8) ||| (s.lastData &&& 0x3F#8)) := by
  simp [busRead, h, targetRead]

theorem busRead_video_draws :
    (busRead a s).2.draws = if isInputReg (readRegOf w) then s.draws + 1 else s.draws := by
  simp [busRead, h, targetRead]

theorem busRead_video_low {i : Nat} (hi : i < 6) : (busRead a s).1.getLsbD i = s.lastData.getLsbD i := by
  rw [busRead_video_byte h]
  have : ∀ j < 6, (0xC0#8).getLsbD j = false ∧ (0x3F#8).getLsbD j = true := by decide
  simp only [BitVec.getLsbD_or, BitVec.getLsbD_and, this i hi]
  simp

theorem busRead_video_bit7 :
    (busRead a s).1.getLsbD 7 = (readBits s.video (readRegOf w) (Config.freeBit s.draws)).1 := by
  rw [busRead_video_byte h, ← tiaRead_bit7]
  simp

theorem busRead_video_bit6 :
    (busRead a s).1.getLsbD 6 = (readBits s.video (readRegOf w) (Config.freeBit s.draws)).2 := by
  rw [busRead_video_byte h, ← tiaRead_bit6]
  simp

theorem busWrite_of_video (k : Nat) (v : Byte) : busWrite k a v s =
    { s with
      video := schedule s.video (writeRegOf w) v (writeDelay s.cfg k)
      lastAddr := a
      lastData := v
      lastRw := .write } := by
  simp [busWrite, h, targetWrite]

end

/-- The registers past the collision latches have no latch: bit 7 is the input's, if there is one. -/
theorem readBits_of_ge {v : Video} {reg : BitVec 4} {input : Bool} (h : 8 ≤ reg.toNat) :
    readBits v reg input = (isInputReg reg && input, false) := by
  unfold readBits
  split
  case h_9 => rfl
  all_goals omega

/-- Settles O37: bits 7 and 6 are `readBits` of the register number, bits 5 to 0 the data-bus latch. -/
theorem videoWindowRead : Obligations.VideoWindowRead := by
  unfold Obligations.VideoWindowRead
  intro s a hmode h12 h7
  have ht := target_videoWindow hmode h12 h7
  have hreg := readRegOf_toNat a.toNat
  have hinput := isInputReg_readRegOf a.toNat
  dsimp only
  rw [busRead_video_bit7 ht, busRead_video_bit6 ht, busRead_video_draws ht]
  refine ⟨fun i hi => busRead_video_low ht hi, rfl, fun h => ?_, fun h => ?_, fun h => ?_, fun h => ?_, fun h => ?_,
    fun h => ?_, fun h => ?_, fun h => ?_, fun h => ?_, fun h h' => ?_, fun h => ?_, fun h => ?_⟩
  iterate 8 (· simp [readBits, hreg, h])
  · rw [readBits_of_ge (by omega)]
  · rw [readBits_of_ge (by omega), hinput, decide_eq_true ⟨h, h'⟩]
    exact ⟨rfl, rfl⟩
  · rw [readBits_of_ge (by omega), hinput, decide_eq_false (by omega)]
    rfl
  · rw [hinput, decide_eq_false (by omega)]
    rfl

/-- The default table lists `3·k` up to cycle 8, and past its end `writeDelay` is `3·k` itself (20_memory.md R118). -/
theorem writeDelay_default {k : Nat} (hk : 1 ≤ k) : writeDelay defaultConfig k = 3 * k := by
  by_cases h : k ≤ 8
  · interval_cases k <;> rfl
  · exact List.getD_eq_default _ _ (by simp [defaultConfig]; omega)

/-- Settles O38: a write to the window is `schedule` and the mirror (`busWrite_of_video`), and the window is not RAM. -/
theorem videoWindowWrite : Obligations.VideoWindowWrite := by
  unfold Obligations.VideoWindowWrite
  refine ⟨fun k hk => writeDelay_default hk, fun s a v k hmode h12 h7 => ?_⟩
  have ht := target_videoWindow hmode h12 h7
  have hpeek := busWrite_peek_of_not_writable (k := k) (v := v) (show s.writable a = false by simp [State.writable, ht])
  refine ⟨?_, hpeek, ?_, busWrite_frame k a v s, busWrite_cpuIs k a v s, busWrite_draws k a v s, ?_, ?_, rfl, rfl,
    rfl⟩
  all_goals rw [busWrite_of_video ht]
  rw [writeRegOf_eq]
  rfl

/-! ## The loaders -/

theorem hostReset_refused {s : State} (hmode : s.cfg.mode = .console) (hsize : 4096 < s.image.size) :
    hostReset s = .refused .bankSwitchedCartridge := by
  simp [hostReset, hmode, hsize]

/-- What a completed reset leaves that the memory contents depend on: no cell differs from the loader's. -/
structure FreshlyLoaded (s t : State) : Prop where
  mode   : t.mode = s.cfg.mode
  mem    : t.mem = []
  ram    : t.ram = []
  rom    : t.rom = []
  loaded : t.loaded = ⟨s.image, s.cfg.bbRomBase, s.cfg.bbResetVector⟩

theorem hostReset_freshlyLoaded {s t : State} (h : hostReset s = .next t) : FreshlyLoaded s t := by
  unfold hostReset at h
  split at h
  · cases h
  · cases h
    exact ⟨rfl, rfl, rfl, rfl, rfl⟩

namespace FreshlyLoaded

variable {s t : State} (h : FreshlyLoaded s t)
include h

theorem memByte (i : Nat) :
    t.memByte i = memBase s.cfg.mode ⟨s.image, s.cfg.bbRomBase, s.cfg.bbResetVector⟩ i := by
  rw [State.memByte, h.mode, h.mem, h.loaded]
  rfl

theorem romByte (i : Nat) :
    t.romByte i = romBase s.cfg.mode ⟨s.image, s.cfg.bbRomBase, s.cfg.bbResetVector⟩ i := by
  rw [State.romByte, h.mode, h.rom, h.loaded]
  rfl

theorem ramByte (i : Nat) : t.ramByte i = 0 := by
  rw [State.ramByte, h.ram]
  rfl

end FreshlyLoaded

/-- Settles O60: after a completed reset every array reads as its loader's contents (`FreshlyLoaded`). -/
theorem loaderContents : Obligations.LoaderContents := by
  unfold Obligations.LoaderContents
  refine ⟨fun s => hostReset_refused, fun s t hreset => ?_⟩
  have hfresh := hostReset_freshlyLoaded hreset
  refine ⟨fun hmode i _ => ?_, fun hmode => ⟨?_, fun i _ => hfresh.ramByte i, fun i _ => ?_⟩, fun hmode i _ => ?_,
    rfl, rfl⟩
  · rw [hfresh.memByte, hmode]
    rfl
  · by_contra hsize
    rw [hostReset_refused hmode (by omega)] at hreset
    cases hreset
  · rw [hfresh.romByte, hmode]
    rfl
  · rw [hfresh.memByte, hmode]
    by_cases hbase : s.cfg.bbRomBase.toNat ≤ i
    · simp [memBase, Image.byte, hbase, Nat.not_lt.mpr hbase]
    · simp [memBase, hbase, Nat.lt_of_not_le hbase]

end Sys2Proof.Machine
end

section
/-! SUPPORT. The settled statements about the decoder and the encoder, inverse to one another (30_encoding.md R160, R161,
R179). -/

namespace Sys2Proof

/-! ## The bytes of an instruction decode to it -/

/-- Whatever bytes the instruction has decode to it. -/
def DecodesBack (i : Instr) : Prop :=
  ∀ bytes, encode i = some bytes → ∀ rest, decode (bytes ++ rest) = .ok (i, rest)

theorem decodesBack_one {i : Instr} {op : Byte} (henc : encode i = some [op]) (hmap : layoutOf op = .one i) :
    DecodesBack i := by
  intro bytes h rest
  cases henc.symm.trans h
  exact decode_one hmap rest

theorem decodesBack_byte {f : Byte → Instr} {op b : Byte} (henc : encode (f b) = some [op, b])
    (hmap : layoutOf op = .byte f) : DecodesBack (f b) := by
  intro bytes h rest
  cases henc.symm.trans h
  exact decode_byte hmap b rest

theorem decodesBack_word {f : Word → Instr} {op : Byte} {a : Word} (henc : encode (f a) = some (wordForm op a))
    (hmap : layoutOf op = .word f) : DecodesBack (f a) := by
  intro bytes h rest
  cases henc.symm.trans h
  have hdec := decode_word hmap (loByte a) (hiByte a) rest
  rwa [wordOf_bytes] at hdec

/-- The opcodes of the memory modes select the layouts that put the operand into `f` in that mode. -/
structure ModeOpcodes.Select (ops : ModeOpcodes) (f : MemMode → Instr) : Prop where
  zp  : ops.zp.map layoutOf = ops.zp.map fun _ => .byte fun z => f (.zp z)
  zpx : ops.zpx.map layoutOf = ops.zpx.map fun _ => .byte fun z => f (.zpx z)
  zpy : ops.zpy.map layoutOf = ops.zpy.map fun _ => .byte fun z => f (.zpy z)
  abs : ops.abs.map layoutOf = ops.abs.map fun _ => .word fun a => f (.abs a)
  abx : ops.abx.map layoutOf = ops.abx.map fun _ => .word fun a => f (.abx a)
  aby : ops.aby.map layoutOf = ops.aby.map fun _ => .word fun a => f (.aby a)
  izx : ops.izx.map layoutOf = ops.izx.map fun _ => .byte fun z => f (.izx z)
  izy : ops.izy.map layoutOf = ops.izy.map fun _ => .byte fun z => f (.izy z)

theorem decodesBack_byteMode {f : Byte → Instr} {op : Option Byte} {b : Byte}
    (henc : encode (f b) = op.map fun o => [o, b]) (hmap : op.map layoutOf = op.map fun _ => .byte f) :
    DecodesBack (f b) := by
  cases op with
  | none => intro bytes h; cases henc.symm.trans h
  | some o => exact decodesBack_byte henc (Option.some.inj hmap)

theorem decodesBack_wordMode {f : Word → Instr} {op : Option Byte} {a : Word}
    (henc : encode (f a) = op.map fun o => wordForm o a) (hmap : op.map layoutOf = op.map fun _ => .word f) :
    DecodesBack (f a) := by
  cases op with
  | none => intro bytes h; cases henc.symm.trans h
  | some o => exact decodesBack_word henc (Option.some.inj hmap)

/-- An instruction that is encoded by its memory mode, mode by mode. -/
theorem decodesBack_mem {f : MemMode → Instr} {ops : ModeOpcodes} (m : MemMode)
    (henc : ∀ m, encode (f m) = m.encode ops) (hmap : ops.Select f) : DecodesBack (f m) := by
  cases m with
  | zp z => exact decodesBack_byteMode (f := fun z => f (.zp z)) (henc _) hmap.zp
  | zpx z => exact decodesBack_byteMode (f := fun z => f (.zpx z)) (henc _) hmap.zpx
  | zpy z => exact decodesBack_byteMode (f := fun z => f (.zpy z)) (henc _) hmap.zpy
  | abs a => exact decodesBack_wordMode (f := fun a => f (.abs a)) (henc _) hmap.abs
  | abx a => exact decodesBack_wordMode (f := fun a => f (.abx a)) (henc _) hmap.abx
  | aby a => exact decodesBack_wordMode (f := fun a => f (.aby a)) (henc _) hmap.aby
  | izx z => exact decodesBack_byteMode (f := fun z => f (.izx z)) (henc _) hmap.izx
  | izy z => exact decodesBack_byteMode (f := fun z => f (.izy z)) (henc _) hmap.izy

theorem decodesBack_read {f : ReadOperand → Instr} {imm : Byte} {ops : ModeOpcodes} (o : ReadOperand)
    (henc : ∀ o, encode (f o) = o.encode imm ops) (himm : layoutOf imm = .byte fun v => f (.imm v))
    (hmem : ops.Select fun m => f (.mem m)) : DecodesBack (f o) := by
  cases o with
  | imm v => exact decodesBack_byte (f := fun v => f (.imm v)) (henc _) himm
  | mem m => exact decodesBack_mem (f := fun m => f (.mem m)) m (fun m => henc _) hmem

theorem decodesBack_modify {f : ModifyOperand → Instr} {acc : Byte} {ops : ModeOpcodes} (o : ModifyOperand)
    (henc : ∀ o, encode (f o) = o.encode acc ops) (hacc : layoutOf acc = .one (f .acc))
    (hmem : ops.Select fun m => f (.mem m)) : DecodesBack (f o) := by
  cases o with
  | acc => exact decodesBack_one (henc _) hacc
  | mem m => exact decodesBack_mem (f := fun m => f (.mem m)) m (fun m => henc _) hmem

theorem decodesBack_nop (f : NopForm) : DecodesBack (.nop f) := by
  cases f with
  | imp k => exact decodesBack_one rfl (by fin_cases k <;> rfl)
  | imm k v => exact decodesBack_byte (f := fun v => .nop (.imm k v)) rfl (by fin_cases k <;> rfl)
  | zp k z => exact decodesBack_byte (f := fun z => .nop (.zp k z)) rfl (by fin_cases k <;> rfl)
  | zpx k z => exact decodesBack_byte (f := fun z => .nop (.zpx k z)) rfl (by fin_cases k <;> rfl)
  | abs a => exact decodesBack_word (f := fun a => .nop (.abs a)) rfl rfl
  | abx k a => exact decodesBack_word (f := fun a => .nop (.abx k a)) rfl (by fin_cases k <;> rfl)

/-- Every instruction's bytes decode to it: by the operand it takes, once its opcodes are looked up in the map. -/
theorem decode_encode (i : Instr) : DecodesBack i := by
  cases i with
  | lda o | ldx o | ldy o | adc o | sbc o | and o | ora o | eor o | cmp o | cpx o | cpy o =>
    exact decodesBack_read o (fun _ => rfl) rfl ⟨rfl, rfl, rfl, rfl, rfl, rfl, rfl, rfl⟩
  | asl o | lsr o | rol o | ror o =>
    exact decodesBack_modify o (fun _ => rfl) rfl ⟨rfl, rfl, rfl, rfl, rfl, rfl, rfl, rfl⟩
  | sta m | stx m | sty m | bit m | inc m | dec m | slo m | rla m | sre m | rra m | sax m | lax m | dcp m | isc m
  | sha m =>
    exact decodesBack_mem m (fun _ => rfl) ⟨rfl, rfl, rfl, rfl, rfl, rfl, rfl, rfl⟩
  | tax | tay | txa | tya | tsx | txs | pha | php | pla | plp | inx | iny | dex | dey | rts | rti | brk | clc | sec | cli
  | sei | cld | sed | clv => exact decodesBack_one rfl rfl
  | bpl v | bmi v | bvc v | bvs v | bcc v | bcs v | bne v | beq v | alr v | arr v | sbx v | ane v | lxa v | usbc v =>
    exact decodesBack_byte rfl rfl
  | jsr a | shx a | shy a | tas a | las a => exact decodesBack_word rfl rfl
  | jmp t =>
    cases t with
    | abs a => exact decodesBack_word (f := fun a => .jmp (.abs a)) rfl rfl
    | ind a => exact decodesBack_word (f := fun a => .jmp (.ind a)) rfl rfl
  | nop f => exact decodesBack_nop f
  | anc k v => exact decodesBack_byte (f := .anc k) rfl (by fin_cases k <;> rfl)
  | jam k => exact decodesBack_one rfl (by fin_cases k <;> rfl)

/-- The members of the family EncodeLength put together. -/
theorem Laws.EncodeLength.statement (i : Instr) : Statement i :=
  match i with
  | .lda o => lda o | .ldx o => ldx o | .ldy o => ldy o | .sta m => sta m | .stx m => stx m | .sty m => sty m
  | .tax => tax | .tay => tay | .txa => txa | .tya => tya | .tsx => tsx | .txs => txs | .pha => pha | .php => php
  | .pla => pla | .plp => plp | .adc o => adc o | .sbc o => sbc o | .and o => and o | .ora o => ora o
  | .eor o => eor o | .cmp o => cmp o | .cpx o => cpx o | .cpy o => cpy o | .bit m => bit m | .inc m => inc m
  | .dec m => dec m | .inx => inx | .iny => iny | .dex => dex | .dey => dey | .asl o => asl o | .lsr o => lsr o
  | .rol o => rol o | .ror o => ror o | .bpl v => bpl v | .bmi v => bmi v | .bvc v => bvc v | .bvs v => bvs v
  | .bcc v => bcc v | .bcs v => bcs v | .bne v => bne v | .beq v => beq v | .jmp t => jmp t | .jsr a => jsr a
  | .rts => rts | .rti => rti | .brk => brk | .clc => clc | .sec => sec | .cli => cli | .sei => sei | .cld => cld
  | .sed => sed | .clv => clv | .nop f => nop f | .slo m => slo m | .rla m => rla m | .sre m => sre m
  | .rra m => rra m | .sax m => sax m | .lax m => lax m | .dcp m => dcp m | .isc m => isc m | .anc k v => anc k v
  | .alr v => alr v | .arr v => arr v | .sbx v => sbx v | .ane v => ane v | .lxa v => lxa v | .sha m => sha m
  | .shx a => shx a | .shy a => shy a | .tas a => tas a | .las a => las a | .usbc v => usbc v | .jam k => jam k

theorem encode_isSome (i : Instr) : (encode i).isSome = i.wellFormed := (Laws.EncodeLength.statement i).1

/-- Settles O2: a well-formed instruction has bytes (`encode_isSome`), and they decode to it (`decode_encode`). -/
theorem decodeEncode : Obligations.DecodeEncode := by
  unfold Obligations.DecodeEncode
  intro i hwf
  obtain ⟨bytes, hbytes⟩ := Option.isSome_iff_exists.mp ((encode_isSome i).trans hwf)
  exact ⟨bytes, hbytes, decode_encode i bytes hbytes⟩

/-! ## The bytes an instruction is decoded from are its own -/

/-- The bytes of a layout's instruction: the opcode and as many operand bytes as the layout has. -/
def Layout.bytes (l : Layout) (op b₁ b₂ : Byte) : List Byte :=
  match l with
  | .one _ => [op]
  | .byte _ => [op, b₁]
  | .word _ => wordForm op (wordOf b₁ b₂)

/-- Whatever operand bytes a layout is given, the instruction it builds is encoded by the opcode and these bytes. -/
def Layout.EncodesAs (l : Layout) (op : Byte) : Prop := ∀ b₁ b₂, encode (l.build b₁ b₂) = some (l.bytes op b₁ b₂)

/-- The layouts of a list encode as the opcodes from `first` up. -/
def EncodeFrom (first : Nat) : List Layout → Prop
  | [] => True
  | l :: rest => l.EncodesAs (BitVec.ofNat 8 first) ∧ EncodeFrom (first + 1) rest

theorem EncodeFrom.get {first : Nat} {ls : List Layout} (h : EncodeFrom first ls) {k : Nat} {l : Layout}
    (hk : ls[k]? = some l) : l.EncodesAs (BitVec.ofNat 8 (first + k)) := by
  induction ls generalizing first k with
  | nil => cases hk
  | cons l' rest ih =>
    cases k with
    | zero => cases hk; exact h.1
    | succ k => simpa [Nat.add_assoc, Nat.add_comm 1] using ih h.2 hk

/-- Every row of the map encodes as its own opcode: read off the 256 layouts, one after the other. -/
theorem opcodeMap_encodes : EncodeFrom 0 opcodeMap := by
  and_intros
  any_goals exact trivial
  all_goals exact fun _ _ => rfl

theorem layoutOf_encodesAs (op : Byte) : (layoutOf op).EncodesAs op := by
  have hlt : op.toNat < opcodeMap.length := opcodeMap_length ▸ op.isLt
  have hget : opcodeMap[op.toNat]? = some (layoutOf op) := by
    rw [layoutOf, List.getD_eq_getElem _ _ hlt, List.getElem?_eq_getElem hlt]
  simpa using opcodeMap_encodes.get hget

theorem Layout.length_le_three (l : Layout) : l.length ≤ 3 := by
  cases l <;> simp [Layout.length]

/-- Three bytes are enough for every opcode: decoding builds the layout's instruction and leaves what it does not use. -/
theorem decode_three (op b₁ b₂ : Byte) (rest : List Byte) :
    decode (op :: b₁ :: b₂ :: rest)
      = .ok ((layoutOf op).build b₁ b₂, (op :: b₁ :: b₂ :: rest).drop (layoutOf op).length) := by
  cases h : layoutOf op with
  | one i => exact decode_one h _
  | byte f => exact decode_byte h b₁ _
  | word f => exact decode_word h b₁ b₂ rest

/-- What a successful decoding can be, by the layout of the opcode. -/
theorem decode_cases {bytes : List Byte} {i : Instr} {after : List Byte} (h : decode bytes = .ok (i, after)) :
    ∃ op, (layoutOf op = .one i ∧ bytes = op :: after)
      ∨ (∃ f b, layoutOf op = .byte f ∧ i = f b ∧ bytes = op :: b :: after)
      ∨ ∃ f lo hi, layoutOf op = .word f ∧ i = f (wordOf lo hi) ∧ bytes = op :: lo :: hi :: after := by
  cases bytes with
  | nil => cases h
  | cons op rest =>
    refine ⟨op, ?_⟩
    cases hl : layoutOf op with
    | one j =>
      cases h.symm.trans (decode_one hl rest)
      exact .inl ⟨rfl, rfl⟩
    | byte f =>
      cases rest with
      | nil => simp [decode, hl] at h
      | cons b rest =>
        cases h.symm.trans (decode_byte hl b rest)
        exact .inr (.inl ⟨f, b, rfl, rfl, rfl⟩)
    | word f =>
      match rest with
      | [] => simp [decode, hl] at h
      | [_] => simp [decode, hl] at h
      | lo :: hi :: rest =>
        cases h.symm.trans (decode_word hl lo hi rest)
        exact .inr (.inr ⟨f, lo, hi, rfl, rfl, rfl⟩)

/-- The bytes the decoder consumed are the encoding of the instruction it gives. -/
theorem encode_of_decode {bytes : List Byte} {i : Instr} {after : List Byte} (h : decode bytes = .ok (i, after)) :
    ∃ own, encode i = some own ∧ own ++ after = bytes := by
  obtain ⟨op, ⟨hl, rfl⟩ | ⟨f, b, hl, rfl, rfl⟩ | ⟨f, lo, hi, hl, rfl, rfl⟩⟩ := decode_cases h
  all_goals
    have henc := layoutOf_encodesAs op
    rw [hl] at henc
  · exact ⟨[op], henc 0 0, rfl⟩
  · exact ⟨[op, b], henc b 0, rfl⟩
  · exact ⟨wordForm op (wordOf lo hi), henc lo hi, by simp [wordForm]⟩

theorem wellFormed_of_encode {i : Instr} {bytes : List Byte} (h : encode i = some bytes) : i.wellFormed = true := by
  rw [← encode_isSome, h]
  rfl

/-- Settles O3: three bytes always decode (`decode_three`), and what they decode to has the consumed bytes for its
encoding (`encode_of_decode`). -/
theorem everyOpcodeIsDefined : Obligations.EveryOpcodeIsDefined := by
  unfold Obligations.EveryOpcodeIsDefined
  intro op b₁ b₂ rest
  have hdec := decode_three op b₁ b₂ rest
  obtain ⟨bytes, henc, happ⟩ := encode_of_decode hdec
  exact ⟨_, bytes, _, hdec, wellFormed_of_encode henc, henc, happ⟩

/-- A byte string that is the encoding of an instruction decodes to it, with nothing left over. -/
theorem decode_of_encode {i : Instr} {bytes : List Byte} (h : encode i = some bytes) : decode bytes = .ok (i, []) := by
  simpa using decode_encode i bytes h []

/-- Settles O1: each sample is the encoding of the instruction beside it. -/
theorem sampleWordsDecode : Obligations.SampleWordsDecode := by
  unfold Obligations.SampleWordsDecode
  and_intros <;> exact decode_of_encode rfl

/-- The halt opcodes are single bytes. -/
theorem length_of_decode_jam {bytes : List Byte} {k : Fin 12} (h : decode bytes = .ok (.jam k, [])) :
    bytes.length = 1 := by
  obtain ⟨own, henc, rfl⟩ := encode_of_decode h
  rw [List.append_nil]
  exact (Laws.EncodeLength.statement (.jam k)).2 own henc

end Sys2Proof
end

section
/-! SUPPORT. The settled statements about the addressing modes and the cycle costs (30_encoding.md R166 to R180). -/

namespace Sys2Proof.Machine

/-! ## Effective addresses as numbers -/

theorem toNat_zeroPage (z : Byte) : (zeroPage z).toNat = z.toNat := by
  simp only [zeroPage, BitVec.toNat_setWidth]
  omega

theorem zeroPage_eq_ofNat {z : Byte} {n : Nat} (h : z.toNat = n % 256) : zeroPage z = BitVec.ofNat 16 (n % 256) := by
  apply BitVec.eq_of_toNat_eq
  rw [toNat_zeroPage, h, BitVec.toNat_ofNat]
  omega

theorem toNat_wordOf (lo hi : Byte) : (wordOf lo hi).toNat = lo.toNat + 256 * hi.toNat := by
  rw [wordOf, BitVec.toNat_append, ← Nat.shiftLeft_add_eq_or_of_lt lo.isLt, Nat.shiftLeft_eq]
  omega

theorem toNat_hiByte (w : Word) : (hiByte w).toNat = w.toNat / 256 := by
  rw [hiByte, BitVec.extractLsb'_toNat, Nat.shiftRight_eq_div_pow]
  omega

theorem hiByte_bne (v w : Word) : (hiByte v != hiByte w) = decide (v.toNat / 256 ≠ w.toNat / 256) := by
  rw [Bool.eq_iff_iff, bne_iff_ne, decide_eq_true_iff, Ne, ← BitVec.toNat_inj, toNat_hiByte, toNat_hiByte]

/-- The word that two successive bus reads give at a zero-page pointer, the pointer taken modulo 256 (R173, R174). -/
def zeroPageWord (p : Nat) (s : State) : Nat :=
  let lo := busRead (BitVec.ofNat 16 (p % 256)) s
  lo.1.toNat + 256 * (busRead (BitVec.ofNat 16 ((p + 1) % 256)) lo.2).1.toNat

theorem toNat_read16Zp {z : Byte} {p : Nat} (h : z.toNat = p % 256) (s : State) :
    (read16Zp z s).1.toNat = zeroPageWord p s := by
  have hnext : (z + 1).toNat = (p + 1) % 256 := by rw [BitVec.toNat_add, h]; simp
  simp only [read16Zp, toNat_wordOf, zeroPageWord, zeroPage_eq_ofNat h, zeroPage_eq_ofNat hnext]

/-- Indexing adds modulo 65536 (R170, R171, R174) and crosses a page when the high byte changes (R176). -/
theorem indexed_spec (base : Word) (index : Byte) :
    (Address.indexed base index).ea.toNat = (base.toNat + index.toNat) % 65536
      ∧ (Address.indexed base index).crossed
          = decide (base.toNat / 256 ≠ (base.toNat + index.toNat) % 65536 / 256) := by
  have hea : (Address.indexed base index).ea.toNat = (base.toNat + index.toNat) % 65536 := by
    simp only [Address.indexed, BitVec.toNat_add, BitVec.toNat_setWidth]
    omega
  refine ⟨hea, ?_⟩
  rw [← hea]
  exact hiByte_bne _ _

/-- Settles O30: the indexed modes by `indexed_spec`, the pointer modes by `toNat_read16Zp`. -/
theorem effectiveAddresses : Obligations.EffectiveAddresses := by
  unfold Obligations.EffectiveAddresses
  intro s z a
  have hzpx : (z + s.x).toNat = (z.toNat + s.x.toNat) % 256 := BitVec.toNat_add z s.x
  have hzpy : (z + s.y).toNat = (z.toNat + s.y.toNat) % 256 := BitVec.toNat_add z s.y
  have hz : z.toNat = z.toNat % 256 := (Nat.mod_eq_of_lt z.isLt).symm
  refine ⟨⟨toNat_zeroPage z, rfl⟩, ⟨(toNat_zeroPage _).trans hzpx, rfl⟩, ⟨(toNat_zeroPage _).trans hzpy, rfl⟩,
    ⟨rfl, rfl⟩, indexed_spec a s.x, indexed_spec a s.y, ⟨toNat_read16Zp hzpx s, rfl⟩, ?_⟩
  have h := indexed_spec (read16Zp z s).1 s.y
  rw [toNat_read16Zp hz] at h
  exact h

/-! ## The cycles of every instruction -/

/-- A number of cycles is at least a base cost, and exceeds it by the extra at most. -/
def WithinCost (n : Nat) (cost : Nat × Nat) : Prop := cost.1 ≤ n ∧ n ≤ cost.1 + cost.2

theorem within_base (n : Nat) : WithinCost n (n, 0) := ⟨Nat.le_refl n, Nat.le_refl n⟩

/-- The extra of the modes whose reads are page-cross sensitive (30_encoding.md R180). -/
def crossExtra : MemMode → Nat
  | .abx _ | .aby _ | .izy _ => 1
  | .zp _ | .zpx _ | .zpy _ | .abs _ | .izx _ => 0

def memReadCost (m : MemMode) : Nat × Nat := (readCycles m, crossExtra m)

def readCost : ReadOperand → Nat × Nat
  | .imm _ => (2, 0)
  | .mem m => memReadCost m

def modifyCost : ModifyOperand → Nat × Nat
  | .acc => (2, 0)
  | .mem m => (modifyCycles m, 0)

def jumpCost : JumpOperand → Nat × Nat
  | .abs _ => (3, 0)
  | .ind _ => (5, 0)

def nopCost : NopForm → Nat × Nat
  | .imp _ | .imm _ _ => (2, 0)
  | .zp _ z => memReadCost (.zp z)
  | .zpx _ z => memReadCost (.zpx z)
  | .abs a => memReadCost (.abs a)
  | .abx _ a => memReadCost (.abx a)

/-- The cost of an instruction from its operand: base cycles, and the most they can grow. A halt opcode has none, its
cost is a parameter (43_undocumented.md R375). -/
def instrCost : Instr → Nat × Nat
  | .lda o | .ldx o | .ldy o | .adc o | .sbc o | .and o | .ora o | .eor o | .cmp o | .cpx o | .cpy o => readCost o
  | .bit m | .lax m => memReadCost m
  | .las a => memReadCost (.aby a)
  | .sta m | .stx m | .sty m | .sax m | .sha m => (storeCycles m, 0)
  | .shx a | .tas a => (storeCycles (.aby a), 0)
  | .shy a => (storeCycles (.abx a), 0)
  | .asl o | .lsr o | .rol o | .ror o => modifyCost o
  | .inc m | .dec m | .slo m | .rla m | .sre m | .rra m | .dcp m | .isc m => (modifyCycles m, 0)
  | .bpl _ | .bmi _ | .bvc _ | .bvs _ | .bcc _ | .bcs _ | .bne _ | .beq _ => (2, 2)
  | .tax | .tay | .txa | .tya | .tsx | .txs | .inx | .iny | .dex | .dey => (2, 0)
  | .clc | .sec | .cli | .sei | .cld | .sed | .clv => (2, 0)
  | .anc _ _ | .alr _ | .arr _ | .sbx _ | .ane _ | .lxa _ | .usbc _ => (2, 0)
  | .pha | .php => (3, 0)
  | .pla | .plp => (4, 0)
  | .jmp t => jumpCost t
  | .jsr _ | .rts | .rti => (6, 0)
  | .brk => (7, 0)
  | .nop f => nopCost f
  | .jam _ => (0, 0)

/-- The costs by operand are the cost column of the map (R179). -/
theorem instrCost_of_encode {i : Instr} {op : Byte} {rest : List Byte} (h : encode i = some (op :: rest)) :
    instrCost i = cycleEntry op := by
  cases i with
  | lda o | ldx o | ldy o | adc o | sbc o | and o | ora o | eor o | cmp o | cpx o | cpy o =>
    cases o with
    | imm v => cases h; rfl
    | mem m => cases m <;> cases h <;> rfl
  | asl o | lsr o | rol o | ror o =>
    cases o with
    | acc => cases h; rfl
    | mem m => cases m <;> cases h <;> rfl
  | sta m | stx m | sty m | bit m | inc m | dec m | slo m | rla m | sre m | rra m | sax m | lax m | dcp m | isc m
  | sha m =>
    cases m <;> cases h <;> rfl
  | jmp t => cases t <;> cases h <;> rfl
  | nop f =>
    cases f with
    | imp k | imm k v | zp k z | zpx k z | abx k a => cases h; fin_cases k <;> rfl
    | abs a => cases h; rfl
  | anc k v | jam k => cases h; fin_cases k <;> rfl
  | _ => cases h; rfl

theorem pageCrossed_le (m : MemMode) (s : State) : (pageCrossed m s).toNat ≤ crossExtra m := by
  cases m with
  | abx a | aby a | izy z => exact Bool.toNat_le _
  | zp z | zpx z | zpy z | abs a | izx z => exact Nat.le_refl 0

theorem loadMem_within (m : MemMode) (s : State) : WithinCost (loadMem m s).2.cycles (memReadCost m) := by
  have hextra := pageCrossed_le m s
  rw [← effAddr_crossed] at hextra
  exact ⟨Nat.le_add_right _ _, Nat.add_le_add_left hextra _⟩

theorem load_within (o : ReadOperand) (s : State) : WithinCost (load o s).2.cycles (readCost o) := by
  cases o with
  | imm v => exact within_base 2
  | mem m => exact loadMem_within m s

theorem branch_within (c : Bool) (off : Byte) (s : State) : WithinCost (branch c off s).cycles (2, 2) := by
  unfold branch
  split
  · simp only [State.withCycles_cycles]
    split <;> simp [WithinCost]
  · simp [WithinCost]

/-- Every instruction but JAM answers a next state within its cost. -/
theorem exec_within (i : Instr) (s : State) (hjam : ∀ k, i ≠ .jam k) :
    ∃ t, exec i s = .next t ∧ WithinCost t.cycles (instrCost i) := by
  cases i with
  | lda o | ldx o | ldy o | adc o | sbc o | and o | ora o | eor o | cmp o | cpx o | cpy o =>
    exact ⟨_, rfl, load_within o s⟩
  | bit m | lax m => exact ⟨_, rfl, loadMem_within m s⟩
  | las a => exact ⟨_, rfl, loadMem_within (.aby a) s⟩
  | asl o | lsr o | rol o | ror o =>
    cases o with
    | acc => exact ⟨_, rfl, within_base 2⟩
    | mem m => exact ⟨_, rfl, within_base _⟩
  | bpl off | bmi off | bvc off | bvs off | bcc off | bcs off | bne off | beq off =>
    exact ⟨_, rfl, branch_within _ off s⟩
  | jmp t =>
    cases t with
    | abs a => exact ⟨_, rfl, within_base 3⟩
    | ind a => exact ⟨_, rfl, within_base 5⟩
  | nop f =>
    cases f with
    | imp k | imm k v => exact ⟨_, rfl, within_base 2⟩
    | zp k z | zpx k z | abs a | abx k a => exact ⟨_, rfl, loadMem_within _ s⟩
  | jam k => exact absurd rfl (hjam k)
  | _ => exact ⟨_, rfl, within_base _⟩

/-- Settles O31: an instruction runs within its cost (`exec_within`), which by its own encoding is the map's entry for the
opcode it came from. -/
theorem cyclesOfEveryOpcode : Obligations.CyclesOfEveryOpcode := by
  unfold Obligations.CyclesOfEveryOpcode
  intro op b₁ b₂ s
  have hcost : instrCost ((layoutOf op).build b₁ b₂) = cycleEntry op := by
    have henc := layoutOf_encodesAs op b₁ b₂
    cases hl : layoutOf op <;> rw [hl] at henc <;> exact instrCost_of_encode henc
  by_cases hjam : ∃ k, (layoutOf op).build b₁ b₂ = .jam k
  · obtain ⟨k, hk⟩ := hjam
    rw [hk]
    exact ⟨_, rfl, fun _ => rfl, fun h => absurd rfl (h k)⟩
  · obtain ⟨t, hexec, hwithin⟩ := exec_within _ s (not_exists.mp hjam)
    rw [hcost] at hwithin
    exact ⟨t, hexec, fun h => absurd h hjam, fun _ => hwithin⟩

end Sys2Proof.Machine
end

section
/-! SUPPORT. The settled statements about fetching (30_encoding.md R160, R178) and the step that follows it. -/

namespace Sys2Proof.Machine

/-! ## What a fetch returns and leaves unchanged -/

theorem fetch8_eq (s : State) : fetch8 s = ((busRead s.pc s).1, (busRead s.pc s).2.withPc (s.pc + 1)) := rfl

theorem fetch8_withPc (pc : Word) (s : State) :
    fetch8 (s.withPc pc) = ((busRead pc s).1, (busRead pc s).2.withPc (pc + 1)) := rfl

/-- While the CPU runs, the fetch builds the layout of the byte at PC from the next two bytes successive reads return. -/
theorem fetch_running_build {s : State} (h : s.jammed = false) :
    let r₁ := busRead s.pc s
    let r₂ := busRead (s.pc + 1) r₁.2
    let r₃ := busRead (s.pc + 2) r₂.2
    (fetch s).1 = (layoutOf r₁.1).build r₂.1 r₃.1
      ∧ (fetch s).2.pc = s.pc + BitVec.ofNat 16 (layoutOf r₁.1).length := by
  have htwo : s.pc + 1 + 1 = s.pc + 2 := BitVec.add_assoc s.pc 1 1
  have hthree : s.pc + 2 + 1 = s.pc + 3 := BitVec.add_assoc s.pc 2 1
  cases hl : layoutOf (busRead s.pc s).1 <;>
    simp only [fetch_running h, fetch8_eq s, fetch8_withPc, hl, htwo, hthree, State.withPc_pc] <;>
    exact ⟨rfl, rfl⟩

/-- A property that fetching one byte keeps is kept by fetching an instruction. -/
theorem fetch_keeps {P : State → Prop} (h : ∀ u, P u → P (fetch8 u).2) {s : State} (hs : P s) : P (fetch s).2 := by
  unfold fetch
  dsimp only
  split
  · exact h _ hs
  · exact h _ (h _ hs)
  · exact h _ (h _ (h _ hs))

/-- `u` is `s` but for PC, the cycle count and what bus reads change. -/
def FetchFrame (s u : State) : Prop :=
  MachineFrame s u ∧ NoStore s u ∧ u.a = s.a ∧ u.x = s.x ∧ u.y = s.y ∧ u.sp = s.sp ∧ u.p = s.p

theorem fetch8_keeps_fetchFrame (s u : State) (h : FetchFrame s u) : FetchFrame s (fetch8 u).2 := by
  obtain ⟨hframe, hstore, hregs⟩ := h
  obtain ⟨h₁, h₂, h₃, h₄, h₅, h₆, h₇, h₈, h₉, h₁₀⟩ := hframe
  obtain ⟨hbytes, hmem, hram, hvideo, hevents⟩ := hstore
  exact ⟨⟨h₁, h₂, h₃, h₄, h₅, h₆, h₇, h₈, h₉, h₁₀⟩, ⟨hbytes, hmem, hram, hvideo, hevents⟩, hregs⟩

/-- Settles O4: the fetch builds what `decode_three` gives for the same bytes, and each byte it fetches keeps the frame. -/
theorem fetchDecodesWhatTheBusReturns : Obligations.FetchDecodesWhatTheBusReturns := by
  unfold Obligations.FetchDecodesWhatTheBusReturns
  intro s r₁ r₂ r₃
  refine ⟨fun hrun => ?_, fun hjam => ?_, ?_⟩
  · obtain ⟨hbuild, hpc⟩ := fetch_running_build hrun
    refine ⟨_, hbuild ▸ decode_three r₁.1 r₂.1 r₃.1 [], ?_⟩
    rw [hpc, List.length_drop]
    exact congrArg (s.pc + BitVec.ofNat 16 ·) (Nat.sub_sub_self (Layout.length_le_three _)).symm
  · rw [fetch_jammed hjam]
    exact ⟨⟨0, rfl⟩, rfl⟩
  · exact fetch_keeps (fetch8_keeps_fetchFrame s) ⟨machineFrame_refl s, noStore_refl s, rfl, rfl, rfl, rfl, rfl⟩

/-! ## Fetching from plain memory -/

/-- The state after `n` bytes have been fetched from plain memory, the last of them `last`. -/
def State.fetched (s : State) (n : Nat) (last : Byte) : State :=
  { s with
    pc := s.pc + BitVec.ofNat 16 n
    lastAddr := s.pc + BitVec.ofNat 16 (n - 1)
    lastData := last
    lastRw := .read }

theorem fetch8_of_peek {s : State} {v : Byte} (h : s.peek s.pc = some v) : fetch8 s = (v, s.fetched 1 v) := by
  simp [fetch8, busRead_of_peek h, State.fetched, State.withPc]

theorem fetch8_fetched {s : State} {n : Nat} {last v : Byte} (h : s.peek (s.pc + BitVec.ofNat 16 n) = some v) :
    fetch8 (s.fetched n last) = (v, s.fetched (n + 1) v) := by
  have hread : (s.fetched n last).peek (s.fetched n last).pc = some v := h
  rw [fetch8_of_peek hread]
  simp [State.fetched, BitVec.ofNat_add, BitVec.add_assoc]

/-- Bytes of plain memory at PC that decode to an instruction are fetched as it while the CPU runs. -/
theorem fetch_of_decode {s : State} {bytes : List Byte} {i : Instr} {last : Byte} (hrun : s.jammed = false)
    (hdec : decode bytes = .ok (i, []))
    (hmem : ∀ k v, bytes[k]? = some v → s.peek (s.pc + BitVec.ofNat 16 k) = some v)
    (hlast : bytes.getLast? = some last) : fetch s = (i, s.fetched bytes.length last) := by
  have hat (k : Nat) {v w : Byte} (hv : bytes[k]? = some v) := fetch8_fetched (last := w) (hmem k v hv)
  obtain ⟨op, ⟨hl, rfl⟩ | ⟨f, b, hl, rfl, rfl⟩ | ⟨f, lo, hi, hl, rfl, rfl⟩⟩ := decode_cases hdec
  all_goals
    have hop : fetch8 s = (op, s.fetched 1 op) := fetch8_of_peek (by simpa using hmem 0 op rfl)
    cases hlast
  · simp [fetch_running hrun, hop, hl]
  · simp [fetch_running hrun, hop, hl, hat 1 rfl]
  · simp [fetch_running hrun, hop, hl, hat 1 rfl, hat 2 rfl]

/-- While the CPU is jammed, a halt opcode in plain memory at PC is fetched as a halt opcode. -/
theorem fetch_of_decode_jammed {s : State} {bytes : List Byte} {k : Fin 12} {last : Byte} (hjam : s.jammed = true)
    (hdec : decode bytes = .ok (.jam k, []))
    (hmem : ∀ k v, bytes[k]? = some v → s.peek (s.pc + BitVec.ofNat 16 k) = some v)
    (hlast : bytes.getLast? = some last) : fetch s = (.jam 0, s.fetched bytes.length last) := by
  obtain ⟨op, rfl⟩ := List.length_eq_one_iff.mp (length_of_decode_jam hdec)
  cases hlast
  have hop : fetch8 s = (op, s.fetched 1 op) := fetch8_of_peek (by simpa using hmem 0 op rfl)
  simp [fetch_jammed hjam, hop]

/-! ## The step -/

/-- A step that is neither halted nor an interrupt entry runs the fetched instruction, and its cycles pass. -/
theorem step_of_exec {s t : State} (hh : halted s = false) (hp : pendingInterrupt s = none)
    (he : exec (fetch s).1 (fetch s).2 = .next t) : step s = .next (finishTick t) := by
  simp [step, hh, hp, he, finish]

theorem mode_closed (n : Nat) (m : Mode) : Closed n fun u => u.mode = m where
  read _ _ h := h
  write _ _ _ _ _ _ h := by rwa [busWrite_mode]
  regs _ _ _ _ _ _ _ _ h := h
  jam _ h := h

/-- The end of a tick, field by field (45_orchestrator.md R502, R503). -/
theorem finishTick_eq (t : State) :
    finishTick t = { t with
      video := if t.mode = .console then videoSteps t.cfg (3 * t.cycles) t.video else t.video
      events := .clock t.cycles :: t.events
      totalCycles := t.totalCycles + t.cycles } := by
  by_cases h : t.mode = .console <;> simp [finishTick, elapse, periphClock, State.dual, h]

/-- Settles O5: the bytes in memory are fetched (`fetch_of_decode`; while jammed `fetch_of_decode_jammed`, since the meaning
of a halt opcode does not look at which it is), and the step runs what was fetched (`step_of_exec`). -/
theorem stepRunsTheDecodedInstruction : Obligations.StepRunsTheDecodedInstruction := by
  unfold Obligations.StepRunsTheDecodedInstruction
  intro s i bytes hh hp hdec hjam hmem last hlast
  have hfetch : exec (fetch s).1 (fetch s).2 = exec i (s.fetched bytes.length last) := by
    cases hj : s.jammed with
    | false => rw [fetch_of_decode hj hdec hmem hlast]
    | true =>
      obtain ⟨k, rfl⟩ := hjam hj
      rw [fetch_of_decode_jammed hj hdec hmem hlast]
      rfl
  obtain ⟨t, ht⟩ := exec_next i (s.fetched bytes.length last)
  have hmode : t.mode = s.mode := exec_keeps (P := fun u => u.mode = s.mode) (fun n => mode_closed n s.mode) ht rfl
  refine ⟨t, ht, ?_⟩
  rw [step_of_exec hh hp (hfetch.trans ht), finishTick_eq, hmode]

end Sys2Proof.Machine
end

section
/-! SUPPORT. The settled statements about loads, stores, transfers and the stack instructions (40_load_store.md). -/

namespace Sys2Proof.Machine

/-! ## Registers after an update -/

namespace CpuIs

variable {t : State} {a x y sp : Byte} {pc : Word} {p : Flags} {n : Nat} (h : CpuIs t a x y sp pc p n)

include h

theorem withA (v : Byte) : CpuIs (t.withA v) v x y sp pc p n := { h with a_eq := rfl }
theorem withX (v : Byte) : CpuIs (t.withX v) a v y sp pc p n := { h with x_eq := rfl }
theorem withY (v : Byte) : CpuIs (t.withY v) a x v sp pc p n := { h with y_eq := rfl }
theorem withSp (v : Byte) : CpuIs (t.withSp v) a x y v pc p n := { h with sp_eq := rfl }
theorem withP (q : Flags) : CpuIs (t.withP q) a x y sp pc q n := { h with p_eq := rfl }
theorem withCycles (k : Nat) : CpuIs (t.withCycles k) a x y sp pc p k := { h with cycles_eq := rfl }

theorem setNZ (v : Byte) : CpuIs (t.setNZ v) a x y sp pc (nzOf v p) n := by
  rw [State.setNZ_eq, h.p_eq]
  exact h.withP _

end CpuIs

/-! ## Loads -/

theorem load_cpuIs (o : ReadOperand) (s : State) :
    CpuIs (load o s).2 s.a s.x s.y s.sp s.pc s.p (readOperandCycles o s) := by
  constructor <;> simp

theorem readOperandCycles_mem (m : MemMode) (s : State) :
    readOperandCycles (.mem m) s = if pageCrossed m s then readCycles m + 1 else readCycles m := by
  show readCycles m + (if pageCrossed m s then 1 else 0) = _
  split <;> rfl

/-- Settles O9: each load is `load`, whose registers and frame are known, and then register updates only. -/
theorem loadResults : Obligations.LoadResults := by
  unfold Obligations.LoadResults
  intro s
  refine ⟨fun o => ?_, fun m => ?_, fun a => ?_⟩
  · rw [← load_byte]
    exact ⟨⟨_, rfl, ((load_cpuIs o s).withA _).setNZ _, frame_of_load rfl⟩,
      ⟨_, rfl, ((load_cpuIs o s).withX _).setNZ _, frame_of_load rfl⟩,
      ⟨_, rfl, ((load_cpuIs o s).withY _).setNZ _, frame_of_load rfl⟩⟩
  · exact ⟨_, rfl, (((load_cpuIs (.mem m) s).withA _).withX _).setNZ _, frame_of_load rfl⟩
  · have hcpu := load_cpuIs (.mem (.aby a)) s
    rw [readOperandCycles_mem] at hcpu
    exact ⟨_, rfl, (((hcpu.withA _).setNZ _).withX _).withSp _, frame_of_load rfl⟩

/-! ## Stores -/

theorem store_cpuIs (m : MemMode) (v : Byte) (s : State) :
    CpuIs (store m v s) s.a s.x s.y s.sp s.pc s.p (storeCycles m) := by
  constructor <;> simp

/-- Settles O19: the four instructions are `store` with different values. -/
theorem storeResults : Obligations.StoreResults := by
  unfold Obligations.StoreResults
  intro s m done
  have hdone {i : Instr} {v : Byte} (hexec : exec i s = .next (store m v s)) : done i v :=
    ⟨_, hexec, store_cpuIs m v s, store_frame m v s, store_oneStore m v s⟩
  exact ⟨hdone rfl, hdone rfl, hdone rfl, hdone rfl⟩

/-! ## The stack -/

theorem stackAddr_eq_ofNat (sp : Byte) : stackAddr sp = BitVec.ofNat 16 (0x100 + sp.toNat) := by
  have hsp := sp.isLt
  apply BitVec.eq_of_toNat_eq
  rw [stackAddr, toNat_wordOf, BitVec.toNat_ofNat]
  show sp.toNat + 256 * 1 = _
  omega

/-- The pushed status byte as a number (10_state.md R43). -/
theorem statusByte_eq_ofNat (p : Flags) (b : Bool) :
    statusByte p b = BitVec.ofNat 8
      (128 * p.n.toNat + 64 * p.v.toNat + 32 + 16 * b.toNat + 8 * p.d.toNat + 4 * p.i.toNat + 2 * p.z.toNat
        + p.c.toNat) := by
  obtain ⟨c, z, i, d, b₀, v, n⟩ := p
  revert c z i d b₀ v n b
  decide

theorem push_cpuIs (k : Nat) (v : Byte) (s : State) :
    CpuIs (push k v s) s.a s.x s.y (s.sp - 1) s.pc s.p s.cycles := by
  constructor <;> simp

theorem push_frame (k : Nat) (v : Byte) (s : State) : MachineFrame s (push k v s) := by
  constructor <;> simp

theorem pull_cpuIs (s : State) : CpuIs (pull s).2 s.a s.x s.y (s.sp + 1) s.pc s.p s.cycles := by
  constructor <;> simp

theorem pull_frame (s : State) : MachineFrame s (pull s).2 := by
  constructor <;> simp

theorem pull_noStore (s : State) : NoStore s (pull s).2 := by
  constructor <;> simp

/-- S is no part of what a read looks at, so a pull returns what the bus returns at the slot above it. -/
theorem pull_byte (s : State) : (pull s).1 = (busRead (stackAddr (s.sp + 1)) s).1 := rfl

theorem pull_lastRead (s : State) : LastRead (stackAddr (s.sp + 1)) (pull s).1 (pull s).2 := busRead_lastRead _ _

/-- What an instruction that pushes a byte and then updates registers does to the machine. -/
theorem frame_of_push {k : Nat} {v : Byte} {s t : State} (h : OnlyRegs (push k v s) t) :
    MachineFrame s t ∧ OneStore k (stackAddr s.sp) v s t :=
  ⟨h.frame (push_frame k v s), h.oneStore (push_oneStore k v s)⟩

/-- What an instruction that pulls a byte and then updates registers does to the machine. -/
theorem frame_of_pull {s t : State} (h : OnlyRegs (pull s).2 t) :
    MachineFrame s t ∧ NoStore s t ∧ LastRead (stackAddr (s.sp + 1)) (pull s).1 t :=
  ⟨h.frame (pull_frame s), h.noStore (pull_noStore s), h.lastRead (pull_lastRead s)⟩

/-- Settles O21: PHA and PHP are `push`, PLA and PLP are `pull`, each followed by register updates only; the slots and the
status byte are put as numbers by `stackAddr_eq_ofNat` and `statusByte_eq_ofNat`. -/
theorem stackResults : Obligations.StackResults := by
  unfold Obligations.StackResults
  refine ⟨rfl, rfl, rfl, rfl, fun s => ?_⟩
  intro slot above status v
  have hslot : stackAddr s.sp = slot := stackAddr_eq_ofNat _
  have habove : stackAddr (s.sp + 1) = above := by rw [stackAddr_eq_ofNat, BitVec.toNat_add]; rfl
  have hstatus : statusByte s.p true = status := statusByte_eq_ofNat _ _
  have hv : (pull s).1 = v := by rw [pull_byte, habove]
  rw [← hslot, ← habove, ← hstatus, ← hv]
  exact ⟨⟨_, rfl, (push_cpuIs 3 _ s).withCycles 3, frame_of_push rfl⟩,
    ⟨_, rfl, (push_cpuIs 3 _ s).withCycles 3, frame_of_push rfl⟩,
    ⟨_, rfl, (((pull_cpuIs s).withA _).setNZ _).withCycles 4, frame_of_pull rfl⟩,
    ⟨_, rfl, ((pull_cpuIs s).withP _).withCycles 4, frame_of_pull rfl⟩⟩

/-! ## Transfers and index counts -/

theorem ofNat_toNat_succ_mod (r : Byte) : BitVec.ofNat 8 ((r.toNat + 1) % 256) = r + 1 :=
  BitVec.eq_of_toNat_eq (by simp)

theorem ofNat_toNat_pred_mod (r : Byte) : BitVec.ofNat 8 ((r.toNat + 255) % 256) = r - 1 := by
  apply BitVec.eq_of_toNat_eq
  rw [BitVec.toNat_sub, BitVec.toNat_ofNat]
  simp [Nat.add_comm]

/-- Settles O6: each instruction is one register update with its flags, once the counts modulo 256 are the byte's own and
`nzOf` is `setNZ`. -/
theorem registerResults : Obligations.RegisterResults := by
  unfold Obligations.RegisterResults
  simp only [ofNat_toNat_succ_mod, ofNat_toNat_pred_mod, ← setNZ_eq]
  exact ⟨rfl, rfl, rfl, rfl, rfl, rfl, rfl, rfl, rfl, rfl, fun s =>
    ⟨rfl, rfl, rfl, rfl, rfl, rfl, rfl, rfl, rfl, rfl⟩⟩

end Sys2Proof.Machine
end

section
/-! SUPPORT. The settled statements about the arithmetic, logic, compare, increment and shift instructions (41_alu.md). -/

namespace Sys2Proof.Machine

/-! ## The binary adder -/

/-- Masking with `$80` keeps bit 7 alone. -/
theorem and_top_ne_zero (x : Byte) : (x &&& 0x80#8 != 0#8) = x.getLsbD 7 := by
  rw [← show BitVec.twoPow 8 7 = 0x80#8 from rfl, BitVec.and_twoPow]
  cases x.getLsbD 7 <;> rfl

@[ext] theorem AluOut.ext {o q : AluOut} (hr : o.r = q.r) (hc : o.c = q.c) (hv : o.v = q.v) (hn : o.n = q.n)
    (hz : o.z = q.z) : o = q := by
  cases o
  cases q
  simp_all

theorem toInt_eq_toNat_sub (v : Byte) : v.toInt = (v.toNat : Int) - if 128 ≤ v.toNat then 256 else 0 := by
  have hv := v.isLt
  rw [BitVec.toInt_eq_toNat_cond]
  split <;> split <;> omega

/-- V of the binary adder (41_alu.md R240): the operands agree in sign and the sum has another exactly when the signed sum
leaves the range of a byte. -/
theorem addBin_v_iff (a m : Byte) (c : Bool) :
    (addBin a m c).v = true ↔ a.toInt + m.toInt + c.toNat < -128 ∨ 127 < a.toInt + m.toInt + c.toNat := by
  have ha := a.isLt
  have hm := m.isLt
  have hc := c.toNat_le
  simp only [addBin, and_top_ne_zero, BitVec.getLsbD_and, BitVec.getLsbD_xor, Bool.and_eq_true, bne_iff_ne, ne_eq]
  simp only [top_bit, BitVec.toNat_ofNat, toInt_eq_toNat_sub, decide_eq_decide]
  split <;> split <;> omega

theorem xor_ones_toNat (m : Byte) : (m ^^^ 0xFF).toNat = 255 - m.toNat := by
  rw [← show BitVec.allOnes 8 = 0xFF from rfl, BitVec.xor_allOnes, BitVec.toNat_not]

theorem xor_ones_toInt (m : Byte) : (m ^^^ 0xFF).toInt = -1 - m.toInt := by
  have hm := m.isLt
  rw [toInt_eq_toNat_sub, toInt_eq_toNat_sub, xor_ones_toNat]
  split <;> split <;> omega

theorem subBin_r_eq (a m : Byte) (c : Bool) : (subBin a m c).r = (addBin a (m ^^^ 0xFF) c).r := by
  have hm := m.isLt
  have hc := c.toNat_le
  apply BitVec.eq_of_toNat_eq
  simp only [subBin, addBin, BitVec.toNat_ofInt, BitVec.toNat_ofNat, xor_ones_toNat]
  omega

/-- Subtraction is addition of the complement (41_alu.md R243). -/
theorem subBin_eq_addBin (a m : Byte) (c : Bool) : subBin a m c = addBin a (m ^^^ 0xFF) c := by
  have hr := subBin_r_eq a m c
  have hm := m.isLt
  have hcarry : (subBin a m c).c = (addBin a (m ^^^ 0xFF) c).c := by
    simp only [subBin, addBin, xor_ones_toNat, decide_eq_decide]
    omega
  have hover : (subBin a m c).v = (addBin a (m ^^^ 0xFF) c).v := by
    show ((a ^^^ m) &&& (a ^^^ (subBin a m c).r) &&& 0x80#8 != 0#8)
      = ((a ^^^ (addBin a (m ^^^ 0xFF) c).r) &&& ((m ^^^ 0xFF) ^^^ (addBin a (m ^^^ 0xFF) c).r) &&& 0x80#8 != 0#8)
    rw [hr]
    generalize (addBin a (m ^^^ 0xFF) c).r = r
    have hones : (0xFF : Byte).getLsbD 7 = true := rfl
    simp only [and_top_ne_zero, BitVec.getLsbD_and, BitVec.getLsbD_xor, hones]
    cases a.getLsbD 7 <;> cases m.getLsbD 7 <;> cases r.getLsbD 7 <;> rfl
  have hn : (subBin a m c).n = (addBin a (m ^^^ 0xFF) c).n := congrArg (·.getLsbD 7) hr
  have hz : (subBin a m c).z = (addBin a (m ^^^ 0xFF) c).z := congrArg (· == 0#8) hr
  exact AluOut.ext hr hcarry hover hn hz

/-- Settles O12: the overflow of the adder is `addBin_v_iff`, and the subtracter is the adder of the complement
(`subBin_eq_addBin`), which stands for `-1 - m`. -/
theorem binaryAdderIsTwosComplement : Obligations.BinaryAdderIsTwosComplement := by
  unfold Obligations.BinaryAdderIsTwosComplement
  intro a m c
  have hm := m.isLt
  have hz (v : Byte) : (v == 0#8) = true ↔ v.toNat = 0 := by rw [beq_zero_toNat, decide_eq_true_iff]
  refine ⟨BitVec.toNat_ofNat _ _, decide_eq_true_iff, addBin_v_iff a m c, rfl, hz _, ?_, ?_, ?_, rfl, hz _,
    subBin_eq_addBin a m c⟩
  · simp only [subBin, BitVec.toNat_ofInt]
    omega
  · have hc := c.toNat_le
    simp only [subBin, decide_eq_true_iff]
    omega
  · rw [subBin_eq_addBin, addBin_v_iff, xor_ones_toInt]
    omega

/-! ## The decimal adder -/

theorem and_low_digit (n : Nat) : n &&& 0x0F = n % 16 := Nat.and_two_pow_sub_one_eq_mod n 4

theorem and_high_digit (v : Byte) : v.toNat &&& 0xF0 = v.toNat / 16 * 16 := by
  have hv := v.isLt
  have hlow : (v.toNat &&& 0xF0) % 16 = 0 := by
    rw [Nat.and_mod_two_pow (n := 4)]
    exact Nat.and_zero _
  have hhigh : (v.toNat &&& 0xF0) / 16 = v.toNat / 16 := by
    rw [Nat.and_div_two_pow (n := 4)]
    exact (and_low_digit _).trans (Nat.mod_eq_of_lt (by omega))
  omega

theorem testBit_seven (n : Nat) : n.testBit 7 = decide (128 ≤ n % 256) := by
  rw [Nat.testBit_eq_decide_div_mod_eq, decide_eq_decide]
  omega

theorem nat_and_top_ne_zero (n : Nat) : (n &&& 0x80 != 0) = n.testBit 7 := by
  rw [← show 2 ^ 7 = 0x80 from rfl, Nat.and_two_pow]
  cases n.testBit 7 <;> rfl

/-- The decimal sum before its high digit is adjusted, the low digit adjusted (41_alu.md R241). -/
def decimalSum (a m : Byte) (c : Bool) : Nat :=
  let low := a.toNat % 16 + m.toNat % 16 + c.toNat
  a.toNat / 16 * 16 + m.toNat / 16 * 16 + if low < 10 then low else 16 + (low + 6) % 16

/-- A decimal sum with its high digit adjusted. -/
def adjustHigh (sum : Nat) : Nat := if sum < 160 then sum else sum + 96

/-- The decimal difference before its high digit is adjusted (41_alu.md R244). -/
def decimalDif (a m : Byte) (c : Bool) : Int :=
  let low : Int := (a.toNat : Int) % 16 - (m.toNat : Int) % 16 - (1 - c.toNat)
  (a.toNat : Int) / 16 * 16 - (m.toNat : Int) / 16 * 16 + if low < 0 then (low - 6) % 16 - 16 else low

/-- A decimal difference with its high digit adjusted for a borrow. -/
def adjustBorrow (dif : Int) : Int := if dif < 0 then dif - 96 else dif

/-- The decimal adder by its sum before the adjustment. -/
theorem addDec_eq (a m : Byte) (c : Bool) :
    addDec a m c =
      { r := BitVec.ofNat 8 (adjustHigh (decimalSum a m c))
        c := decide (256 ≤ adjustHigh (decimalSum a m c))
        v := (a.toNat.testBit 7 ^^ (decimalSum a m c).testBit 7) && (m.toNat.testBit 7 ^^ (decimalSum a m c).testBit 7)
        n := (decimalSum a m c).testBit 7
        z := (addBin a m c).z } := by
  have hlow (n : Nat) : (if 0x0A ≤ n then (n + 0x06) % 16 + 0x10 else n)
      = if n < 10 then n else 16 + (n + 6) % 16 := by
    split <;> split <;> omega
  have hadjust (n : Nat) : (if 0xA0 ≤ n then n + 0x60 else n) = adjustHigh n := by
    unfold adjustHigh
    split <;> split <;> omega
  have hz : ((a.toNat + m.toNat + c.toNat) % 256 == 0) = (addBin a m c).z := by
    simp only [addBin, beq_zero_toNat, BitVec.toNat_ofNat]
    rfl
  simp only [addDec, and_low_digit, and_high_digit, hlow, hadjust, hz, nat_and_top_ne_zero, Nat.testBit_and,
    Nat.testBit_xor]
  rfl

theorem addDec_r_toNat (a m : Byte) (c : Bool) : (addDec a m c).r.toNat = adjustHigh (decimalSum a m c) % 256 := by
  rw [addDec_eq, BitVec.toNat_ofNat]

theorem addDec_c_iff (a m : Byte) (c : Bool) : (addDec a m c).c = true ↔ 256 ≤ adjustHigh (decimalSum a m c) := by
  rw [addDec_eq, decide_eq_true_iff]

theorem addDec_n_iff (a m : Byte) (c : Bool) : (addDec a m c).n = true ↔ 128 ≤ decimalSum a m c % 256 := by
  rw [addDec_eq]
  simp only [testBit_seven, decide_eq_true_iff]

/-- Two bits that agree and a third that differs from them. -/
theorem overflow_bits (x y t : Bool) :
    ((x ^^ t) && (y ^^ t)) = true ↔ (x = false ∧ y = false ∧ t = true) ∨ (x = true ∧ y = true ∧ t = false) := by
  cases x <;> cases y <;> cases t <;> decide

/-- V of the decimal adder: the operands agree in sign and the sum before the high adjustment has another. -/
theorem addDec_v_iff (a m : Byte) (c : Bool) :
    (addDec a m c).v = true
      ↔ (a.toNat < 128 ∧ m.toNat < 128 ∧ 128 ≤ decimalSum a m c % 256)
        ∨ (128 ≤ a.toNat ∧ 128 ≤ m.toNat ∧ decimalSum a m c % 256 < 128) := by
  rw [addDec_eq, overflow_bits]
  simp only [testBit_seven, decide_eq_true_iff, decide_eq_false_iff_not, not_le, Nat.mod_eq_of_lt a.isLt,
    Nat.mod_eq_of_lt m.isLt]

/-- The result of the decimal subtracter by its difference before the adjustment. -/
theorem subDecResult_eq (a m : Byte) (c : Bool) :
    subDecResult a m c = BitVec.ofInt 8 (adjustBorrow (decimalDif a m c)) := by
  have hlow : (a.toNat : Int) % 16 - (m.toNat : Int) % 16 + c.toNat - 1
      = (a.toNat : Int) % 16 - (m.toNat : Int) % 16 - (1 - c.toNat) := by omega
  simp only [subDecResult, and_low_digit, and_high_digit, Int.natCast_mul, Int.natCast_ediv, Int.natCast_emod,
    Int.cast_ofNat_Int, hlow]
  rfl

theorem subDec_r_toNat (a m : Byte) (c : Bool) :
    ((subDec a m c).r.toNat : Int) = adjustBorrow (decimalDif a m c) % 256 := by
  show ((subDecResult a m c).toNat : Int) = _
  rw [subDecResult_eq, BitVec.toNat_ofInt]
  omega

/-- The packed digits modulo 100 of a number below 200. -/
theorem packed_digits {high low : Nat} (hhigh : high < 20) (hlow : low < 10) :
    16 * ((10 * high + low) % 100 / 10) + (10 * high + low) % 10
      = 16 * (if high < 10 then high else high - 10) + low := by
  have hten : (10 * high + low) % 100 / 10 = high % 10 := by omega
  rw [hten]
  split <;> omega

section

variable {a m : Byte} {c : Bool} {a₁ a₀ m₁ m₀ : Nat} (ha : a.toNat = 16 * a₁ + a₀) (hm : m.toNat = 16 * m₁ + m₀)
  (ha₁ : a₁ < 10) (ha₀ : a₀ < 10) (hm₁ : m₁ < 10) (hm₀ : m₀ < 10)

include ha hm ha₁ ha₀ hm₁ hm₀

/-- On decimal digits the sum is a high sum below 20 and a decimal low digit, at place values 16 and 10. -/
theorem decimalSum_digits : ∃ high low : Nat, high < 20 ∧ low < 10 ∧ decimalSum a m c = 16 * high + low
    ∧ (10 * a₁ + a₀) + (10 * m₁ + m₀) + c.toNat = 10 * high + low := by
  have hc := c.toNat_le
  simp only [decimalSum, ha, hm]
  by_cases hcarry : a₀ + m₀ + c.toNat < 10
  · refine ⟨a₁ + m₁, a₀ + m₀ + c.toNat, ?_⟩
    split <;> omega
  · refine ⟨a₁ + m₁ + 1, a₀ + m₀ + c.toNat - 10, ?_⟩
    split <;> omega

/-- On decimal digits the difference, 10 added to its high digit, is a high difference below 20 and a decimal low
digit. -/
theorem decimalDif_digits : ∃ high low : Nat, high < 20 ∧ low < 10
    ∧ decimalDif a m c = 16 * ((high : Int) - 10) + low
    ∧ 100 + (10 * a₁ + a₀) - (10 * m₁ + m₀) - (1 - c.toNat) = 10 * high + low := by
  have hc := c.toNat_le
  simp only [decimalDif, ha, hm]
  by_cases hborrow : a₀ + c.toNat < m₀ + 1
  · refine ⟨9 + a₁ - m₁, 10 + a₀ - m₀ - (1 - c.toNat), ?_⟩
    split <;> omega
  · refine ⟨10 + a₁ - m₁, a₀ - m₀ - (1 - c.toNat), ?_⟩
    split <;> omega

theorem addDec_digits :
    let sum := (10 * a₁ + a₀) + (10 * m₁ + m₀) + c.toNat
    (addDec a m c).r.toNat = 16 * (sum % 100 / 10) + sum % 10 ∧ ((addDec a m c).c = true ↔ 100 ≤ sum) := by
  intro sum
  obtain ⟨high, low, hhigh, hlow, hsixteen, hten⟩ := decimalSum_digits (c := c) ha hm ha₁ ha₀ hm₁ hm₀
  have hsum : sum = 10 * high + low := hten
  rw [addDec_r_toNat, addDec_c_iff, hsixteen, hsum, packed_digits hhigh hlow]
  unfold adjustHigh
  split <;> split <;> omega

theorem subDec_digits :
    let dif := 100 + (10 * a₁ + a₀) - (10 * m₁ + m₀) - (1 - c.toNat)
    (subDec a m c).r.toNat = 16 * (dif % 100 / 10) + dif % 10 ∧ ((subDec a m c).c = true ↔ 100 ≤ dif) := by
  intro dif
  constructor
  · obtain ⟨high, low, hhigh, hlow, hsixteen, hten⟩ := decimalDif_digits (c := c) ha hm ha₁ ha₀ hm₁ hm₀
    have hdif : dif = 10 * high + low := hten
    have hr := subDec_r_toNat a m c
    rw [hsixteen, adjustBorrow] at hr
    rw [hdif, packed_digits hhigh hlow]
    split at hr <;> split <;> omega
  · have hc := c.toNat_le
    show decide (0 ≤ (a.toNat : Int) - m.toNat - (1 - (c.toNat : Int))) = true ↔ 100 ≤ dif
    rw [decide_eq_true_iff]
    omega

end

/-- The byte of two decimal digits. -/
theorem toNat_digits {d₁ d₀ : Nat} (h₁ : d₁ < 10) (h₀ : d₀ < 10) :
    (BitVec.ofNat 8 (16 * d₁ + d₀)).toNat = 16 * d₁ + d₀ :=
  (BitVec.toNat_ofNat _ _).trans (Nat.mod_eq_of_lt (by omega))

/-- Settles O13: both functions by the sum and the difference before the adjustment (`addDec_eq`, `subDec_r_toNat`), which
on decimal digits carry tens (`addDec_digits`, `subDec_digits`). -/
theorem decimalAdderOnDigits : Obligations.DecimalAdderOnDigits := by
  unfold Obligations.DecimalAdderOnDigits
  refine ⟨fun a₁ a₀ m₁ m₀ c ha₁ ha₀ hm₁ hm₀ => ?_, fun a m c => ?_⟩
  · have ha := toNat_digits ha₁ ha₀
    have hm := toNat_digits hm₁ hm₀
    obtain ⟨hsum, hcarry⟩ := addDec_digits (c := c) ha hm ha₁ ha₀ hm₁ hm₀
    exact ⟨hsum, hcarry, subDec_digits ha hm ha₁ ha₀ hm₁ hm₀⟩
  · have hz := congrArg AluOut.z (addDec_eq a m c)
    exact ⟨rfl, rfl, rfl, rfl, hz,
      ⟨addDec_r_toNat a m c, addDec_c_iff a m c, addDec_n_iff a m c, addDec_v_iff a m c⟩, subDec_r_toNat a m c⟩

/-! ## Registers after an operation -/

namespace CpuIs

variable {t : State} {a x y sp : Byte} {pc : Word} {p : Flags} {n : Nat} (h : CpuIs t a x y sp pc p n)

include h

theorem setAccumulator (f : Byte → Byte) :
    CpuIs (t.setAccumulator (f t.a)) (f a) x y sp pc (nzOf (f a) p) n := by
  rw [h.a_eq]
  exact (h.withA _).setNZ _

theorem addWithCarry (m : Byte) :
    CpuIs (addWithCarry m t) (addSelect p a m).r x y sp pc (setAlu (addSelect p a m) p) n := by
  rw [Machine.addWithCarry, h.a_eq, h.p_eq]
  exact (h.withA _).withP _

theorem subWithBorrow (m : Byte) :
    CpuIs (subWithBorrow m t) (subSelect p a m).r x y sp pc (setAlu (subSelect p a m) p) n := by
  rw [Machine.subWithBorrow, h.a_eq, h.p_eq]
  exact (h.withA _).withP _

theorem compare (reg m : Byte) :
    CpuIs (t.withP (compareFlags reg m t.p)) a x y sp pc (compareFlags reg m p) n := by
  rw [h.p_eq]
  exact h.withP _

theorem bitTest (m : Byte) : CpuIs (t.withP (bitFlags t.a m t.p)) a x y sp pc (bitFlags a m p) n := by
  rw [h.a_eq, h.p_eq]
  exact h.withP _

end CpuIs

/-! ## Logic, arithmetic and comparison -/

/-- Settles O10: each instruction is `load` and then updates of A and the flags only. -/
theorem logicResults : Obligations.LogicResults := by
  unfold Obligations.LogicResults
  refine ⟨fun s o => ?_, fun s m => ?_⟩
  · rw [← load_byte]
    have hcpu := load_cpuIs o s
    exact ⟨⟨_, rfl, hcpu.setAccumulator (· &&& _), frame_of_load rfl⟩,
      ⟨_, rfl, hcpu.setAccumulator (· ||| _), frame_of_load rfl⟩,
      ⟨_, rfl, hcpu.setAccumulator (· ^^^ _), frame_of_load rfl⟩⟩
  · intro v
    have hz : bitFlags s.a v s.p
        = { s.p with n := v.getLsbD 7, v := v.getLsbD 6, z := decide ((s.a &&& v).toNat = 0) } := by
      rw [bitFlags, beq_zero_toNat]
    rw [← hz]
    exact ⟨_, rfl, (load_cpuIs (.mem m) s).bitTest v, frame_of_load rfl⟩

/-- Settles O11: ADC and SBC are `load` and then the adder that `addSelect` and `subSelect` choose by D. -/
theorem arithmeticResults : Obligations.ArithmeticResults := by
  unfold Obligations.ArithmeticResults
  refine fun s => ⟨fun o => ?_, fun m => rfl⟩
  rw [← load_byte]
  exact ⟨⟨_, rfl, (load_cpuIs o s).addWithCarry _, frame_of_load rfl⟩,
    ⟨_, rfl, (load_cpuIs o s).subWithBorrow _, frame_of_load rfl⟩⟩

/-- The flags of a comparison as numbers (41_alu.md R246). -/
theorem compareFlags_eq (reg m : Byte) (p : Flags) :
    compareFlags reg m p =
      { p with
        c := decide (m.toNat ≤ reg.toNat)
        z := decide (reg = m)
        n := decide (128 ≤ (reg.toNat + 256 - m.toNat) % 256) } := by
  have hm := m.isLt
  have hdif : (reg - m).toNat = (reg.toNat + 256 - m.toNat) % 256 := by
    rw [BitVec.toNat_sub]
    omega
  rw [compareFlags, top_bit, hdif]
  rfl

/-- Settles O14: each instruction is `load` and then the flags of `compareFlags`, put as numbers by `compareFlags_eq`. -/
theorem compareResults : Obligations.CompareResults := by
  unfold Obligations.CompareResults
  intro s o m n cmp
  have hm : (load o s).1 = m := load_byte o s
  have hdone {i : Instr} {r : Byte}
      (hexec : exec i s = .next ((load o s).2.withP (compareFlags r (load o s).1 (load o s).2.p))) :
      ∃ t, exec i s = .next t ∧ CpuIs t s.a s.x s.y s.sp s.pc (cmp r) n ∧ MachineFrame s t ∧ OperandRead o s t := by
    rw [hm] at hexec
    rw [show cmp r = compareFlags r m s.p from (compareFlags_eq r m s.p).symm]
    exact ⟨_, hexec, (load_cpuIs o s).compare r m, frame_of_load rfl⟩
  refine ⟨hdone ?_, hdone ?_, hdone ?_⟩
  · rw [← load_a o s]; rfl
  · rw [← load_x o s]; rfl
  · rw [← load_y o s]; rfl

/-! ## Increments and shifts -/

theorem modifyMem_cpuIs (op : ModifyOp) (m : MemMode) (s : State) :
    CpuIs (modifyMem op m s).2 s.a s.x s.y s.sp s.pc (modifyFlags op (operandByte m s) s.p) (modifyCycles m) := by
  constructor <;> simp

/-- Settles O15: each instruction is `modify` with its function, whose result and carry the laws of Flags.lean put as
numbers. -/
theorem shiftAndStepResults : Obligations.ShiftAndStepResults := by
  unfold Obligations.ShiftAndStepResults
  refine ⟨fun s m => ?_, ⟨rfl, rfl, rfl, rfl⟩, fun s => ?_⟩
  · intro v done
    have hdone {i : Instr} (op : ModifyOp) {r : Byte} {c : Bool} (hexec : exec i s = .next (modifyMem op m s).2)
        (hr : modifyResult op s.p.c v = r) (hc : modifyCarry op s.p.c v = c) : done i r c := by
      subst hr hc
      have hcpu := modifyMem_cpuIs op m s
      rw [modifyFlags_eq] at hcpu
      exact ⟨_, hexec, hcpu, modifyMem_frame op m s, modifyMem_oneStore op m s⟩
    exact ⟨hdone .increment rfl rfl rfl, hdone .decrement rfl rfl rfl,
      hdone .shiftLeft rfl (shiftLeft_number v) (top_bit v), hdone .shiftRight rfl (shiftRight_number v) (low_bit v),
      hdone .rotateLeft rfl (rotateLeft_number v _) (top_bit v),
      hdone .rotateRight rfl (rotateRight_number v _) (low_bit v)⟩
  · intro left right out
    have hout {i : Instr} (op : ModifyOp) {r : Byte} {c : Bool} (hexec : exec i s = .next (modify op .acc s))
        (hr : modifyResult op s.p.c s.a = r) (hc : modifyCarry op s.p.c s.a = c) : exec i s = out r c := by
      subst hr hc
      rw [hexec, modify, modifyFlags_eq]
      rfl
    have hleft (c : Bool) : BitVec.ofNat 8 (2 * s.a.toNat + c.toNat) = left c :=
      BitVec.eq_of_toNat_eq (by simp [left])
    exact ⟨hout .shiftLeft rfl ((shiftLeft_number _).trans (hleft false)) (top_bit _),
      hout .shiftRight rfl (shiftRight_number _) (low_bit _),
      hout .rotateLeft rfl ((rotateLeft_number _ _).trans (hleft _)) (top_bit _),
      hout .rotateRight rfl (rotateRight_number _ _) (low_bit _)⟩

end Sys2Proof.Machine
end

section
/-! SUPPORT. The settled statements about the branches, jumps, subroutine and interrupt instructions, flag operations and
NOP (42_control.md R300 to R321, 43_undocumented.md R372 to R374). -/

namespace Sys2Proof.Machine

/-! ## One access after another -/

theorem MachineFrame.trans {s u t : State} (h : MachineFrame s u) (g : MachineFrame u t) : MachineFrame s t :=
  ⟨g.jammed.trans h.jammed, g.nmiPending.trans h.nmiPending, g.mode.trans h.mode, g.rom.trans h.rom,
    g.image.trans h.image, g.loaded.trans h.loaded, g.totalCycles.trans h.totalCycles,
    g.budgetTarget.trans h.budgetTarget, g.cfg.trans h.cfg, g.irqLine.trans h.irqLine⟩

theorem NoStore.trans {s u t : State} (h : NoStore s u) (g : NoStore u t) : NoStore s t :=
  ⟨fun b => (g.bytes b).trans (h.bytes b), g.mem.trans h.mem, g.ram.trans h.ram, g.video.trans h.video,
    g.events.trans h.events⟩

theorem cpuIs_refl (s : State) : CpuIs s s.a s.x s.y s.sp s.pc s.p s.cycles := ⟨rfl, rfl, rfl, rfl, rfl, rfl, rfl⟩

/-- What an instruction that reads the bus last and then updates registers does to the machine. -/
theorem frame_of_busRead {addr : Word} {s u t : State} (hframe : MachineFrame s u) (hstore : NoStore s u)
    (h : OnlyRegs (busRead addr u).2 t) : MachineFrame s t ∧ NoStore s t ∧ LastRead addr (busRead addr u).1 t :=
  ⟨h.frame (hframe.trans (busRead_frame addr u)), h.noStore (hstore.trans (busRead_noStore addr u)),
    h.lastRead (busRead_lastRead addr u)⟩

namespace CpuIs

variable {t : State} {a x y sp : Byte} {pc : Word} {p : Flags} {n : Nat} (h : CpuIs t a x y sp pc p n)

include h

theorem withPc (v : Word) : CpuIs (t.withPc v) a x y sp v p n := { h with pc_eq := rfl }

theorem pull : CpuIs (pull t).2 a x y (sp + 1) pc p n := by
  obtain ⟨rfl, rfl, rfl, rfl, rfl, rfl, rfl⟩ := h
  exact pull_cpuIs t

theorem busRead (addr : Word) : CpuIs (busRead addr t).2 a x y sp pc p n :=
  ⟨h.a_eq, h.x_eq, h.y_eq, h.sp_eq, h.pc_eq, h.p_eq, h.cycles_eq⟩

end CpuIs

namespace OnlyRegs

variable {s u t : State} (h : OnlyRegs s u)

include h

theorem trans (g : OnlyRegs u t) : OnlyRegs s t := by
  rw [g, h]
  rfl

/-- A pull is a bus read at the slot above, whatever the other registers are. -/
theorem pull : OnlyRegs (busRead (stackAddr (u.sp + 1)) s).2 (pull u).2 := by
  rw [h]
  rfl

end OnlyRegs

/-! ## Flag operations and NOP -/

/-- Settles O7: each instruction is one `withP` and the cycle count. -/
theorem flagInstructionResults : Obligations.FlagInstructionResults := by
  unfold Obligations.FlagInstructionResults
  exact ⟨rfl, rfl, rfl, rfl, rfl, rfl, rfl, fun s => ⟨rfl, rfl, rfl, rfl, rfl, rfl, rfl⟩⟩

/-- Settles O8: the forms with an operand are `loadMem`, whose registers, cycles and frame are known. -/
theorem nopForms : Obligations.NopForms := by
  unfold Obligations.NopForms
  intro s
  refine ⟨fun k => rfl, fun k v => rfl, fun f m n hform => ?_⟩
  have hload : exec (.nop f) s = .next (loadMem m s).2 ∧ readCycles m = n := by
    obtain ⟨k, z, rfl, rfl, rfl⟩ | ⟨k, z, rfl, rfl, rfl⟩ | ⟨a, rfl, rfl, rfl⟩ | ⟨k, a, rfl, rfl, rfl⟩ := hform <;>
      exact ⟨rfl, rfl⟩
  obtain ⟨hexec, rfl⟩ := hload
  have hcpu := load_cpuIs (.mem m) s
  rw [readOperandCycles_mem] at hcpu
  exact ⟨_, hexec, hcpu, loadMem_frame m s⟩

/-! ## Branches -/

/-- The target of a branch is the next instruction's address plus the signed offset, modulo 65536 (30_encoding.md
R175). -/
theorem branchTarget_eq_ofInt (pc : Word) (off : Byte) :
    branchTarget pc off = BitVec.ofInt 16 (pc.toNat + off.toInt) := by
  rw [BitVec.ofInt_add, BitVec.ofInt_natCast, BitVec.ofNat_toNat, BitVec.setWidth_eq]
  rfl

/-- The state a branch leaves (42_control.md R300), the page of the target as a number. -/
theorem branch_eq (taken : Bool) (off : Byte) (s : State) :
    branch taken off s =
      let target : Word := BitVec.ofInt 16 (s.pc.toNat + off.toInt)
      if taken then
        { s with pc := target, cycles := if s.pc.toNat / 256 = target.toNat / 256 then 3 else 4 }
      else { s with cycles := 2 } := by
  cases taken with
  | false => rfl
  | true =>
    rw [branch, hiByte_bne, branchTarget_eq_ofInt]
    simp only [decide_eq_true_eq, ite_not]
    rfl

/-- Settles O23: each branch is `branch` on its own flag. -/
theorem branchResults : Obligations.BranchResults := by
  unfold Obligations.BranchResults
  refine ⟨fun off => ⟨rfl, rfl, rfl, rfl, rfl, rfl, rfl, rfl⟩, fun s off => ?_⟩
  intro target out
  have hout {i : Instr} {taken : Bool} (hexec : exec i s = .next (branch taken off s)) : exec i s = out taken := by
    rw [hexec, branch_eq]
    cases taken <;> rfl
  exact ⟨hout rfl, hout rfl, hout rfl, hout rfl, hout rfl, hout rfl, hout rfl, hout rfl⟩

/-! ## Jumps -/

/-- The next address of the page of `w`: only its low byte is incremented. -/
theorem nextInPage_eq_ofNat (w : Word) :
    wordOf (loByte w + 1) (hiByte w) = BitVec.ofNat 16 (w.toNat / 256 * 256 + (w.toNat + 1) % 256) := by
  have hw := w.isLt
  have hlo : (loByte w + 1).toNat = (w.toNat + 1) % 256 := by simp [loByte]
  apply BitVec.eq_of_toNat_eq
  rw [toNat_wordOf, toNat_hiByte, hlo, BitVec.toNat_ofNat]
  omega

theorem wordOf_eq_ofNat (lo hi : Byte) : wordOf lo hi = BitVec.ofNat 16 (256 * hi.toNat + lo.toNat) := by
  rw [Nat.add_comm, ← toNat_wordOf, BitVec.ofNat_toNat, BitVec.setWidth_eq]

/-- The indirect target (30_encoding.md R172) in numbers: the second byte is read in the page of the first. -/
theorem indirectTarget_eq (ptr : Word) (s : State) :
    indirectTarget ptr s =
      let lo := busRead ptr s
      let hi := busRead (BitVec.ofNat 16 (ptr.toNat / 256 * 256 + (ptr.toNat + 1) % 256)) lo.2
      (BitVec.ofNat 16 (256 * hi.1.toNat + lo.1.toNat), hi.2) := by
  rw [indirectTarget, nextInPage_eq_ofNat, wordOf_eq_ofNat]

/-- Settles O24: the indirect form is `indirectTarget`, that is two bus reads, and then register updates only. -/
theorem jumpResults : Obligations.JumpResults := by
  unfold Obligations.JumpResults
  refine ⟨fun a => ⟨rfl, rfl⟩, fun s a => ⟨rfl, ?_⟩⟩
  intro second lo hi
  have hexec : exec (.jmp (.ind a)) s
      = .next ((hi.2.withPc (BitVec.ofNat 16 (256 * hi.1.toNat + lo.1.toNat))).withCycles 5) := by
    rw [exec, execJmp, indirectTarget_eq]
  exact ⟨_, hexec, (((busRead_cpuIs a s).busRead second).withPc _).withCycles 5,
    frame_of_busRead (busRead_frame a s) (busRead_noStore a s) rfl⟩

/-! ## Subroutines and interrupts -/

/-- What a push does to the machine, in terms of the registers before it. -/
theorem push_after {s u : State} {a x y sp : Byte} {pc : Word} {p : Flags} {n : Nat}
    (hcpu : CpuIs u a x y sp pc p n) (hframe : MachineFrame s u) (k : Nat) (v : Byte) :
    CpuIs (push k v u) a x y (sp - 1) pc p n ∧ MachineFrame s (push k v u)
      ∧ OneStore k (stackAddr sp) v u (push k v u) := by
  obtain ⟨rfl, rfl, rfl, rfl, rfl, rfl, rfl⟩ := hcpu
  exact ⟨push_cpuIs k v u, hframe.trans (push_frame k v u), push_oneStore k v u⟩

/-- Settles O25: JSR is two pushes and then register updates only. -/
theorem callResult : Obligations.CallResult := by
  unfold Obligations.CallResult
  refine ⟨fun a => rfl, fun s target => ?_⟩
  intro r
  obtain ⟨hcpu₁, hframe₁, hstore₁⟩ := push_after (cpuIs_refl s) (machineFrame_refl s) 4 (hiByte r)
  obtain ⟨hcpu₂, hframe₂, hstore₂⟩ := push_after hcpu₁ hframe₁ 5 (loByte r)
  rw [BitVec.sub_sub] at hcpu₂
  have hregs (u : State) : OnlyRegs u ((u.withPc target).withCycles 6) := rfl
  exact ⟨_, _, rfl, (hcpu₂.withPc target).withCycles 6, (hregs _).frame hframe₂, hframe₁, hstore₁,
    (hregs _).oneStore hstore₂⟩

/-- Settles O26: RTS and RTI are two and three pulls, each a bus read one slot further up (`OnlyRegs.pull`), and then
register updates only. -/
theorem returnResults : Obligations.ReturnResults := by
  unfold Obligations.ReturnResults
  refine ⟨rfl, rfl, fun s => ?_⟩
  have htwo : s.sp + 2 = s.sp + 1 + 1 := (BitVec.add_assoc _ 1 1).symm
  have hthree : s.sp + 3 = s.sp + 1 + 1 + 1 := by rw [← htwo]; exact (BitVec.add_assoc _ 2 1).symm
  rw [htwo, hthree]
  intro r₁ r₂ r₃
  have hframe : MachineFrame s r₂.2 := (busRead_frame _ s).trans (busRead_frame _ r₁.2)
  have hstore : NoStore s r₂.2 := (busRead_noStore _ s).trans (busRead_noStore _ r₁.2)
  have hflags : OnlyRegs r₁.2 ((pull s).2.withP (flagsOf r₁.1)) := rfl
  have hpulls : OnlyRegs r₃.2 (pull (pull ((pull s).2.withP (flagsOf r₁.1))).2).2 := hflags.pull.pull
  have hregs : OnlyRegs r₃.2 (returnFromInterrupt s) := hpulls.trans rfl
  exact ⟨⟨_, rfl, ((pull_cpuIs s).pull.withPc _).withCycles 6,
      frame_of_busRead (busRead_frame _ s) (busRead_noStore _ s) rfl⟩,
    ⟨_, rfl, (((pull_cpuIs s).withP _).pull.pull.withPc _).withCycles 6, frame_of_busRead hframe hstore hregs⟩⟩

/-- What an instruction that reads a word last and then updates registers does to the machine. -/
theorem frame_of_read16 {addr : Word} {u t : State} (h : OnlyRegs (read16 addr u).2 t) :
    MachineFrame u t ∧ NoStore u t ∧ LastRead (addr + 1) (hiByte (read16 addr u).1) t := by
  rw [read16, hiByte_wordOf]
  exact frame_of_busRead (busRead_frame addr u) (busRead_noStore addr u) h

/-- Interrupt entry as three pushes, the read of the vector and then register updates only: the pushes change no flag, and
the read does not look at the flags. -/
theorem enterInterrupt_eq (vector : Word) (brk : Bool) (ret : Word) (s : State) :
    enterInterrupt vector brk ret s =
      let u := push 5 (statusByte s.p brk) (push 4 (loByte ret) (push 3 (hiByte ret) s))
      (((read16 vector u).2.withP { s.p with i := true }).withPc (read16 vector u).1).withCycles 7 := by
  simp only [enterInterrupt, push_p]
  rfl

/-- Interrupt entry (60_exceptions.md R543), for NMI, IRQ and BRK alike. -/
theorem enterInterrupt_interruptEntry (vector : Word) (brk : Bool) (ret : Word) (s : State) :
    InterruptEntry vector brk ret s (enterInterrupt vector brk ret s) := by
  have htwo : s.sp - 1 - 1 = s.sp - 2 := BitVec.sub_sub _ 1 1
  have hthree : s.sp - 2 - 1 = s.sp - 3 := BitVec.sub_sub _ 2 1
  obtain ⟨hcpu₁, hframe₁, hstore₁⟩ := push_after (cpuIs_refl s) (machineFrame_refl s) 3 (hiByte ret)
  obtain ⟨hcpu₂, hframe₂, hstore₂⟩ := push_after hcpu₁ hframe₁ 4 (loByte ret)
  rw [htwo] at hcpu₂
  obtain ⟨hcpu₃, hframe₃, hstore₃⟩ := push_after hcpu₂ hframe₂ 5 (statusByte s.p brk)
  rw [hthree] at hcpu₃
  have hregs (u : State) (pc : Word) :
      OnlyRegs u (((u.withP { s.p with i := true }).withPc pc).withCycles 7) := rfl
  rw [enterInterrupt_eq]
  exact ⟨_, _, _, hstore₁, hstore₂, hstore₃, hframe₁, hframe₂, hframe₃, by simp only [push_draws],
    ((((hcpu₃.busRead vector).busRead (vector + 1)).withP _).withPc _).withCycles 7,
    (frame_of_read16 (hregs _ _)).imp_left hframe₃.trans⟩

/-- Settles O27: BRK is the interrupt entry, which does not look at I. -/
theorem breakResult : Obligations.BreakResult := by
  unfold Obligations.BreakResult
  exact ⟨rfl, fun s => ⟨_, rfl, enterInterrupt_interruptEntry irqVector true (s.pc + 1) s⟩⟩

end Sys2Proof.Machine
end

section
/-! SUPPORT. The settled statements about the undocumented opcodes (43_undocumented.md R350 to R369, R375). -/

namespace Sys2Proof.Machine

/-! ## Memory modified and combined with A -/

/-- The accumulator combined with the modified byte by `f`: N and Z are the combination's, C is the shift's. -/
theorem modifyMem_setAccumulator_cpuIs (op : ModifyOp) (f : Byte → Byte → Byte) (m : MemMode) (s : State) :
    CpuIs ((modifyMem op m s).2.setAccumulator (f (modifyMem op m s).2.a (modifyMem op m s).1))
      (f s.a (modifyResult op s.p.c (operandByte m s))) s.x s.y s.sp s.pc
      (nzOf (f s.a (modifyResult op s.p.c (operandByte m s)))
        { s.p with c := modifyCarry op s.p.c (operandByte m s) })
      (modifyCycles m) := by
  have hcpu := (modifyMem_cpuIs op m s).setAccumulator (f · (modifyMem op m s).1)
  rw [modifyMem_byte, modifyFlags_eq] at hcpu
  rw [modifyMem_byte]
  exact hcpu

/-- Settles O16: each instruction is `modifyMem` with its function, whose byte is the one stored, and then updates of A and
the flags only. -/
theorem combinedModifyResults : Obligations.CombinedModifyResults := by
  unfold Obligations.CombinedModifyResults
  intro s m v done asl rol lsr ror top low add sub
  have hdone {i : Instr} {t : State} {r a : Byte} {p : Flags} (op : ModifyOp) (hexec : exec i s = .next t)
      (hregs : OnlyRegs (modifyMem op m s).2 t) (hr : modifyResult op s.p.c v = r)
      (hcpu : CpuIs t a s.x s.y s.sp s.pc p (modifyCycles m)) : done i r a p :=
    hr ▸ ⟨t, hexec, hcpu, frame_of_modify hregs⟩
  have hasl : modifyResult .shiftLeft s.p.c v = asl := shiftLeft_number v
  have hrol : modifyResult .rotateLeft s.p.c v = rol := rotateLeft_number v _
  have hlsr : modifyResult .shiftRight s.p.c v = lsr := shiftRight_number v
  have hror : modifyResult .rotateRight s.p.c v = ror := rotateRight_number v _
  have hbyte (op : ModifyOp) : (modifyMem op m s).1 = modifyResult op s.p.c v := modifyMem_byte op m s
  refine ⟨hdone .shiftLeft rfl rfl hasl ?_, hdone .rotateLeft rfl rfl hrol ?_, hdone .shiftRight rfl rfl hlsr ?_,
    hdone .rotateRight rfl rfl hror ?_, hdone .decrement rfl rfl rfl ?_, hdone .increment rfl rfl rfl ?_⟩
  · rw [← hasl, ← show v.getLsbD 7 = top from top_bit v]
    exact modifyMem_setAccumulator_cpuIs .shiftLeft (· ||| ·) m s
  · rw [← hrol, ← show v.getLsbD 7 = top from top_bit v]
    exact modifyMem_setAccumulator_cpuIs .rotateLeft (· &&& ·) m s
  · rw [← hlsr, ← show v.getLsbD 0 = low from low_bit v]
    exact modifyMem_setAccumulator_cpuIs .shiftRight (· ^^^ ·) m s
  · have hcpu := (modifyMem_cpuIs .rotateRight m s).addWithCarry ror
    have hlow : modifyCarry .rotateRight s.p.c v = low := low_bit v
    rw [modifyFlags_eq, hlow] at hcpu
    rw [hbyte, hror]
    exact hcpu
  · rw [hbyte, modifyMem_a]
    exact (modifyMem_cpuIs .decrement m s).compare s.a (v - 1)
  · rw [hbyte]
    exact (modifyMem_cpuIs .increment m s).subWithBorrow (v + 1)

/-! ## Masked stores -/

/-- Register updates before a store are no part of what it does to the machine. -/
theorem OnlyRegs.oneStore_after {s u t : State} {k : Nat} {addr : Word} {v : Byte} (h : OnlyRegs s u)
    (f : OneStore k addr v u t) : OneStore k addr v s t := by
  rw [h] at f
  exact ⟨f.here, f.elsewhere, f.readOnly, f.video, f.events, f.lastAddr, f.lastData, f.lastRw⟩

theorem effAddr_base (m : MemMode) (s : State) : (effAddr m s).1.base = operandBase m s := by
  cases m <;> rfl

theorem maskedByte_eq (v : Byte) (m : MemMode) (s : State) :
    maskedByte v (effAddr m s).1.base = maskedStoreByte v m s := by
  rw [effAddr_base]
  rfl

theorem maskedAddr_eq (corrupt : Bool) (v : Byte) (m : MemMode) (s : State) :
    maskedAddr corrupt (maskedStoreByte v m s) (effAddr m s).1 = maskedStoreAddr corrupt v m s := by
  simp only [maskedAddr, maskedStoreAddr, operandAddr, effAddr_crossed, Bool.and_eq_true]

theorem storeMasked_cpuIs (corrupt : Bool) (m : MemMode) (v : Byte) (s : State) :
    CpuIs (storeMasked corrupt m v s) s.a s.x s.y s.sp s.pc s.p (storeCycles m) :=
  ⟨by simp, by simp, by simp, by simp, by simp, by simp, rfl⟩

/-- A masked store (43_undocumented.md R351) in the terms of the claims, after register updates that leave its operand what
it was. -/
theorem storeMasked_after {s u : State} (hregs : OnlyRegs s u) (corrupt : Bool) (m : MemMode) (v : Byte)
    (haddr : maskedStoreAddr corrupt v m u = maskedStoreAddr corrupt v m s)
    (hbyte : maskedStoreByte v m u = maskedStoreByte v m s) :
    MachineFrame s (storeMasked corrupt m v u)
      ∧ OneStore (storeCycles m) (maskedStoreAddr corrupt v m s) (maskedStoreByte v m s) s
          (storeMasked corrupt m v u) := by
  have hstore := storeMasked_oneStore corrupt m v u
  rw [maskedByte_eq, maskedAddr_eq, haddr, hbyte] at hstore
  exact ⟨(hregs.frame (machineFrame_refl s)).trans (storeMasked_frame corrupt m v u), hregs.oneStore_after hstore⟩

/-- Settles O20: each instruction is `storeMasked`, TAS after its update of S, which no indexed address looks at. -/
theorem maskedStoreResults : Obligations.MaskedStoreResults := by
  unfold Obligations.MaskedStoreResults
  refine ⟨fun a => ⟨rfl, rfl, rfl⟩, fun s => ?_⟩
  intro done
  have hdone {i : Instr} {m : MemMode} {corrupt : Bool} {v : Byte}
      (hexec : exec i s = .next (storeMasked corrupt m v s)) : done i m corrupt v s.sp (storeCycles m) :=
    ⟨_, hexec, storeMasked_cpuIs corrupt m v s, storeMasked_after (u := s) rfl corrupt m v rfl rfl⟩
  exact ⟨fun a => hdone (m := .aby a) rfl, fun z => hdone (m := .izy z) rfl, fun a => hdone (m := .aby a) rfl,
    fun a => hdone (m := .abx a) rfl, fun a => ⟨_, rfl, storeMasked_cpuIs _ _ _ (s.withSp (s.a &&& s.x)),
      storeMasked_after (u := s.withSp (s.a &&& s.x)) rfl _ _ _ rfl rfl⟩⟩

/-! ## A combined with an immediate -/

/-- Z and N of a comparison are those of the difference. -/
theorem compareFlags_eq_nzOf (reg m : Byte) (p : Flags) :
    compareFlags reg m p = nzOf (reg - m) { p with c := decide (m.toNat ≤ reg.toNat) } := by
  have hz : (reg == m) = decide ((reg - m).toNat = 0) := by
    rw [← beq_zero_toNat, Bool.eq_iff_iff, beq_iff_eq, beq_iff_eq]
    exact sub_eq_zero.symm
  rw [compareFlags, hz]
  rfl

/-- Settles O17: each instruction is register updates only, whose flags are `SetNZ` of the result once the shift
(`modifyFlags_eq`) and the comparison (`compareFlags_eq_nzOf`) are put so. -/
theorem immediateCombinedResults : Obligations.ImmediateCombinedResults := by
  unfold Obligations.ImmediateCombinedResults
  refine ⟨fun v => ⟨rfl, rfl, rfl, rfl, rfl, rfl⟩, fun s m => ?_⟩
  intro t ax half ane lxa
  refine ⟨fun k => ?_, ?_, ?_, ?_, ?_⟩
  · rw [exec, execAnc, State.setAccumulator, State.setNZ_eq]
    rfl
  · have hhalf : modifyResult .shiftRight s.p.c t = half := shiftRight_number t
    rw [exec, execAlr, modifyFlags_eq, hhalf, ← low_bit]
    rfl
  · rw [exec, execSbx, compareFlags_eq_nzOf]
    rfl
  · rw [exec, execAne, State.setAccumulator, State.setNZ_eq]
    rfl
  · rw [exec, execLxa, State.setAccumulator, State.setNZ_eq]
    rfl

/-! ## ARR -/

/-- The high digit of one byte joined with the low digit of another. -/
theorem join_digits (v w : Byte) :
    (v &&& 0xF0#8) ||| (w &&& 0x0F#8) = BitVec.ofNat 8 (v.toNat / 16 * 16 + w.toNat % 16) := by
  have hv := v.isLt
  have hjoin : v.toNat / 16 * 16 ||| w.toNat % 16 = v.toNat / 16 * 16 + w.toNat % 16 := by
    rw [Nat.mul_comm, ← Nat.two_pow_add_eq_or_of_lt (i := 4) (by omega)]
  apply BitVec.eq_of_toNat_eq
  rw [BitVec.toNat_or, BitVec.toNat_and, BitVec.toNat_and]
  change (v.toNat &&& 0xF0) ||| (w.toNat &&& 0x0F) = _
  rw [and_high_digit, and_low_digit, hjoin, BitVec.toNat_ofNat]
  omega

/-- Masking with `$40` keeps bit 6 alone. -/
theorem and_bit6_ne_zero (v : Byte) : (v &&& 0x40#8 != 0#8) = v.getLsbD 6 := by
  rw [← show BitVec.twoPow 8 6 = 0x40#8 from rfl, BitVec.and_twoPow]
  cases v.getLsbD 6 <;> rfl

theorem getLsbD_number (v : Byte) (i : Nat) : v.getLsbD i = decide (v.toNat / 2 ^ i % 2 = 1) := by
  rw [BitVec.getLsbD, Nat.testBit_eq_decide_div_mod_eq]

/-- Two bits differ, as numbers. -/
theorem xor_bits_number (m n : Nat) : (decide (m % 2 = 1) ^^ decide (n % 2 = 1)) = decide (m % 2 ≠ n % 2) := by
  rw [Bool.eq_iff_iff]
  rcases Nat.mod_two_eq_zero_or_one m with hm | hm <;> rcases Nat.mod_two_eq_zero_or_one n with hn | hn <;>
    simp [hm, hn]

/-- The result of ARR before the decimal adjustment (43_undocumented.md R362): `t` rotated right through the carry. -/
def arrRotated (t : Byte) (c : Bool) : Nat := t.toNat / 2 + 128 * c.toNat

theorem arrRotated_lt (t : Byte) (c : Bool) : arrRotated t c < 256 := by
  have ht := t.isLt
  have hc := c.toNat_le
  unfold arrRotated
  omega

theorem rotateRight_eq_arrRotated (t : Byte) (c : Bool) :
    (t >>> 1) ||| bitAt c 7 = BitVec.ofNat 8 (arrRotated t c) := rotateRight_number t c

theorem arrRotated_toNat (t : Byte) (c : Bool) : (BitVec.ofNat 8 (arrRotated t c)).toNat = arrRotated t c :=
  (BitVec.toNat_ofNat _ _).trans (Nat.mod_eq_of_lt (arrRotated_lt t c))

/-- The top bit of the rotated byte is the carry before the instruction. -/
theorem arrRotated_top (t : Byte) (c : Bool) : (BitVec.ofNat 8 (arrRotated t c)).getLsbD 7 = c := by
  have ht := t.isLt
  rw [top_bit, arrRotated_toNat, arrRotated]
  cases c with
  | false => simp; omega
  | true => simp

/-- ARR in binary mode in numbers. -/
theorem arrBin_eq (t : Byte) (c : Bool) :
    arrBin t c =
      { r := BitVec.ofNat 8 (arrRotated t c)
        c := decide (arrRotated t c / 64 % 2 = 1)
        v := decide (arrRotated t c / 64 % 2 ≠ arrRotated t c / 32 % 2)
        n := c
        z := decide (arrRotated t c = 0) } := by
  rw [← xor_bits_number]
  simp only [arrBin, rotateRight_eq_arrRotated, arrRotated_top, beq_zero_toNat, getLsbD_number _ 6, getLsbD_number _ 5,
    arrRotated_toNat]
  rfl

/-- The rotated byte with its low digit adjusted, by the low digit of `t` (43_undocumented.md R362). -/
def arrLow (t : Byte) (c : Bool) : Nat :=
  let r := arrRotated t c
  if 5 < t.toNat % 16 + t.toNat % 2 then r / 16 * 16 + (r + 6) % 16 else r

/-- The high digit is adjusted, by the high digit of `t` (43_undocumented.md R362). -/
def arrHigh (t : Byte) : Bool := decide (0x50 < t.toNat / 16 * 16 + t.toNat / 16 % 2 * 16)

/-- The masks of the low adjustment's condition and of the high one's, in numbers. -/
theorem arrMasks_toNat (t : Byte) :
    (t &&& 0x0F#8).toNat = t.toNat % 16 ∧ (t &&& 0x01#8).toNat = t.toNat % 2
      ∧ (t &&& 0xF0#8).toNat = t.toNat / 16 * 16 ∧ (t &&& 0x10#8).toNat = t.toNat / 16 % 2 * 16 := by
  have hbit4 : t.toNat &&& 2 ^ 4 = t.toNat / 2 ^ 4 % 2 * 2 ^ 4 := by rw [Nat.and_two_pow, Nat.toNat_testBit]
  exact ⟨and_low_digit _, Nat.and_one_is_mod _, and_high_digit t, hbit4⟩

/-- V of the decimal ARR: bit 6 of `t` and of the rotated byte differ. -/
theorem arrDec_v (t : Byte) (c : Bool) :
    ((t ^^^ BitVec.ofNat 8 (arrRotated t c)) &&& 0x40#8 != 0#8)
      = decide (t.toNat / 64 % 2 ≠ arrRotated t c / 64 % 2) := by
  rw [and_bit6_ne_zero, BitVec.getLsbD_xor, getLsbD_number, getLsbD_number, arrRotated_toNat, xor_bits_number]
  rfl

theorem arrLow_eq (t : Byte) (c : Bool) :
    (if 5 < t.toNat % 16 + t.toNat % 2 then
        (BitVec.ofNat 8 (arrRotated t c) &&& 0xF0#8) ||| ((BitVec.ofNat 8 (arrRotated t c) + 6) &&& 0x0F#8)
      else BitVec.ofNat 8 (arrRotated t c)) = BitVec.ofNat 8 (arrLow t c) := by
  have hsix : (BitVec.ofNat 8 (arrRotated t c) + 6).toNat % 16 = (arrRotated t c + 6) % 16 := by
    rw [BitVec.toNat_add, arrRotated_toNat]
    exact Nat.mod_mod_of_dvd _ (by decide)
  rw [join_digits, hsix, arrRotated_toNat, arrLow, apply_ite (BitVec.ofNat 8)]

/-- ARR in decimal mode in numbers. -/
theorem arrDec_eq (t : Byte) (c : Bool) :
    arrDec t c =
      { r := BitVec.ofNat 8 (if arrHigh t then (arrLow t c + 0x60) % 256 else arrLow t c)
        c := arrHigh t
        v := decide (t.toNat / 64 % 2 ≠ arrRotated t c / 64 % 2)
        n := c
        z := decide (arrRotated t c = 0) } := by
  obtain ⟨hlowDigit, hbit0, hhighDigit, hbit4⟩ := arrMasks_toNat t
  have hwrap : BitVec.ofNat 8 ((arrLow t c + 0x60) % 256) = BitVec.ofNat 8 (arrLow t c) + 0x60 :=
    BitVec.eq_of_toNat_eq (by simp)
  simp only [arrDec, rotateRight_eq_arrRotated, hlowDigit, hbit0, hhighDigit, hbit4, arrDec_v, arrLow_eq, beq_zero_toNat,
    arrRotated_toNat, apply_ite (BitVec.ofNat 8), hwrap]
  rfl

/-- Settles O18: the meaning of ARR by the decimal flag, both functions put in numbers by `arrBin_eq` and `arrDec_eq`. -/
theorem arrResult : Obligations.ArrResult := by
  unfold Obligations.ArrResult
  refine ⟨fun v => rfl, fun s m => ?_⟩
  intro t r low high dec
  refine ⟨fun hd => ?_, fun hd => ?_⟩
  · rw [exec, execArr, arrSelect, hd, if_neg Bool.false_ne_true, arrBin_eq]
    rfl
  · rw [exec, execArr, arrSelect, hd, if_pos rfl, arrDec_eq]
    rfl

/-! ## JAM -/

/-- A jammed CPU stays jammed at the same PC, halted by WSYNC or not. -/
theorem step_keeps_jammed {s t : State} (h : s.jammed = true) (hstep : step s = .next t) :
    t.jammed = true ∧ t.pc = s.pc := by
  cases hh : halted s with
  | true =>
    have ht : step s = .next (elapse 1 s) := by simp [step, hh, haltedTick]
    cases ht.symm.trans hstep
    simp [h]
  | false =>
    cases (step_jammed h hh).symm.trans hstep
    simp [h]

theorem hostReset_jammed {s t : State} (h : hostReset s = .next t) : t.jammed = false := by
  unfold hostReset at h
  split at h
  · cases h
  · cases h
    rfl

/-- Settles O29: the step of a jammed CPU is `step_jammed`, one bus read and the passing of `JAM_CYCLES`. -/
theorem jamResult : Obligations.JamResult := by
  unfold Obligations.JamResult
  refine ⟨rfl, rfl, rfl, rfl, rfl, rfl, rfl, rfl, rfl, rfl, rfl, rfl, fun k s => rfl, fun s hjam hh => ?_, rfl,
    fun s t => step_keeps_jammed, fun s t => hostReset_jammed⟩
  refine ⟨_, step_jammed hjam hh, ?_, by simpa using hjam, by simp, fun b => ?_, ?_, by simp, ?_⟩
  · constructor <;> simp
  · rw [elapse_peek]
    exact (busRead_noStore s.pc s).bytes b
  · constructor <;> simp
  · rw [elapse_video]
    simp [State.dual]

end Sys2Proof.Machine
end

section
/-! SUPPORT. The settled statements about the video and audio engine (44_video_engine.md): the effect of each write, the
delayed-write queue, the phases of a color clock, the objects at a column, and the audio output. -/

namespace Sys2Proof.Machine

/-! ## Stored registers and strobes -/

/-- A write to a register of the map, by the register and the bits it keeps (R406). -/
theorem applyWrite_of_videoReg {reg : BitVec 6} {r : VReg} (h : videoReg reg = some r) (cfg : Config) (v : Video)
    (b : Byte) (d : Nat) : applyWrite cfg v ⟨d, reg, b⟩ = applyReg cfg r (b &&& keepMask r) v := by
  simp only [applyWrite, h]

theorem videoReg_unused {n : Nat} (h : 0x2D ≤ n) (h' : n ≤ 0x3F) : videoReg (BitVec.ofNat 6 n) = none := by
  have hn : (BitVec.ofNat 6 n).toNat = n := (BitVec.toNat_ofNat n 6).trans (Nat.mod_eq_of_lt (by omega))
  rw [videoReg, hn]
  exact List.getElem?_eq_none h

theorem applyWrite_unused {reg : BitVec 6} (h : videoReg reg = none) (cfg : Config) (v : Video) (b : Byte) (d : Nat) :
    applyWrite cfg v ⟨d, reg, b⟩ = v := by
  simp only [applyWrite, h]

/-- A register that keeps every bit is written with the value itself. -/
theorem applyWrite_of_keepAll {reg : BitVec 6} {r : VReg} (h : videoReg reg = some r) (hk : keepMask r = 0xFF#8)
    (cfg : Config) (v : Video) (b : Byte) (d : Nat) : applyWrite cfg v ⟨d, reg, b⟩ = applyReg cfg r b v := by
  rw [applyWrite_of_videoReg h, hk, show b &&& 0xFF#8 = b from BitVec.and_allOnes]

theorem getLsbD_and_bit1 (b : Byte) : (b &&& 0x02#8).getLsbD 1 = b.getLsbD 1 := by
  rw [BitVec.getLsbD_and]
  exact Bool.and_true _

theorem resetPosition_eq (cfg : Config) (v : Video) (delay : Nat) :
    resetPosition cfg v delay = ((if v.h < cfg.hblankCc then 0 else v.h - cfg.hblankCc) + delay) % 160 := by
  unfold resetPosition visibleWidth
  split <;> congr 2
  omega

/-- Settles O41: each number's row of `videoRegMap` gives its case of `applyReg`, the column is `resetPosition_eq`, and
past the map there is no effect. -/
theorem strobeEffects : Obligations.StrobeEffects := by
  unfold Obligations.StrobeEffects
  intro cfg v b d write column
  have hcolumn (delay : Nat) : resetPosition cfg v delay = column delay := resetPosition_eq cfg v delay
  rw [← hcolumn 5, ← hcolumn 4]
  exact ⟨rfl, rfl, rfl, rfl, rfl, rfl, rfl, rfl, rfl,
    fun n hn hn' => applyWrite_unused (videoReg_unused hn hn') cfg v b d⟩

/-- Settles O44: for each number the row of `videoRegMap`, its mask and its case of `applyReg` evaluate to the
statement's; a mask of all bits keeps the value, and ENABL's mask keeps the bit it stores. -/
theorem storedRegisters : Obligations.StoredRegisters := by
  unfold Obligations.StoredRegisters
  intro cfg v b d put
  refine ⟨rfl, rfl, rfl, rfl, rfl, rfl, rfl, rfl, rfl, rfl, rfl, ?pf1, ?pf2, rfl, rfl, rfl, rfl, rfl, rfl, rfl, rfl,
    rfl, rfl, rfl, rfl, rfl, rfl, rfl, rfl, rfl, rfl, ?grp0, ?grp1, ?enabl⟩
  case pf1 => exact applyWrite_of_keepAll (r := .pf1) rfl rfl cfg v b d
  case pf2 => exact applyWrite_of_keepAll (r := .pf2) rfl rfl cfg v b d
  case grp0 => exact applyWrite_of_keepAll (r := .grp0) rfl rfl cfg v b d
  case grp1 => exact applyWrite_of_keepAll (r := .grp1) rfl rfl cfg v b d
  case enabl =>
    rw [← getLsbD_and_bit1 b]
    rfl

/-! ## Motion -/

theorem wrapColumn_cast (n : Int) : (wrapColumn n : Int) = n % 160 :=
  Int.toNat_of_nonneg (Int.emod_nonneg n (by decide))

/-- The motion value is the signed high nibble (R420). -/
theorem motion_eq (hm : Byte) :
    motion hm = if hm.toNat / 16 < 8 then ((hm.toNat / 16 : Nat) : Int) else ((hm.toNat / 16 : Nat) : Int) - 16 := by
  have hlt := hm.isLt
  have hnibble : (hm.extractLsb' 4 4).toNat = hm.toNat / 16 := by
    rw [BitVec.extractLsb'_toNat, Nat.shiftRight_eq_div_pow]
    exact Nat.mod_eq_of_lt (by omega)
  rw [motion, BitVec.toInt_eq_toNat_cond, hnibble]
  split <;> split <;> omega

/-- Settles O42: HMOVE's case of `applyReg`, with the motion value and the wrap put in numbers. -/
theorem hmoveMovesEveryObject : Obligations.HmoveMovesEveryObject := by
  unfold Obligations.HmoveMovesEveryObject
  intro cfg v b d signed moved
  have hmoved (hm : Byte) (pos : Nat) : (movedBy hm pos : Int) = moved hm pos := by
    rw [movedBy, wrapColumn_cast, motion_eq]
  have hblank : (if v.h < cfg.hblankCc then true else v.hmoveBlank)
      = (v.hmoveBlank || decide (v.h < cfg.hblankCc)) := by
    split <;> simp [*]
  refine ⟨_, _, _, _, _, ?_, hmoved _ _, hmoved _ _, hmoved _ _, hmoved _ _, hmoved _ _⟩
  rw [hblank]
  exact applyWrite_of_videoReg (r := .hmove) rfl ..

/-! ## VSYNC and the frame -/

/-- A VSYNC write by its edge (R408). -/
theorem applyVsync_eq (b : Byte) (v : Video) :
    applyVsync (b &&& 0x02#8) v =
      (let stored := { v with regs := { v.regs with vsync := b &&& 0x02 }, prevVsync := b.getLsbD 1 }
       if v.prevVsync = false ∧ b.getLsbD 1 = true then
         { stored with frameReady := true, frameCount := v.frameCount + 1, line := 0 }
       else if v.prevVsync = true ∧ b.getLsbD 1 = false then { stored with prevVblank := false, visibleStart := none }
       else stored) := by
  simp only [applyVsync, getLsbD_and_bit1]
  cases v.prevVsync <;> cases b.getLsbD 1 <;> rfl

theorem videoReg_vsync : ∀ reg, videoReg reg = some .vsync → reg = 0x00 := by decide

/-- What two engine states share when no frame began or ended between them. -/
structure SameFrame (v w : Video) : Prop where
  frameReady   : w.frameReady = v.frameReady
  frameCount   : w.frameCount = v.frameCount
  line         : w.line = v.line
  vsync        : w.regs.vsync = v.regs.vsync
  prevVsync    : w.prevVsync = v.prevVsync
  prevVblank   : w.prevVblank = v.prevVblank
  visibleStart : w.visibleStart = v.visibleStart

theorem applyReg_sameFrame (cfg : Config) {r : VReg} (h : r ≠ .vsync) (b : Byte) (v : Video) :
    SameFrame v (applyReg cfg r b v) := by
  cases r with
  | vsync => exact absurd rfl h
  | _ => exact ⟨rfl, rfl, rfl, rfl, rfl, rfl, rfl⟩

/-- A write to any register but VSYNC neither begins nor ends a frame. -/
theorem applyWrite_sameFrame (cfg : Config) {w : PendingWrite} (h : w.reg ≠ 0x00) (v : Video) :
    SameFrame v (applyWrite cfg v w) := by
  unfold applyWrite
  split
  · rename_i r hr
    exact applyReg_sameFrame cfg (fun hv => h (videoReg_vsync w.reg (hv ▸ hr))) _ v
  · exact ⟨rfl, rfl, rfl, rfl, rfl, rfl, rfl⟩

theorem applyWrite_vsync (cfg : Config) (v : Video) (b : Byte) (d : Nat) :
    applyWrite cfg v ⟨d, 0x00, b⟩ = applyVsync (b &&& 0x02#8) v :=
  applyWrite_of_videoReg (r := .vsync) rfl cfg v b d

/-- No write clears the frame-ready flag. -/
theorem applyWrite_frameReady (cfg : Config) (v : Video) (w : PendingWrite) (h : v.frameReady = true) :
    (applyWrite cfg v w).frameReady = true := by
  by_cases hw : w.reg = 0x00
  · obtain ⟨d, reg, b⟩ := w
    subst hw
    rw [applyWrite_vsync, applyVsync_eq]
    dsimp only
    split_ifs
    · rfl
    · exact h
    · exact h
  · rw [(applyWrite_sameFrame cfg hw v).frameReady, h]

/-! ## The phases of a color clock -/

/-- Phases (a2) to (e) of a color clock, all that follows its due writes (R430). -/
def finishClock (cfg : Config) (u : Video) : Video := phaseAdvance cfg (phaseDraw cfg (phaseDetect (phaseLock cfg u)))

theorem videoStep_eq_finishClock (cfg : Config) (v : Video) :
    videoStep cfg v = finishClock cfg (phaseQueue cfg v) := rfl

/-- Inside a line the counter advance moves `h` alone. -/
theorem phaseAdvance_inLine {cfg : Config} {v : Video} (h : v.h + 1 ≠ cfg.lineCc) :
    phaseAdvance cfg v = { v with h := v.h + 1 } := if_neg h

/-- At the line's end the counter advance wraps `h`, moves the line and ends the halt and the blanking (R441). -/
theorem phaseAdvance_wrap {cfg : Config} {v : Video} (h : v.h + 1 = cfg.lineCc) :
    phaseAdvance cfg v =
      { v with h := 0, line := (v.line + 1) % (frameGeometry cfg).lines, wsyncHalt := false, hmoveBlank := false } :=
  if_pos h

/-- Inside a line the phases after the lock and the detector move `h` and draw. -/
theorem finishClock_inLine {cfg : Config} {u : Video} (h : u.h + 1 ≠ cfg.lineCc) :
    ∃ fb cx, finishClock cfg u = { phaseDetect (phaseLock cfg u) with h := u.h + 1, fb := fb, cx := cx } := by
  obtain ⟨fb, cx, hdraw⟩ := phaseDraw_eq cfg (phaseDetect (phaseLock cfg u))
  exact ⟨fb, cx, by rw [finishClock, hdraw]; exact phaseAdvance_inLine h⟩

/-- At the line's end they draw, and the line ends. -/
theorem finishClock_wrap {cfg : Config} {u : Video} (h : u.h + 1 = cfg.lineCc) :
    ∃ fb cx, finishClock cfg u =
      { phaseDetect (phaseLock cfg u) with
        h := 0, line := (u.line + 1) % (frameGeometry cfg).lines, wsyncHalt := false, hmoveBlank := false,
        fb := fb, cx := cx } := by
  obtain ⟨fb, cx, hdraw⟩ := phaseDraw_eq cfg (phaseDetect (phaseLock cfg u))
  exact ⟨fb, cx, by rw [finishClock, hdraw]; exact phaseAdvance_wrap h⟩

/-- In both cases they touch the beam, the two flags of its line, the framebuffer and the latches only. -/
theorem finishClock_eq (cfg : Config) (u : Video) :
    ∃ h line halt blank fb cx, finishClock cfg u =
      { phaseDetect (phaseLock cfg u) with
        h := h, line := line, wsyncHalt := halt, hmoveBlank := blank, fb := fb, cx := cx } := by
  by_cases hw : u.h + 1 = cfg.lineCc
  · obtain ⟨fb, cx, heq⟩ := finishClock_wrap hw
    exact ⟨_, _, _, _, fb, cx, heq⟩
  · obtain ⟨fb, cx, heq⟩ := finishClock_inLine hw
    exact ⟨_, _, _, _, fb, cx, heq⟩

theorem finishClock_frameReady (cfg : Config) (u : Video) : (finishClock cfg u).frameReady = u.frameReady := by
  obtain ⟨h, line, halt, blank, fb, cx, heq⟩ := finishClock_eq cfg u
  rw [heq]
  rfl

/-- Settles O40: what follows the due writes, by the two cases of the counter advance. -/
theorem beamCounter : Obligations.BeamCounter := by
  unfold Obligations.BeamCounter
  intro cfg v
  have hh : (phaseQueue cfg v).h = v.h := phaseQueue_h cfg v
  rw [← hh, videoStep_eq_finishClock]
  refine ⟨fun hline => ?_, fun hwrap => ?_, finishClock_frameReady cfg _, rfl⟩
  · obtain ⟨fb, cx, heq⟩ := finishClock_inLine hline
    rw [heq]
    exact ⟨rfl, rfl, rfl, rfl⟩
  · obtain ⟨fb, cx, heq⟩ := finishClock_wrap hwrap
    rw [heq]
    exact ⟨rfl, rfl, rfl, rfl⟩

/-! ### The frame-ready flag through a step -/

/-- No color clock clears the frame-ready flag. -/
theorem videoStep_frameReady {cfg : Config} {v : Video} (h : v.frameReady = true) :
    (videoStep cfg v).frameReady = true := by
  rw [videoStep_eq_finishClock, finishClock_frameReady]
  exact phaseQueue_keeps (Q := fun u => u.frameReady = true) (fun _ _ hu => hu) (applyWrite_frameReady cfg) h

/-- A store reaches the engine through its queue alone, so it leaves the frame-ready flag. -/
theorem busWrite_video_frameReady (k : Nat) (addr : Word) (b : Byte) (s : State) :
    (busWrite k addr b s).video.frameReady = s.video.frameReady := by
  rw [busWrite_video]
  unfold videoAfterStore
  cases s.target addr <;> rfl

theorem frameReady_closed (n : Nat) : Closed n fun s => s.video.frameReady = true where
  read _ _ hu := hu
  write k _ _ addr b u hu := (busWrite_video_frameReady k addr b u).trans hu
  regs _ _ _ _ _ _ _ _ hu := hu
  jam _ hu := hu

theorem elapse_frameReady (n : Nat) {s : State} (h : s.video.frameReady = true) :
    (elapse n s).video.frameReady = true := by
  rw [elapse_video]
  split
  · exact videoSteps_keeps (Q := fun u => u.frameReady = true) (fun _ => videoStep_frameReady) _ h
  · exact h

theorem hostReset_video {s t : State} (h : hostReset s = .next t) : t.video = Video.reset := by
  unfold hostReset at h
  split at h
  · cases h
  · cases h
    rfl

/-- Settles O43: `applyVsync_eq` gives the edges, `applyWrite_sameFrame` the other registers, and the flag is kept by
all that a step is made of. -/
theorem vsyncEdges : Obligations.VsyncEdges := by
  unfold Obligations.VsyncEdges
  refine ⟨fun cfg v b d => ⟨?_, fun reg hreg => ?_⟩, fun s => rfl, fun s t hstep hs => ?_, fun s t hreset => ?_⟩
  · rw [applyWrite_vsync, applyVsync_eq]
  · obtain ⟨hready, hcount, hline, hvsync, hprev, hvblank, hstart⟩ :=
      applyWrite_sameFrame cfg (w := ⟨d, reg, b⟩) hreg v
    exact ⟨hready, hcount, hline, hvsync, hprev, hvblank, hstart⟩
  · exact step_keeps frameReady_closed (fun _ hv => hv) (fun n _ => elapse_frameReady n) hstep hs
  · rw [hostReset_video hreset]
    rfl

/-! ## The missile lock and the visible-window detector -/

theorem copyMode_eq (nusiz : Byte) : copyMode nusiz = nusiz.toNat % 8 := by
  rw [copyMode, BitVec.toNat_and]
  exact Nat.and_two_pow_sub_one_eq_mod nusiz.toNat 3

theorem phaseDetect_visibleStart (u : Video) :
    (phaseDetect u).visibleStart =
      if u.prevVblank = true ∧ u.regs.vblank.getLsbD 1 = false ∧ u.visibleStart = none then some u.line
      else u.visibleStart := by
  unfold phaseDetect
  cases u.prevVblank <;> cases u.regs.vblank.getLsbD 1 <;> cases u.visibleStart <;> rfl

/-- Settles O45: nothing after the lock and the detector touches a position or the detector's fields
(`finishClock_eq`). -/
theorem lockAndDetector : Obligations.LockAndDetector := by
  unfold Obligations.LockAndDetector
  intro cfg v u t locked
  obtain ⟨h, line, halt, blank, fb, cx, heq⟩ := finishClock_eq cfg u
  have ht : t = _ := heq
  have hlocked (nusiz : Byte) (posP : Nat) :
      (posP + resmpOffsetOf cfg (copyMode nusiz)) % visibleWidth = locked posP nusiz := by
    rw [copyMode_eq]
    rfl
  rw [ht]
  refine ⟨fun hl => ?_, fun hl => ?_, fun hl => ?_, fun hl => ?_, rfl, rfl, rfl, rfl, phaseDetect_visibleStart _,
    phaseQueue_of_empty⟩
  · exact (if_pos hl).trans (hlocked _ _)
  · exact if_neg (Bool.eq_false_iff.mp hl)
  · exact (if_pos hl).trans (hlocked _ _)
  · exact if_neg (Bool.eq_false_iff.mp hl)

/-! ## Drawing -/

/-- The beam is inside the frame window (R440). -/
def inWindow (cfg : Config) (v : Video) : Prop :=
  visibleBase cfg v ≤ v.line ∧ v.line - visibleBase cfg v < (frameGeometry cfg).fbHeight

/-- The framebuffer cell of the beam at column `x`. -/
def beamCell (cfg : Config) (v : Video) (x : Nat) : Nat := (v.line - visibleBase cfg v) * 160 + x

section
variable {cfg : Config} {v : Video} {x : Nat}

theorem writePixel_inside (h : inWindow cfg v) (c : Byte) :
    writePixel cfg x c v = { v with fb := cellWrite zeroBase v.fb (beamCell cfg v x) c } := if_pos h

theorem writePixel_outside (h : ¬inWindow cfg v) (c : Byte) : writePixel cfg x c v = v := if_neg h

theorem writePixel_here (h : inWindow cfg v) (c : Byte) :
    cellRead zeroBase (writePixel cfg x c v).fb (beamCell cfg v x) = c := by
  rw [writePixel_inside h]
  exact cellRead_write_same _ _ _ _

theorem writePixel_elsewhere {cell : Nat} (h : inWindow cfg v → cell ≠ beamCell cfg v x) (c : Byte) :
    cellRead zeroBase (writePixel cfg x c v).fb cell = cellRead zeroBase v.fb cell := by
  by_cases hw : inWindow cfg v
  · rw [writePixel_inside hw]
    exact cellRead_write_other _ _ _ (h hw)
  · rw [writePixel_outside hw]

end

theorem visible_iff (cfg : Config) (v : Video) :
    visible cfg v = true ↔ cfg.hblankCc ≤ v.h ∧ v.regs.vblank.getLsbD 1 = false := by
  simp [visible]

section
variable {cfg : Config} {v : Video}

theorem phaseDraw_hidden (h : ¬visible cfg v = true) : phaseDraw cfg v = v := if_neg h

theorem phaseDraw_blanked (h : visible cfg v = true) (hc : v.hmoveBlank = true ∧ v.h - cfg.hblankCc < 8) :
    phaseDraw cfg v = writePixel cfg (v.h - cfg.hblankCc) 0 v := by
  simp [phaseDraw, h, hc]

theorem phaseDraw_drawn (h : visible cfg v = true) (hc : ¬(v.hmoveBlank = true ∧ v.h - cfg.hblankCc < 8)) :
    phaseDraw cfg v =
      (let x := v.h - cfg.hblankCc
       let g := signalsAt v x
       { writePixel cfg x (pixelColour v.regs g x) v with cx := latch g v.cx }) := by
  have hcomb : ¬(v.hmoveBlank && decide (v.h - cfg.hblankCc < 8)) = true := by simpa using hc
  rw [phaseDraw, if_pos h]
  exact if_neg hcomb

/-- Drawing changes no cell but the beam's. -/
theorem phaseDraw_elsewhere {cell : Nat} (h : inWindow cfg v → cell ≠ beamCell cfg v (v.h - cfg.hblankCc)) :
    cellRead zeroBase (phaseDraw cfg v).fb cell = cellRead zeroBase v.fb cell := by
  by_cases hv : visible cfg v = true
  · by_cases hc : v.hmoveBlank = true ∧ v.h - cfg.hblankCc < 8
    · rw [phaseDraw_blanked hv hc, writePixel_elsewhere h]
    · rw [phaseDraw_drawn hv hc]
      exact writePixel_elsewhere h _
  · rw [phaseDraw_hidden hv]

end

/-- The playfield's colour is that of its half in score mode (R438). -/
theorem playfieldColour_eq (r : VideoRegs) (x : Nat) :
    playfieldColour r x =
      if r.ctrlpf.getLsbD 1 = false then r.colupf else if x < 80 then r.colup0 else r.colup1 := by
  unfold playfieldColour
  cases r.ctrlpf.getLsbD 1 <;> rfl

section
variable {r : VideoRegs} (g : Signals) (x : Nat)

/-- Players and missiles come first where CTRLPF D2 is clear (R438). -/
theorem pixelColour_playersFirst (h : r.ctrlpf.getLsbD 2 = false) :
    pixelColour r g x =
      if g.p0 = true ∨ g.m0 = true then r.colup0
      else if g.p1 = true ∨ g.m1 = true then r.colup1
      else if g.bl = true then r.colupf
      else if g.pf = true then playfieldColour r x
      else r.colubk := by
  simp only [pixelColour, h, Bool.or_eq_true, Bool.false_eq_true, if_false]

/-- The ball and the playfield come first where it is set (R438). -/
theorem pixelColour_playfieldFirst (h : r.ctrlpf.getLsbD 2 = true) :
    pixelColour r g x =
      if g.bl = true then r.colupf
      else if g.pf = true then playfieldColour r x
      else if g.p0 = true ∨ g.m0 = true then r.colup0
      else if g.p1 = true ∨ g.m1 = true then r.colup1
      else r.colubk := by
  simp only [pixelColour, h, Bool.or_eq_true, if_true]

end

/-- Settles O46: the drawing phase by its three cases, hidden, HMOVE-blanked and drawn. -/
theorem visibleClockDraws : Obligations.VisibleClockDraws := by
  unfold Obligations.VisibleClockDraws
  intro cfg v x base seen comb g u half pixel
  have hvisible : seen → visible cfg v = true := (visible_iff cfg v).mpr
  have hhalf : half = playfieldColour v.regs x := (playfieldColour_eq v.regs x).symm
  have hblanked (hs : seen) (hc : comb) : u = writePixel cfg x 0 v := phaseDraw_blanked (hvisible hs) hc
  have hdrawn (hs : seen) (hc : ¬comb) :
      u = { writePixel cfg x (pixelColour v.regs g x) v with cx := latch g v.cx } := phaseDraw_drawn (hvisible hs) hc
  refine ⟨fun hs => ?_, ?_, fun hs hc => ?_, fun hs hc => ?_, fun cell hcell => ?_, fun hs hbase hrow => ?_⟩
  · exact phaseDraw_hidden fun hv => hs ((visible_iff cfg v).mp hv)
  · obtain ⟨fb, cx, heq⟩ := phaseDraw_eq cfg v
    change phaseDraw cfg v = { v with fb := (phaseDraw cfg v).fb, cx := (phaseDraw cfg v).cx }
    rw [heq]
  · obtain ⟨fb, heq⟩ := writePixel_eq cfg x 0 v
    rw [hblanked hs hc, heq]
  · rw [hdrawn hs hc]
    exact ⟨rfl, rfl, rfl, rfl, rfl, rfl, rfl, rfl, rfl, rfl, rfl, rfl, rfl, rfl, rfl⟩
  · exact phaseDraw_elsewhere fun hw => hcell hw.1 hw.2
  · have hwindow : inWindow cfg v := ⟨hbase, hrow⟩
    have hpixel (hc : ¬comb) : pixel (v.line - base) = pixelColour v.regs g x := by
      change cellRead zeroBase u.fb _ = _
      rw [hdrawn hs hc]
      exact writePixel_here hwindow _
    refine ⟨fun hc => ?_, fun hc hd2 => ?_, fun hc hd2 => ?_⟩
    · change cellRead zeroBase u.fb _ = _
      rw [hblanked hs hc]
      exact writePixel_here hwindow 0
    · rw [hpixel hc, pixelColour_playersFirst g x hd2, hhalf]
    · rw [hpixel hc, pixelColour_playfieldFirst g x hd2, hhalf]

/-! ## The delayed-write queue -/

theorem foldl_applyWrite_withQueue (cfg : Config) (l : List PendingWrite) (v : Video) (q : List PendingWrite) :
    l.foldl (applyWrite cfg) { v with queue := q } = { l.foldl (applyWrite cfg) v with queue := q } := by
  induction l generalizing v with
  | nil => rfl
  | cons w rest ih => rw [List.foldl_cons, List.foldl_cons, applyWrite_withQueue, ih]

/-- The delays still left are no part of the writes' effect. -/
theorem foldl_applyWrite_countDown (cfg : Config) (l : List PendingWrite) (v : Video) :
    (l.map countDown).foldl (applyWrite cfg) v = l.foldl (applyWrite cfg) v := by
  rw [List.foldl_map]
  rfl

theorem filter_reg_of_all {kept : List PendingWrite} {reg : BitVec 6} (h : ∀ e ∈ kept, e.reg = reg) :
    (kept.filter fun e => e.reg == reg) = kept ∧ (kept.filter fun e => e.reg != reg) = [] :=
  ⟨by simpa using h, by simpa using h⟩

theorem filter_reg_of_none {kept : List PendingWrite} {reg : BitVec 6} (h : ∀ e ∈ kept, e.reg ≠ reg) :
    (kept.filter fun e => e.reg == reg) = [] ∧ (kept.filter fun e => e.reg != reg) = kept :=
  ⟨by simpa using h, by simpa using h⟩

/-- Where no due write has an earlier one to its register still to come, the due writes of a queue are applied in
submission order and the others stay. -/
theorem drainQueue_unforced (cfg : Config) (kept l : List PendingWrite) (v : Video)
    (hkept : ∀ e ∈ kept, ∀ w ∈ l, w.remaining = 0 → e.reg ≠ w.reg)
    (hl : l.Pairwise fun e w => e.reg = w.reg → w.remaining = 0 → e.remaining = 0) :
    drainQueue cfg kept l v =
      { (l.filter fun w => w.remaining = 0).foldl (applyWrite cfg) v with
        queue := kept ++ l.filter fun w => w.remaining ≠ 0 } := by
  induction l generalizing kept v with
  | nil => simp [drainQueue]
  | cons w rest ih =>
    obtain ⟨hw, hrest⟩ := List.pairwise_cons.mp hl
    by_cases hdue : w.remaining = 0
    · obtain ⟨hforced, hstays⟩ := filter_reg_of_none fun e he => hkept e he w List.mem_cons_self hdue
      rw [drainQueue, if_pos hdue, hforced, hstays,
        ih kept _ (fun e he x hx => hkept e he x (List.mem_cons_of_mem _ hx)) hrest]
      simp [hdue]
    · have hkept' : ∀ e ∈ kept ++ [w], ∀ x ∈ rest, x.remaining = 0 → e.reg ≠ x.reg :=
        List.forall_mem_append.mpr ⟨fun e he x hx => hkept e he x (List.mem_cons_of_mem _ hx),
          List.forall_mem_singleton.mpr fun x hx hx0 hreg => hdue (hw x hx hreg hx0)⟩
      rw [drainQueue, if_neg hdue, ih _ v hkept' hrest]
      simp [hdue]

/-- The same of a color clock, in the delays the queue has before it. -/
theorem phaseQueue_unforced (cfg : Config) (v : Video) {q : List PendingWrite}
    (hq : q.Pairwise fun e w => e.reg = w.reg → w.remaining ≤ 1 → e.remaining ≤ 1) :
    phaseQueue cfg { v with queue := q } =
      { (q.filter fun w => w.remaining ≤ 1).foldl (applyWrite cfg) v with
        queue := (q.filter fun w => 2 ≤ w.remaining).map countDown } := by
  have hdue (w : PendingWrite) : (countDown w).remaining = 0 ↔ w.remaining ≤ 1 := by simp [countDown]; omega
  have hpairs : (q.map countDown).Pairwise fun e w => e.reg = w.reg → w.remaining = 0 → e.remaining = 0 := by
    rw [List.pairwise_map]
    exact hq.imp fun h hreg hw => (hdue _).mpr (h hreg ((hdue _).mp hw))
  have hnow : (q.map countDown).filter (fun w => w.remaining = 0)
      = (q.filter fun w => w.remaining ≤ 1).map countDown := by
    simp only [List.filter_map, Function.comp_def, hdue]
  have hlater : (q.map countDown).filter (fun w => w.remaining ≠ 0)
      = (q.filter fun w => 2 ≤ w.remaining).map countDown := by
    simp only [List.filter_map, Function.comp_def, ne_eq, hdue, not_le, Nat.lt_iff_add_one_le]
  rw [phaseQueue, drainQueue_unforced cfg [] _ _ (List.forall_mem_nil _) hpairs, hnow, hlater,
    foldl_applyWrite_countDown, foldl_applyWrite_withQueue, List.nil_append]

/-- In a queue of one register alone, a due last write has every earlier one applied before it, in submission order. -/
theorem drainQueue_forced (cfg : Config) (kept l : List PendingWrite) (v : Video) {w : PendingWrite}
    (hw : w.remaining = 0) (hkept : ∀ e ∈ kept, e.reg = w.reg) (hl : ∀ e ∈ l, e.reg = w.reg) :
    drainQueue cfg kept (l ++ [w]) v =
      { applyWrite cfg ((kept ++ l).foldl (applyWrite cfg) v) w with queue := [] } := by
  induction l generalizing kept v with
  | nil =>
    obtain ⟨hall, hnone⟩ := filter_reg_of_all hkept
    rw [List.nil_append, drainQueue, if_pos hw, hall, hnone, drainQueue, List.append_nil]
  | cons e rest ih =>
    obtain ⟨he, hrest⟩ := List.forall_mem_cons.mp hl
    rw [List.cons_append, drainQueue]
    split
    · obtain ⟨hall, hnone⟩ := filter_reg_of_all (he ▸ hkept)
      rw [hall, hnone, ih [] _ (List.forall_mem_nil _) hrest]
      simp
    · have hkept' : ∀ x ∈ kept ++ [e], x.reg = w.reg :=
        List.forall_mem_append.mpr ⟨hkept, List.forall_mem_singleton.mpr he⟩
      rw [ih _ v hkept' hrest]
      simp

theorem phaseQueue_forced (cfg : Config) (v : Video) {reg : BitVec 6} (b : Byte) {q : List PendingWrite}
    (hq : ∀ e ∈ q, e.reg = reg) :
    phaseQueue cfg { v with queue := q ++ [⟨1, reg, b⟩] } =
      applyWrite cfg (q.foldl (applyWrite cfg) { v with queue := [] }) ⟨0, reg, b⟩ := by
  have hmap : ∀ e ∈ q.map countDown, e.reg = reg := List.forall_mem_map.mpr hq
  rw [phaseQueue, List.map_append, List.map_singleton,
    drainQueue_forced cfg [] _ _ (w := countDown ⟨1, reg, b⟩) rfl (List.forall_mem_nil _) hmap,
    List.nil_append, foldl_applyWrite_countDown, ← applyWrite_withQueue, ← foldl_applyWrite_withQueue]
  rfl

/-! ### One scheduled write, nothing else pending -/

theorem writePixel_withQueue (cfg : Config) (x : Nat) (c : Byte) (v : Video) (q : List PendingWrite) :
    writePixel cfg x c { v with queue := q } = { writePixel cfg x c v with queue := q } := by
  by_cases hw : inWindow cfg v
  · rw [writePixel_inside hw]
    exact writePixel_inside (v := { v with queue := q }) hw c
  · rw [writePixel_outside hw]
    exact writePixel_outside (v := { v with queue := q }) hw c

theorem phaseDraw_withQueue (cfg : Config) (v : Video) (q : List PendingWrite) :
    phaseDraw cfg { v with queue := q } = { phaseDraw cfg v with queue := q } := by
  by_cases hv : visible cfg v = true
  · by_cases hc : v.hmoveBlank = true ∧ v.h - cfg.hblankCc < 8
    · rw [phaseDraw_blanked hv hc, ← writePixel_withQueue]
      exact phaseDraw_blanked (v := { v with queue := q }) hv hc
    · rw [phaseDraw_drawn hv hc, phaseDraw_drawn (v := { v with queue := q }) hv hc]
      dsimp only
      rw [writePixel_withQueue]
      rfl
  · rw [phaseDraw_hidden hv]
    exact phaseDraw_hidden (v := { v with queue := q }) hv

theorem phaseAdvance_withQueue (cfg : Config) (v : Video) (q : List PendingWrite) :
    phaseAdvance cfg { v with queue := q } = { phaseAdvance cfg v with queue := q } := by
  by_cases hw : v.h + 1 = cfg.lineCc
  · rw [phaseAdvance_wrap hw]
    exact phaseAdvance_wrap (v := { v with queue := q }) hw
  · rw [phaseAdvance_inLine hw]
    exact phaseAdvance_inLine (v := { v with queue := q }) hw

/-- The phases after the due writes neither read nor change the queue. -/
theorem finishClock_withQueue (cfg : Config) (u : Video) (q : List PendingWrite) :
    finishClock cfg { u with queue := q } = { finishClock cfg u with queue := q } := by
  rw [finishClock, finishClock, ← phaseAdvance_withQueue, ← phaseDraw_withQueue]
  rfl

section
variable {cfg : Config} {v : Video} (hq : v.queue = []) (reg : BitVec 6) (b : Byte)
include hq

theorem schedule_of_empty (d : Nat) : schedule v reg b d = { v with queue := [⟨d, reg, b⟩] } := by
  simp [schedule, hq]

theorem withQueue_empty : { v with queue := [] } = v := by
  rw [← hq]

theorem videoStep_of_empty : videoStep cfg v = finishClock cfg v := by
  rw [videoStep_eq_finishClock, phaseQueue_of_empty hq]

theorem videoStep_queue_of_empty : (videoStep cfg v).queue = [] := by
  rw [videoStep_of_empty hq, ← withQueue_empty hq, finishClock_withQueue]

theorem videoSteps_queue_of_empty (n : Nat) : (videoSteps cfg n v).queue = [] :=
  videoSteps_keeps (Q := fun u => u.queue = []) (fun _ hu => videoStep_queue_of_empty hu) n hq

/-- The color clock in which a scheduled write is due applies it and goes on from there. -/
theorem videoStep_schedule_due {d : Nat} (hd : d ≤ 1) :
    videoStep cfg (schedule v reg b d) = finishClock cfg (applyWrite cfg v ⟨0, reg, b⟩) := by
  have hlate : ¬2 ≤ d := by omega
  rw [videoStep_eq_finishClock, schedule_of_empty hq, phaseQueue_unforced cfg v (List.pairwise_singleton _ _),
    List.filter_singleton, List.filter_singleton, decide_eq_true hd, decide_eq_false hlate]
  exact congrArg (finishClock cfg) ((applyWrite_withQueue cfg v _ []).symm.trans (by rw [withQueue_empty hq]; rfl))

/-- A color clock before it brings the write one nearer and does what it would do without it. -/
theorem videoStep_schedule_pending (d : Nat) :
    videoStep cfg (schedule v reg b (d + 2)) = schedule (videoStep cfg v) reg b (d + 1) := by
  rw [schedule_of_empty (videoStep_queue_of_empty hq), videoStep_of_empty hq, videoStep_eq_finishClock,
    schedule_of_empty hq, phaseQueue_unforced cfg v (List.pairwise_singleton _ _), ← finishClock_withQueue]
  simp [countDown]

end

theorem videoSteps_schedule_pending {cfg : Config} (reg : BitVec 6) (b : Byte) (n m : Nat) {v : Video}
    (hq : v.queue = []) :
    videoSteps cfg n (schedule v reg b (n + (m + 1))) = schedule (videoSteps cfg n v) reg b (m + 1) := by
  induction n generalizing v with
  | zero => rw [Nat.zero_add, videoSteps, videoSteps]
  | succ n ih =>
    rw [show n + 1 + (m + 1) = n + m + 2 by omega, videoSteps, videoStep_schedule_pending hq, videoSteps,
      Nat.add_assoc n m 1, ih (videoStep_queue_of_empty hq)]

/-- Settles O39: one scheduled write by its color clocks, a queue without forced writes by `phaseQueue_unforced`, a
queue of one register by `phaseQueue_forced`. -/
theorem delayedWriteApplies : Obligations.DelayedWriteApplies := by
  unfold Obligations.DelayedWriteApplies
  intro cfg v reg b b₂ d finish
  refine ⟨fun hq hd => ⟨?_, fun n hn => ?_⟩, fun hq => videoStep_schedule_due hq reg b (Nat.zero_le 1),
    fun q hpairs => ?_, fun q hreg => phaseQueue_forced cfg v b₂ hreg⟩
  · obtain ⟨n, rfl⟩ := Nat.exists_eq_add_of_le' hd
    rw [videoSteps_add, videoSteps_schedule_pending reg b n 0 hq]
    exact videoStep_schedule_due (videoSteps_queue_of_empty hq n) reg b (Nat.le_refl 1)
  · obtain ⟨m, rfl⟩ := Nat.exists_eq_add_of_lt hn
    rw [Nat.add_assoc, Nat.add_sub_cancel_left, videoSteps_schedule_pending reg b n m hq]
  · rw [phaseQueue_unforced cfg v hpairs, foldl_applyWrite_withQueue cfg _ v []]
    rfl

/-! ## Objects at a column -/

section
variable (r : VideoRegs) {x : Nat}

theorem playfieldBit_left (h : x < 80) : playfieldBit r x = halfBit r (x / 4) := by
  rw [playfieldBit, if_pos (show x / 4 < 20 by omega)]

/-- The right half of a repeated playfield (R433). -/
theorem playfieldBit_repeated (hd : r.ctrlpf.getLsbD 0 = false) (h : x < 80) :
    playfieldBit r (x + 80) = playfieldBit r x := by
  rw [playfieldBit_left r h, playfieldBit, hd, if_neg (show ¬(x + 80) / 4 < 20 by omega), if_neg Bool.false_ne_true,
    show (x + 80) / 4 - 20 = x / 4 by omega]

/-- The right half of a reflected playfield (R433). -/
theorem playfieldBit_reflected (hd : r.ctrlpf.getLsbD 0 = true) (h : x < 80) :
    playfieldBit r (159 - x) = playfieldBit r x := by
  rw [playfieldBit_left r h, playfieldBit, hd, if_neg (show ¬(159 - x) / 4 < 20 by omega), if_pos rfl,
    show 39 - (159 - x) / 4 = x / 4 by omega]

theorem playfieldBit_pf0 (h : x < 16) : playfieldBit r x = r.pf0.getLsbD (4 + x / 4) := by
  rw [playfieldBit_left r (by omega), halfBit, if_pos (by omega)]

theorem playfieldBit_pf1 (h : 16 ≤ x) (h' : x < 48) : playfieldBit r x = r.pf1.getLsbD (7 - (x - 16) / 4) := by
  rw [playfieldBit_left r (by omega), halfBit, if_neg (by omega), if_pos (by omega)]
  congr 1
  omega

theorem playfieldBit_pf2 (h : 48 ≤ x) (h' : x < 80) : playfieldBit r x = r.pf2.getLsbD ((x - 48) / 4) := by
  rw [playfieldBit_left r h', halfBit, if_neg (by omega), if_neg (by omega)]
  congr 1
  omega

end

theorem columnsRight_cast (x pos o : Nat) : (columnsRight x pos o : Int) = ((x : Int) - pos - o) % 160 :=
  wrapColumn_cast _

/-- The copies of the eight copy modes and their widths (R434). -/
theorem copies_table : ∀ c < 8,
    copyOffsets c = [[0], [0, 16], [0, 32], [0, 16, 32], [0, 64], [0], [0, 32, 64], [0]].getD c []
      ∧ widthMultiplier c = [1, 1, 1, 1, 1, 2, 1, 4].getD c 0 := by
  decide

theorem widthMultiplier_pos (c : Nat) : 0 < widthMultiplier c := by
  unfold widthMultiplier
  split <;> decide

/-- Which of the eight bits, each `w` columns wide, lies over a column, and what holds of it. -/
theorem bit_over_column {w : Nat} (hw : 0 < w) (d : Nat) (P : Nat → Prop) :
    d < 8 * w ∧ P (d / w) ↔ ∃ k < 8, w * k ≤ d ∧ d < w * (k + 1) ∧ P k := by
  constructor
  · rintro ⟨hd, hP⟩
    exact ⟨d / w, (Nat.div_lt_iff_lt_mul hw).mpr hd, Nat.mul_div_le d w, Nat.lt_mul_div_succ d hw, hP⟩
  · rintro ⟨k, hk, hle, hlt, hP⟩
    have hdiv : d / w = k := Nat.div_eq_of_lt_le (by rwa [Nat.mul_comm]) (by rwa [Nat.mul_comm])
    exact ⟨(Nat.div_lt_iff_lt_mul hw).mp (hdiv ▸ hk), hdiv ▸ hP⟩

theorem playerBit_iff (g nusiz refp : Byte) (pos x : Nat) :
    playerBit g nusiz refp pos x = true ↔
      ∃ o ∈ copyOffsets (copyMode nusiz), ∃ k < 8,
        widthMultiplier (copyMode nusiz) * k ≤ columnsRight x pos o
          ∧ columnsRight x pos o < widthMultiplier (copyMode nusiz) * (k + 1)
          ∧ g.getLsbD (if refp.getLsbD 3 = true then k else 7 - k) = true := by
  simp only [playerBit, List.any_eq_true, Bool.and_eq_true, decide_eq_true_eq, ← apply_ite g.getLsbD,
    bit_over_column (widthMultiplier_pos _) _ fun k => g.getLsbD (if refp.getLsbD 3 = true then k else 7 - k) = true]

theorem missileBit_iff (enam resmp nusiz : Byte) (pos x : Nat) :
    missileBit enam resmp nusiz pos x = true ↔
      enam.getLsbD 1 = true ∧ resmp.getLsbD 1 = false
        ∧ ∃ o ∈ copyOffsets (copyMode nusiz), columnsRight x pos o < objectWidth nusiz := by
  simp [missileBit, and_assoc]

theorem ballBit_iff (v : Video) (x : Nat) :
    ballBit v x = true ↔
      (if v.regs.vdelbl.getLsbD 0 = true then v.enablOld else v.enablNew) = true
        ∧ columnsRight x v.posBL 0 < objectWidth v.regs.ctrlpf := by
  rw [ballBit, Bool.and_eq_true, decide_eq_true_iff]

theorem objectWidth_eq (r : Byte) : objectWidth r = 2 ^ (r.toNat / 16 % 4) := by
  rw [objectWidth, BitVec.toNat_and, BitVec.toNat_ushiftRight, Nat.shiftRight_eq_div_pow]
  exact congrArg (2 ^ ·) (Nat.and_two_pow_sub_one_eq_mod _ 2)

/-- Settles O47: the columns of the playfield by its three registers, and each object's bit by its copies, columns and
width put in numbers. -/
theorem objectBits : Obligations.ObjectBits := by
  unfold Obligations.ObjectBits
  refine ⟨fun r x hx => ⟨fun hd => playfieldBit_repeated r hd hx, fun hd => playfieldBit_reflected r hd hx,
    playfieldBit_pf0 r, playfieldBit_pf1 r, fun h => playfieldBit_pf2 r h hx⟩, fun v x => ?_⟩
  intro g copies scale right within player missile
  have htable (nusiz : Byte) :
      copyOffsets (copyMode nusiz) = copies nusiz ∧ widthMultiplier (copyMode nusiz) = scale nusiz := by
    rw [copyMode_eq]
    exact copies_table _ (Nat.mod_lt _ (by decide))
  have hright (pos o : Nat) : right pos o = columnsRight x pos o := (columnsRight_cast x pos o).symm
  have hle (n pos o : Nat) : n ≤ columnsRight x pos o ↔ (n : Int) ≤ right pos o := by rw [hright, Int.ofNat_le]
  have hlt (n pos o : Nat) : columnsRight x pos o < n ↔ right pos o < (n : Int) := by rw [hright, Int.ofNat_lt]
  have hwithin (width : Byte) (pos o : Nat) : columnsRight x pos o < objectWidth width ↔ within width pos o := by
    rw [hlt, objectWidth_eq, Int.natCast_pow]
    rfl
  have hplayer (graphics nusiz refp : Byte) (pos : Nat) :
      playerBit graphics nusiz refp pos x = true ↔ player graphics nusiz refp pos := by
    rw [playerBit_iff, (htable nusiz).1, (htable nusiz).2]
    simp only [hle, hlt]
    rfl
  have hmissile (enam resmp nusiz : Byte) (pos : Nat) :
      missileBit enam resmp nusiz pos x = true ↔ missile enam resmp nusiz pos := by
    rw [missileBit_iff, (htable nusiz).1]
    simp only [hwithin]
    rfl
  refine ⟨rfl, hplayer _ _ _ _, hplayer _ _ _ _, hmissile _ _ _ _, hmissile _ _ _ _, ?_⟩
  rw [← hwithin]
  exact ballBit_iff v x

/-! ## Audio -/

theorem toneOf_eq (cfg : Config) (audc audf audv : Byte) :
    toneOf cfg audc audf audv =
      if audv.toNat = 0 ∨ audc.toNat = 0 then none
      else some ⟨cfg.audioBaseClock, (audf.toNat + 1) * cfg.audioDivisor.getD audc.toNat 0, audv.toNat⟩ := by
  have hzero (b : Byte) : b = 0 ↔ b.toNat = 0 := ⟨fun h => h ▸ rfl, fun h => BitVec.eq_of_toNat_eq h⟩
  simp only [toneOf, hzero]

/-- Settles O48: both channels are `toneOf`, which reads the base clock and the divisors of the configuration only. -/
theorem audioOutput : Obligations.AudioOutput := by
  unfold Obligations.AudioOutput
  refine ⟨fun cfg v => ⟨?_, ?_, fun on channel => rfl⟩, rfl, rfl, fun v hc hf hv => ?_⟩
  · exact (if_pos rfl).trans (toneOf_eq cfg _ _ _)
  · exact (if_neg (by decide)).trans (toneOf_eq cfg _ _ _)
  · rw [audioTone, if_pos rfl, hc, hf, hv]
    rfl

end Sys2Proof.Machine
end

section
/-! SUPPORT. The settled statements about the orchestrator (45_orchestrator.md): the time of one tick, the beam in step
with the cycle count, the end of a WSYNC halt, and the budgeted runs. -/

namespace Sys2Proof.Machine

/-! ## What the CPU's work leaves to the end of the tick -/

/-- `u` has the mode, the configuration, the cycle count and the budget of `s`. -/
def SameClock (s u : State) : Prop :=
  u.mode = s.mode ∧ u.cfg = s.cfg ∧ u.totalCycles = s.totalCycles ∧ u.budgetTarget = s.budgetTarget

theorem sameClock_refl (s : State) : SameClock s s := ⟨rfl, rfl, rfl, rfl⟩

/-- No work of the CPU counts cycles; only the end of the tick does (45_orchestrator.md R506). -/
theorem sameClock_closed (s : State) (n : Nat) : Closed n (SameClock s) where
  read _ _ hu := hu
  write k _ _ addr b u := fun ⟨hmode, hcfg, htotal, hbudget⟩ => by
    refine ⟨?_, ?_, ?_, ?_⟩ <;> simpa
  regs _ _ _ _ _ _ _ _ hu := hu
  jam _ hu := hu

/-! ## The tick of simple mode and the halted tick -/

theorem breadboardTarget_ne_video (map : List MapRange) (n : Nat) (w : Word) : breadboardTarget map n ≠ .video w := by
  unfold breadboardTarget
  split
  next r _ => cases h : r.target <;> simp [mapTarget]
  next => simp

/-- Only the console has a video window (20_memory.md R110, R118). -/
theorem target_ne_video {s : State} (h : s.mode ≠ .console) (addr w : Word) : s.target addr ≠ .video w := by
  unfold State.target busTarget
  split
  · exact breadboardTarget_ne_video _ _ _
  · simp
  · contradiction

theorem busWrite_video_simple {s : State} (h : s.mode ≠ .console) (k : Nat) (addr : Word) (b : Byte) :
    (busWrite k addr b s).video = s.video := by
  rw [busWrite_video]
  unfold videoAfterStore
  split
  next w hw => exact absurd hw (target_ne_video h addr w)
  all_goals rfl

/-- In simple mode the CPU's work leaves the video engine alone as well. -/
theorem sameVideo_closed {s : State} (h : s.mode ≠ .console) (n : Nat) :
    Closed n fun u => SameClock s u ∧ u.video = s.video where
  read _ _ hu := hu
  write k h₁ hn addr b u := fun ⟨hclock, hvideo⟩ =>
    ⟨(sameClock_closed s n).write k h₁ hn addr b u hclock,
      (busWrite_video_simple (hclock.1 ▸ h) k addr b).trans hvideo⟩
  regs _ _ _ _ _ _ _ _ hu := hu
  jam _ hu := hu

theorem dual_eq_false {s : State} (h : s.mode ≠ .console) : s.dual = false := by
  simpa [State.dual] using h

/-- A halted tick is one cycle without the CPU (R504). -/
theorem step_halted {s : State} (h : halted s = true) : step s = .next (elapse 1 s) := by
  simp [step, h, haltedTick]

/-- Settles O50: in simple mode no tick is halted, the work of the CPU keeps clock and video (`sameVideo_closed`), and
`elapse` adds the reported cycles; a halted tick is `elapse 1` of the state itself. -/
theorem tickTime : Obligations.TickTime := by
  unfold Obligations.TickTime
  refine ⟨fun s hmode => ?_, fun s hmode hhalt => ?_⟩
  · obtain ⟨t, hstep⟩ := step_next s
    have hdual := dual_eq_false hmode
    obtain ⟨n, u, rfl, ⟨hh, -, -⟩ | ⟨-, rfl⟩, hall⟩ := step_work hstep
    · simp [halted, hdual] at hh
    · obtain ⟨⟨hm, -, htotal, -⟩, hvideo⟩ :=
        hall _ (sameVideo_closed hmode _) (fun _ hv => hv) ⟨sameClock_refl s, rfl⟩
      refine ⟨_, hstep, ?_, ?_, u.events, ?_⟩
      · simp [elapse_video, dual_eq_false (hm ▸ hmode), hvideo]
      · simp [htotal]
      · simp
  · have hdual : s.dual = true := by simp [State.dual, hmode]
    rw [step_halted (by simp [halted, hdual, hhalt])]
    simp [elapse, periphClock, hdual]

/-! ## The beam and the cycle count -/

/-- The beam is inside its line and in step with the cycle count. -/
def BeamInStep (s : State) : Prop := s.video.h < s.cfg.lineCc ∧ s.clockAgrees

/-- A store reaches the engine through its queue alone, so it leaves the beam. -/
theorem busWrite_video_h (k : Nat) (addr : Word) (b : Byte) (s : State) :
    (busWrite k addr b s).video.h = s.video.h := by
  rw [busWrite_video]
  unfold videoAfterStore
  cases s.target addr <;> rfl

theorem beamInStep_closed (n : Nat) : Closed n BeamInStep where
  read _ _ hu := hu
  write k _ _ addr b u hu := by
    simpa [BeamInStep, State.clockAgrees, State.dual, busWrite_video_h] using hu
  regs _ _ _ _ _ _ _ _ hu := hu
  jam _ hu := hu

/-- `n` cycles move the beam of a dual machine by `3 n` columns modulo the line (R503), and no other beam. -/
theorem elapse_beamInStep (n : Nat) {s : State} (h : BeamInStep s) : BeamInStep (elapse n s) := by
  obtain ⟨hline, hclock⟩ := h
  unfold BeamInStep State.clockAgrees
  rw [elapse_cfg, elapse_dual, elapse_totalCycles, elapse_video]
  cases hdual : s.dual with
  | false => simpa using hline
  | true =>
    rw [if_pos rfl, videoSteps_h _ _ hline]
    refine ⟨Nat.mod_lt _ (by omega), fun _ => ?_⟩
    rw [hclock hdual, Nat.mod_add_mod, Nat.mul_add]

theorem hostReset_totalCycles {s t : State} (h : hostReset s = .next t) : t.totalCycles = 0 := by
  unfold hostReset at h
  split at h
  · cases h
  · cases h
    rfl

/-- Settles O54: `BeamInStep` is kept by all the CPU can do and by the passing of time, hence by every step; after a
reset beam and count are 0. -/
theorem clockRatio : Obligations.ClockRatio := by
  unfold Obligations.ClockRatio
  refine ⟨fun s t hstep hline hclock => ?_, fun s t hreset _ => ?_⟩
  · exact step_keeps (P := BeamInStep) beamInStep_closed (fun _ hv => hv) (fun n _ => elapse_beamInStep n) hstep
      ⟨hline, hclock⟩
  · rw [hostReset_video hreset, hostReset_totalCycles hreset]
    exact (Nat.zero_mod _).symm

/-! ## The color clocks of a WSYNC halt -/

theorem applyReg_wsyncHalt (cfg : Config) (r : VReg) (b : Byte) {v : Video} (h : v.wsyncHalt = true) :
    (applyReg cfg r b v).wsyncHalt = true := by
  cases r with
  | vsync =>
    simp only [applyReg, applyVsync]
    split_ifs <;> exact h
  | wsync => rfl
  | _ => exact h

/-- No write ends a halt. -/
theorem applyWrite_wsyncHalt (cfg : Config) (v : Video) (w : PendingWrite) (h : v.wsyncHalt = true) :
    (applyWrite cfg v w).wsyncHalt = true := by
  unfold applyWrite
  split
  · exact applyReg_wsyncHalt cfg _ _ h
  · exact h

section
variable {cfg : Config} {v : Video}

/-- A color clock that does not end the line keeps the halt, whatever writes become due in it. -/
theorem videoStep_wsyncHalt (h : v.wsyncHalt = true) (hin : v.h + 1 ≠ cfg.lineCc) :
    (videoStep cfg v).wsyncHalt = true := by
  have hqueue : (phaseQueue cfg v).wsyncHalt = true :=
    phaseQueue_keeps (Q := fun u => u.wsyncHalt = true) (fun _ _ hu => hu) (applyWrite_wsyncHalt cfg) h
  obtain ⟨fb, cx, heq⟩ := finishClock_inLine (cfg := cfg) (u := phaseQueue cfg v) (by rwa [phaseQueue_h])
  rw [videoStep_eq_finishClock, heq]
  exact hqueue

theorem videoSteps_wsyncHalt (n : Nat) {v : Video} (h : v.wsyncHalt = true) (hin : v.h + n < cfg.lineCc) :
    (videoSteps cfg n v).wsyncHalt = true := by
  induction n generalizing v with
  | zero => exact h
  | succ n ih =>
    have hne : v.h + 1 ≠ cfg.lineCc := by omega
    refine ih (videoStep_wsyncHalt h hne) ?_
    rw [videoStep_h, if_neg hne]
    omega

/-- The color clock that ends the line leaves the beam at its start and no halt (44_video_engine.md R410, R441). -/
theorem videoSteps_lineEnd {n : Nat} (hn : 0 < n) (h : v.h + n = cfg.lineCc) :
    (videoSteps cfg n v).h = 0 ∧ (videoSteps cfg n v).wsyncHalt = false := by
  obtain ⟨m, rfl⟩ := Nat.exists_eq_add_one.mpr hn
  have hlast : (videoSteps cfg m v).h + 1 = cfg.lineCc := by
    rw [videoSteps_h cfg m (by omega), Nat.mod_eq_of_lt (by omega)]
    exact h
  rw [videoSteps_add]
  exact ⟨(videoStep_h cfg _).trans (if_pos hlast), (videoStep_wrap hlast).1⟩

end

/-! ## A run of halted ticks -/

theorem run_succ {s t : State} (h : step s = .next t) (k : Nat) :
    Host.Core.run core (k + 1) s = Host.Core.run core k t := by
  have hcore : core.step s = .next t := h
  simp only [Host.Core.run, hcore]

/-- `t` is `s` after `k` halted ticks: `3 k` color clocks and `k` cycles on, the CPU and memory untouched. -/
structure HaltedFor (k : Nat) (s t : State) : Prop where
  video       : t.video = videoSteps s.cfg (3 * k) s.video
  totalCycles : t.totalCycles = s.totalCycles + k
  cpu         : CpuIs t s.a s.x s.y s.sp s.pc s.p s.cycles
  bytes       : ∀ b, t.peek b = s.peek b

theorem HaltedFor.of_elapse {k : Nat} {s t : State} (hdual : s.dual = true) (h : HaltedFor k (elapse 1 s) t) :
    HaltedFor (k + 1) s t := by
  obtain ⟨hvideo, htotal, hcpu, hbytes⟩ := h
  refine ⟨?_, ?_, by simpa using hcpu, by simpa using hbytes⟩
  · rw [hvideo, elapse_video, if_pos hdual, elapse_cfg, ← videoSteps_add, Nat.mul_add, Nat.add_comm]
  · rw [htotal, elapse_totalCycles, Nat.add_assoc, Nat.add_comm 1]

/-- A halted machine runs halted ticks up to the end of the line. -/
theorem run_halted (k : Nat) {s : State} (hdual : s.dual = true) (hhalt : s.video.wsyncHalt = true)
    (hin : s.video.h + 3 * k ≤ s.cfg.lineCc) : ∃ t, Host.Core.run core k s = .next t ∧ HaltedFor k s t := by
  induction k generalizing s with
  | zero => exact ⟨s, rfl, rfl, rfl, cpuIs_refl s, fun _ => rfl⟩
  | succ k ih =>
    rw [run_succ (step_halted (by simp [halted, hdual, hhalt]))]
    cases k with
    | zero => exact ⟨_, rfl, .of_elapse hdual ⟨rfl, rfl, cpuIs_refl _, fun _ => rfl⟩⟩
    | succ k =>
      have hvideo : (elapse 1 s).video = videoSteps s.cfg 3 s.video := by rw [elapse_video, if_pos hdual]
      obtain ⟨t, hrun, hfor⟩ := ih (s := elapse 1 s) (by rwa [elapse_dual])
        (by rw [hvideo]; exact videoSteps_wsyncHalt 3 hhalt (by omega))
        (by rw [hvideo, elapse_cfg, videoSteps_h _ _ (by omega), Nat.mod_eq_of_lt (by omega)]; omega)
      exact ⟨t, hrun, hfor.of_elapse hdual⟩

theorem lineCc_mod {cfg : Config} (h : validConfig cfg = true) : cfg.lineCc % 3 = 0 := by
  simp only [validConfig, Bool.and_eq_true, beq_iff_eq] at h
  obtain ⟨⟨⟨⟨-, hmod⟩, -⟩, -⟩, -⟩ := h
  exact hmod

/-- A beam in step with the cycle count is a whole number of cycles from the end of its line. -/
theorem three_dvd_columnsLeft {s : State} (hcfg : validConfig s.cfg = true) (hdual : s.dual = true) (h : s.clockAgrees) :
    3 ∣ s.cfg.lineCc - s.video.h := by
  have hline : 3 ∣ s.cfg.lineCc := Nat.dvd_of_mod_eq_zero (lineCc_mod hcfg)
  refine Nat.dvd_sub hline ?_
  rw [h hdual, Nat.dvd_mod_iff hline]
  exact Nat.dvd_mul_right 3 _

/-- Settles O55: up to the end of the line the run is one of halted ticks (`run_halted`), so the video engine alone
decides: its color clocks keep the halt inside the line (`videoSteps_wsyncHalt`), and the last one ends it
(`videoSteps_lineEnd`). -/
theorem wsyncReleasesAtLineStart : Obligations.WsyncReleasesAtLineStart := by
  unfold Obligations.WsyncReleasesAtLineStart
  intro s hmode hcfg hline hclock hhalt n
  have hdual : s.dual = true := by simp [State.dual, hmode]
  have hn : 3 * n = s.cfg.lineCc - s.video.h := Nat.mul_div_cancel' (three_dvd_columnsLeft hcfg hdual hclock)
  refine ⟨?_, fun k hk => ?_⟩
  · obtain ⟨t, hrun, hvideo, htotal, hcpu, hbytes⟩ := run_halted n hdual hhalt (by omega)
    obtain ⟨hh, hreleased⟩ := videoSteps_lineEnd (cfg := s.cfg) (v := s.video) (n := 3 * n) (by omega) (by omega)
    exact ⟨t, hrun, hvideo ▸ hh, hvideo ▸ hreleased, htotal, hcpu, hbytes⟩
  · obtain ⟨t, hrun, hfor⟩ := run_halted k hdual hhalt (by omega)
    exact ⟨t, hrun, by rw [hfor.video]; exact videoSteps_wsyncHalt _ hhalt (by omega)⟩

/-! ## The cycles of a step -/

/-- A cost that is at least 1 and, with its extra, at most 8. -/
def ShortCost (cost : Nat × Nat) : Prop := 1 ≤ cost.1 ∧ cost.1 + cost.2 ≤ 8

theorem memReadCost_short (m : MemMode) : ShortCost (memReadCost m) := by
  cases m <;> simp [ShortCost, memReadCost, readCycles, crossExtra]

theorem readCost_short (o : ReadOperand) : ShortCost (readCost o) := by
  cases o with
  | imm v => simp [ShortCost, readCost]
  | mem m => exact memReadCost_short m

theorem storeCycles_short (m : MemMode) : ShortCost (storeCycles m, 0) := by
  cases m <;> simp [ShortCost, storeCycles]

theorem modifyCycles_short (m : MemMode) : ShortCost (modifyCycles m, 0) := by
  cases m <;> simp [ShortCost, modifyCycles]

theorem modifyCost_short (o : ModifyOperand) : ShortCost (modifyCost o) := by
  cases o with
  | acc => simp [ShortCost, modifyCost]
  | mem m => exact modifyCycles_short m

theorem nopCost_short (f : NopForm) : ShortCost (nopCost f) := by
  cases f with
  | imp k | imm k v => simp [ShortCost, nopCost]
  | zp k z | zpx k z | abs a | abx k a => exact memReadCost_short _

/-- No instruction of the cost column takes less than 1 cycle or more than 8 (30_encoding.md R179). -/
theorem instrCost_short (i : Instr) (hjam : ∀ k, i ≠ .jam k) : ShortCost (instrCost i) := by
  cases i with
  | lda o | ldx o | ldy o | adc o | sbc o | and o | ora o | eor o | cmp o | cpx o | cpy o => exact readCost_short o
  | bit m | lax m => exact memReadCost_short m
  | las a => exact memReadCost_short (.aby a)
  | sta m | stx m | sty m | sax m | sha m => exact storeCycles_short m
  | inc m | dec m | slo m | rla m | sre m | rra m | dcp m | isc m => exact modifyCycles_short m
  | asl o | lsr o | rol o | ror o => exact modifyCost_short o
  | jmp t => cases t <;> simp [ShortCost, instrCost, jumpCost]
  | nop f => exact nopCost_short f
  | jam k => exact absurd rfl (hjam k)
  | _ => simp [ShortCost, instrCost, storeCycles]

/-- What one tick can take: `JAM_CYCLES`, or 1 to 8 cycles. -/
def TickCost (cfg : Config) (n : Nat) : Prop := n = cfg.jamCycles ∨ 1 ≤ n ∧ n ≤ 8

theorem exec_tickCost {i : Instr} {s t : State} (h : exec i s = .next t) : TickCost s.cfg t.cycles := by
  by_cases hjam : ∃ k, i = .jam k
  · obtain ⟨k, rfl⟩ := hjam
    cases h
    exact .inl rfl
  · obtain ⟨u, hu, hlow, hhigh⟩ := exec_within i s (not_exists.mp hjam)
    obtain ⟨hone, height⟩ := instrCost_short i (not_exists.mp hjam)
    cases hu.symm.trans h
    exact .inr ⟨hone.trans hlow, hhigh.trans height⟩

/-- Every step is the passing of the cycles of one tick after work that left clock and budget alone. -/
theorem step_elapses {s t : State} (h : step s = .next t) :
    ∃ n u, t = elapse n u ∧ SameClock s u ∧ TickCost s.cfg n := by
  have hclosed := sameClock_closed s
  rcases step_cases h with ⟨-, rfl⟩ | ⟨-, int, -, rfl⟩ | ⟨-, -, u, hu, rfl⟩
  · exact ⟨1, s, rfl, sameClock_refl s, .inr (by decide)⟩
  · refine ⟨7, takeInterrupt s int, ?_, ?_, .inr (by decide)⟩
    · cases int <;> rfl
    · cases int <;> exact (hclosed 7).enterInterrupt _ _ _ (Nat.le_refl 7) (sameClock_refl s)
  · obtain ⟨hmode, hcfg, hcounts⟩ : SameClock s (fetch s).2 := (hclosed 0).fetch (sameClock_refl s)
    exact ⟨u.cycles, u, rfl, exec_keeps hclosed hu ⟨hmode, hcfg, hcounts⟩, hcfg ▸ exec_tickCost hu⟩

/-- With a `JAM_CYCLES` of 1 to 8 every step takes 1 to 8 cycles. -/
theorem step_time {s t : State} (hpos : 0 < s.cfg.jamCycles) (hjam : s.cfg.jamCycles ≤ 8) (h : step s = .next t) :
    t.cfg = s.cfg ∧ t.budgetTarget = s.budgetTarget
      ∧ s.totalCycles + 1 ≤ t.totalCycles ∧ t.totalCycles ≤ s.totalCycles + 8 := by
  obtain ⟨n, u, rfl, ⟨-, hcfg, htotal, hbudget⟩, hcost⟩ := step_elapses h
  have hn : 1 ≤ n ∧ n ≤ 8 := by
    rcases hcost with rfl | hn
    · exact ⟨hpos, hjam⟩
    · exact hn
  rw [elapse_cfg, elapse_budgetTarget, elapse_totalCycles]
  exact ⟨hcfg, hbudget, by omega, by omega⟩

/-! ## Budgeted runs -/

theorem jamCycles_pos {cfg : Config} (h : validConfig cfg = true) : 0 < cfg.jamCycles := by
  simp only [validConfig, Bool.and_eq_true, decide_eq_true_eq] at h
  obtain ⟨-, hjam⟩ := h
  exact hjam

/-- A run to a target, within a bound no less than the missing cycles, is a run of whole steps that ends at the target
or at most 7 cycles past it: every step takes a cycle, and the last one, begun before the target, at most 8 (R507). -/
theorem runUntil_spec (fuel target : Nat) {s : State} (hpos : 0 < s.cfg.jamCycles) (hjam : s.cfg.jamCycles ≤ 8)
    (hfuel : target ≤ s.totalCycles + fuel) (hover : s.totalCycles ≤ target + 7) :
    ∃ t, runUntil fuel target s = .next t ∧ t.cfg = s.cfg ∧ t.budgetTarget = s.budgetTarget
      ∧ target ≤ t.totalCycles ∧ t.totalCycles ≤ target + 7 ∧ ∃ steps, Host.Core.run core steps s = .next t := by
  induction fuel generalizing s with
  | zero => exact ⟨s, rfl, rfl, rfl, hfuel, hover, 0, rfl⟩
  | succ fuel ih =>
    unfold runUntil
    by_cases hlt : s.totalCycles < target
    · obtain ⟨u, hu⟩ := step_next s
      obtain ⟨hcfg, hbudget, hone, height⟩ := step_time hpos hjam hu
      obtain ⟨t, hrun, htcfg, htbudget, hreached, hbound, steps, hsteps⟩ :=
        ih (s := u) (hcfg ▸ hpos) (hcfg ▸ hjam) (by omega) (by omega)
      rw [if_pos hlt, hu]
      exact ⟨t, hrun, htcfg.trans hcfg, htbudget.trans hbudget, hreached, hbound, steps + 1,
        (run_succ hu steps).trans hsteps⟩
    · rw [if_neg hlt]
      exact ⟨s, rfl, rfl, rfl, Nat.le_of_not_lt hlt, hover, 0, rfl⟩

/-- A budgeted run keeps the cycle count within 7 of the budget, from a count within 7 of the budget. -/
theorem runBudget_spec {s : State} (n : Nat) (hcfg : validConfig s.cfg = true) (hjam : s.cfg.jamCycles ≤ 8)
    (hover : s.totalCycles ≤ s.budgetTarget + 7) :
    ∃ t, runBudget n s = .next t ∧ t.cfg = s.cfg ∧ t.budgetTarget = s.budgetTarget + n
      ∧ s.budgetTarget + n ≤ t.totalCycles ∧ t.totalCycles ≤ s.budgetTarget + n + 7
      ∧ ∃ steps, Host.Core.run core steps { s with budgetTarget := s.budgetTarget + n } = .next t :=
  runUntil_spec (s := { s with budgetTarget := s.budgetTarget + n }) _ _ (jamCycles_pos hcfg) hjam
    (by dsimp only; omega) (by dsimp only; omega)

/-- Settles O56: both parts are `runBudget_spec`; the run of a frame is the budgeted run of the frame's cycles. -/
theorem budgetedRuns : Obligations.BudgetedRuns := by
  unfold Obligations.BudgetedRuns
  refine ⟨fun s n hcfg hjam _ hover => ?_, ?_⟩
  · obtain ⟨t, hrun, htcfg, hbudget, hreached, hbound, hsteps⟩ := runBudget_spec n hcfg hjam hover
    exact ⟨t, hrun, hbudget, htcfg, hbudget ▸ hreached, hbudget ▸ hbound, hsteps⟩
  · intro s k line frame
    refine ⟨rfl, rfl, fun hline hlines => ?_, fun hline hlines => ?_, fun hcfg hjam hk _ hover => ?_⟩
    · simp only [frame, line, hline, hlines]
    · simp only [frame, line, hline, hlines]
    · obtain ⟨t, hrun, htcfg, hbudget, hreached, hbound, -⟩ := runBudget_spec frame hcfg hjam (by omega)
      rw [hk, ← Nat.mul_succ] at hbudget hreached hbound
      exact ⟨t, hrun, htcfg, hbudget, hreached, hbound⟩

end Sys2Proof.Machine
end

section
/-! SUPPORT. The settled statements about exceptions (60_exceptions.md): the return from an interrupt and from a
subroutine, the interrupt check of a step, and what every step keeps. -/

namespace Sys2Proof.Machine

/-! ## Stack slots -/

section
variable {s u : State} (h : MachineFrame s u)
include h

theorem MachineFrame.target (b : Word) : u.target b = s.target b := by
  rw [State.target, State.target, h.mode, h.cfg]

theorem MachineFrame.writable (b : Word) : u.writable b = s.writable b := by
  rw [State.writable, State.writable, h.target]

end

theorem stackAddr_injective {q r : Byte} (h : stackAddr q = stackAddr r) : q = r := by
  simpa [stackAddr] using congrArg loByte h

/-- The console has RAM behind the upper half of the stack page, and the video window behind the lower half. -/
theorem consoleTarget_stackAddr (r : Byte) :
    consoleTarget (stackAddr r) =
      if r.toNat / 128 = 0 then .video (BitVec.ofNat 16 (0x100 + r.toNat)) else .consoleRam (r.toNat - 128) := by
  have hr := r.isLt
  have haddr : (stackAddr r).toNat = 0x100 + r.toNat := by
    rw [stackAddr_eq_ofNat, BitVec.toNat_ofNat]
    omega
  rw [consoleTarget_eq, haddr, if_neg (by omega)]
  by_cases hlow : r.toNat / 128 = 0
  · rw [if_pos (by omega), if_pos hlow, Nat.mod_eq_of_lt (by omega)]
  · rw [if_neg (by omega), if_pos (by omega), if_neg hlow, show (0x100 + r.toNat) % 128 = r.toNat - 128 by omega]

/-- Only the console has a RAM of its own (20_memory.md R119). -/
theorem mode_of_consoleRam {s : State} {a : Word} {i : Nat} (h : s.target a = .consoleRam i) : s.mode = .console := by
  cases hmode : s.mode with
  | console => rfl
  | flatTest => rw [target_flatTest hmode] at h; cases h
  | breadboard =>
    rw [target_breadboard hmode, breadboardTarget] at h
    split at h
    next r _ => cases htarget : r.target <;> simp [htarget, mapTarget] at h
    next => cases h

/-- Two stack slots with RAM behind them are two cells. -/
theorem stackSlot_injective {s : State} {q r : Byte} (hw : s.writable (stackAddr r) = true)
    (h : s.target (stackAddr r) = s.target (stackAddr q)) : r = q := by
  cases ht : s.target (stackAddr r) with
  | memory i w =>
    exact stackAddr_injective
      (BitVec.eq_of_toNat_eq ((target_memory ht).symm.trans (target_memory (h.symm.trans ht))))
  | consoleRam i =>
    have hhigh (p : Byte) (hp : s.target (stackAddr p) = .consoleRam i) : p.toNat = i + 128 := by
      rw [target_console (mode_of_consoleRam ht), consoleTarget_stackAddr] at hp
      split at hp
      · cases hp
      · have := Target.consoleRam.inj hp
        omega
    exact BitVec.eq_of_toNat_eq ((hhigh r ht).trans (hhigh q (h.symm.trans ht)).symm)
  | cartridge i | video a | peripheral p o => simp [State.writable, ht] at hw

/-- A store at one stack slot leaves the byte of another slot with RAM behind it. -/
theorem OneStore.peek_slot {k : Nat} {q r : Byte} {v : Byte} {u t : State} (h : OneStore k (stackAddr q) v u t)
    (hw : u.writable (stackAddr r) = true) (hne : r ≠ q) : t.peek (stackAddr r) = u.peek (stackAddr r) :=
  h.elsewhere _ fun htarget => hne (stackSlot_injective hw htarget)

/-! ## Entry and return -/

/-- Behind plain memory, a read returns the byte there whatever has been read since. -/
theorem busRead_byte_of_peek {addr : Word} {s : State} {v : Byte} (h : s.peek addr = some v) (u : State)
    (hu : u.peek addr = s.peek addr) : (busRead addr u).1 = v := by
  rw [busRead_of_peek (hu.trans h)]

/-- RTI with plain memory behind the three slots above S. -/
theorem rti_of_peek {s : State} {st lo hi : Byte} (hst : s.peek (stackAddr (s.sp + 1)) = some st)
    (hlo : s.peek (stackAddr (s.sp + 2)) = some lo) (hhi : s.peek (stackAddr (s.sp + 3)) = some hi) :
    ∃ t, exec .rti s = .next t ∧ CpuIs t s.a s.x s.y (s.sp + 3) (wordOf lo hi) (loadStatus st) 6 := by
  obtain ⟨-, -, hreturn⟩ := returnResults
  obtain ⟨-, t, hexec, hcpu, -⟩ := hreturn s
  rw [busRead_byte_of_peek hst s rfl, busRead_byte_of_peek hlo (busRead _ s).2 rfl,
    busRead_byte_of_peek hhi (busRead _ (busRead _ s).2).2 rfl] at hcpu
  exact ⟨t, hexec, hcpu⟩

/-- RTS with plain memory behind the two slots above S. -/
theorem rts_of_peek {s : State} {lo hi : Byte} (hlo : s.peek (stackAddr (s.sp + 1)) = some lo)
    (hhi : s.peek (stackAddr (s.sp + 2)) = some hi) :
    ∃ t, exec .rts s = .next t ∧ CpuIs t s.a s.x s.y (s.sp + 2) (wordOf lo hi + 1) s.p 6 := by
  obtain ⟨-, -, hreturn⟩ := returnResults
  obtain ⟨⟨t, hexec, hcpu, -⟩, -⟩ := hreturn s
  rw [busRead_byte_of_peek hlo s rfl, busRead_byte_of_peek hhi (busRead _ s).2 rfl] at hcpu
  exact ⟨t, hexec, hcpu⟩

section
variable {s : State} (hw₀ : s.writable (stackAddr s.sp) = true) (hw₁ : s.writable (stackAddr (s.sp - 1)) = true)
include hw₀ hw₁

/-- RTI at the state an entry leaves (60_exceptions.md R543, R548). -/
theorem rti_after_entry (hw₂ : s.writable (stackAddr (s.sp - 2)) = true) (vector ret : Word) (b : Bool) :
    ∃ t, exec .rti (enterInterrupt vector b ret s) = .next t
      ∧ CpuIs t s.a s.x s.y s.sp ret { s.p with b := b } 6 := by
  obtain ⟨u₁, u₂, u₃, hstore₁, hstore₂, hstore₃, hframe₁, hframe₂, -, -, hcpu, -, hkept, -⟩ :=
    enterInterrupt_interruptEntry vector b ret s
  generalize enterInterrupt vector b ret s = e at hcpu hkept ⊢
  have hst : e.peek (stackAddr (s.sp - 2)) = some (statusByte s.p b) :=
    (hkept.bytes _).trans (hstore₃.here (by rwa [hframe₂.writable]))
  have hlo : e.peek (stackAddr (s.sp - 1)) = some (loByte ret) :=
    calc e.peek (stackAddr (s.sp - 1))
        = u₃.peek (stackAddr (s.sp - 1)) := hkept.bytes _
      _ = u₂.peek (stackAddr (s.sp - 1)) := hstore₃.peek_slot (by rwa [hframe₂.writable]) (by bv_omega)
      _ = some (loByte ret) := hstore₂.here (by rwa [hframe₁.writable])
  have hhi : e.peek (stackAddr s.sp) = some (hiByte ret) :=
    calc e.peek (stackAddr s.sp)
        = u₃.peek (stackAddr s.sp) := hkept.bytes _
      _ = u₂.peek (stackAddr s.sp) := hstore₃.peek_slot (by rwa [hframe₂.writable]) (by bv_omega)
      _ = u₁.peek (stackAddr s.sp) := hstore₂.peek_slot (by rwa [hframe₁.writable]) (by bv_omega)
      _ = some (hiByte ret) := hstore₁.here hw₀
  have hone : e.sp + 1 = s.sp - 2 := by rw [hcpu.sp_eq]; bv_omega
  have htwo : e.sp + 2 = s.sp - 1 := by rw [hcpu.sp_eq]; bv_omega
  have hthree : e.sp + 3 = s.sp := by rw [hcpu.sp_eq]; bv_omega
  rw [← hone] at hst
  rw [← htwo] at hlo
  obtain ⟨t, hexec, hback⟩ := rti_of_peek hst hlo (hthree ▸ hhi)
  rw [hcpu.a_eq, hcpu.x_eq, hcpu.y_eq, hthree, wordOf_bytes, loadStatus_statusByte] at hback
  exact ⟨t, hexec, hback⟩

/-- RTS at the state a JSR leaves (42_control.md R310, R311). -/
theorem rts_after_jsr (target : Word) :
    ∃ u t, exec (.jsr target) s = .next u ∧ exec .rts u = .next t ∧ CpuIs t s.a s.x s.y s.sp s.pc s.p 6 := by
  obtain ⟨-, hcall⟩ := callResult
  obtain ⟨u, e, hjsr, hcpu, -, hframe, hstore₁, hstore₂⟩ := hcall s target
  have hlo : e.peek (stackAddr (s.sp - 1)) = some (loByte (s.pc - 1)) := hstore₂.here (by rwa [hframe.writable])
  have hhi : e.peek (stackAddr s.sp) = some (hiByte (s.pc - 1)) :=
    (hstore₂.peek_slot (by rwa [hframe.writable]) (by bv_omega)).trans (hstore₁.here hw₀)
  have hone : e.sp + 1 = s.sp - 1 := by rw [hcpu.sp_eq]; bv_omega
  have htwo : e.sp + 2 = s.sp := by rw [hcpu.sp_eq]; bv_omega
  rw [← hone] at hlo
  obtain ⟨t, hrts, hback⟩ := rts_of_peek hlo (htwo ▸ hhi)
  rw [hcpu.a_eq, hcpu.x_eq, hcpu.y_eq, hcpu.p_eq, htwo, wordOf_bytes, BitVec.sub_add_cancel] at hback
  exact ⟨e, t, hjsr, hrts, hback⟩

end

/-- Settles O28: the pulls find the bytes the pushes left, since the slots are different cells (`stackSlot_injective`);
the status byte gives the flags back by `loadStatus_statusByte`. -/
theorem returnUndoesEntry : Obligations.ReturnUndoesEntry := by
  unfold Obligations.ReturnUndoesEntry
  intro s hw₀ hw₁
  exact ⟨rti_after_entry hw₀ hw₁, rts_after_jsr hw₀ hw₁⟩

/-! ## The interrupt check -/

theorem pendingInterrupt_nmi {s : State} (hrun : s.jammed = false) (hnmi : s.nmiPending = true) :
    pendingInterrupt s = some .nmi := by
  simp [pendingInterrupt, hrun, hnmi]

theorem pendingInterrupt_irq {s : State} (hrun : s.jammed = false) (hnmi : s.nmiPending = false)
    (hirq : irqActive s = true) (hi : s.p.i = false) : pendingInterrupt s = some .irq := by
  simp [pendingInterrupt, hrun, hnmi, hirq, hi]

theorem pendingInterrupt_none {s : State} (hnmi : s.nmiPending = false)
    (hirq : irqActive s = false ∨ s.p.i = true) : pendingInterrupt s = none := by
  rcases hirq with hirq | hi
  · simp [pendingInterrupt, hnmi, hirq]
  · simp [pendingInterrupt, hnmi, hi]

/-- A step that takes an interrupt is its entry, and 7 cycles pass. -/
theorem step_of_interrupt {s : State} {int : Interrupt} (hh : halted s = false) (hp : pendingInterrupt s = some int) :
    step s = .next (elapse 7 (takeInterrupt s int)) := by
  have hcycles : (takeInterrupt s int).cycles = 7 := by cases int <;> rfl
  simp only [step, hh, hp, finishTick, hcycles, Bool.false_eq_true, if_false]

/-- Settles O49: the three cases are those of `pendingInterrupt`, and both entries are `enterInterrupt`. -/
theorem interruptCheck : Obligations.InterruptCheck := by
  unfold Obligations.InterruptCheck
  refine ⟨fun s => ⟨rfl, fun level => rfl⟩, fun s hh => ⟨fun hrun hnmi => ?_, ?_, fun hquiet => ?_⟩⟩
  · exact ⟨_, step_of_interrupt hh (pendingInterrupt_nmi hrun hnmi),
      enterInterrupt_interruptEntry nmiVector false s.pc _⟩
  · intro hrun hnmi hline hmode hi
    have hirq : irqActive s = true := by simp [irqActive, hline, hmode]
    exact ⟨_, step_of_interrupt hh (pendingInterrupt_irq hrun hnmi hirq hi),
      enterInterrupt_interruptEntry irqVector false s.pc s⟩
  · have hp : pendingInterrupt s = none := by
      rcases hquiet with hjam | ⟨hnmi, hline | hmode | hi⟩
      · exact pendingInterrupt_jammed hjam
      · exact pendingInterrupt_none hnmi (.inl (by simp [irqActive, hline]))
      · exact pendingInterrupt_none hnmi (.inl (by simp [irqActive, hmode]))
      · exact pendingInterrupt_none hnmi (.inr hi)
    obtain ⟨t, hexec⟩ := exec_next (fetch s).1 (fetch s).2
    exact ⟨t, hexec, step_of_exec hh hp hexec⟩

/-! ## What every step keeps -/

/-- What no step changes, and an NMI no step raises. -/
structure StepFrame (s t : State) : Prop where
  mode         : t.mode = s.mode
  rom          : t.rom = s.rom
  image        : t.image = s.image
  loaded       : t.loaded = s.loaded
  cfg          : t.cfg = s.cfg
  budgetTarget : t.budgetTarget = s.budgetTarget
  irqLine      : t.irqLine = s.irqLine
  nmiPending   : t.nmiPending = true → s.nmiPending = true

theorem stepFrame_refl (s : State) : StepFrame s s := ⟨rfl, rfl, rfl, rfl, rfl, rfl, rfl, id⟩

theorem stepFrame_closed (s : State) (n : Nat) : Closed n (StepFrame s) where
  read _ _ h := { h with }
  write _ _ _ _ _ _ h := by
    obtain ⟨hmode, hrom, himage, hloaded, hcfg, hbudget, hirq, hnmi⟩ := h
    constructor <;> simpa
  regs _ _ _ _ _ _ _ _ h := { h with }
  jam _ h := { h with }

theorem elapse_stepFrame (n : Nat) {s u : State} (h : StepFrame s u) : StepFrame s (elapse n u) := by
  obtain ⟨hmode, hrom, himage, hloaded, hcfg, hbudget, hirq, hnmi⟩ := h
  constructor <;> simpa

theorem step_stepFrame {s t : State} (h : step s = .next t) : StepFrame s t :=
  step_keeps (stepFrame_closed s) (fun _ hv => { hv with nmiPending := fun hn => absurd hn Bool.false_ne_true })
    (fun n _ => elapse_stepFrame n) h (stepFrame_refl s)

/-- The bytes of the cartridge are given by fields no step changes (20_memory.md R116). -/
theorem StepFrame.peek_cartridge {s t : State} (h : StepFrame s t) {a : Word} {i : Nat}
    (ha : s.target a = .cartridge i) : t.peek a = s.peek a := by
  have hta : t.target a = .cartridge i := by rwa [State.target, h.mode, h.cfg]
  simp only [State.peek, hta, ha, State.romByte, h.mode, h.loaded, h.rom]

/-- Settles O51: the kept fields are `StepFrame`, and the time of a step is what one tick can take (`step_elapses`). -/
theorem everyStepAnswers : Obligations.EveryStepAnswers := by
  unfold Obligations.EveryStepAnswers
  intro s
  obtain ⟨t, hstep⟩ := step_next s
  have hkept := step_stepFrame hstep
  obtain ⟨n, u, hu, ⟨-, -, htotal, -⟩, hcost⟩ := step_elapses hstep
  have htime : t.totalCycles = s.totalCycles + n := by rw [hu, elapse_totalCycles, htotal]
  refine ⟨t, hstep, hkept.mode, hkept.rom, hkept.image, hkept.loaded, hkept.cfg, hkept.budgetTarget, hkept.irqLine,
    hkept.nmiPending, fun a i => hkept.peek_cartridge, by omega, fun hjam => ?_⟩
  rcases hcost with rfl | ⟨hone, height⟩ <;> omega

end Sys2Proof.Machine
end

section
/-! SUPPORT. The settled statements about reset and hazards (70_reset_and_hazards.md): what a completed reset leaves, and
the pending-write queue empty between steps. -/

namespace Sys2Proof.Machine

/-! ## A completed reset -/

/-- What a completed reset answers: bus, video, CPU and orchestrator reset, in this order (70_reset_and_hazards.md R580). -/
def afterReset (s : State) : State := orchestratorReset (cpuReset (videoReset (busReset s)))

theorem hostReset_of_fits {s : State} (h : s.cfg.mode ≠ .console ∨ s.image.size ≤ 4096) :
    hostReset s = .next (afterReset s) :=
  if_neg fun ⟨hmode, hsize⟩ => h.elim (absurd hmode) (Nat.not_le_of_lt hsize)

theorem eq_afterReset {s t : State} (h : hostReset s = .next t) : t = afterReset s := by
  unfold hostReset at h
  split at h
  · cases h
  · exact (Host.Outcome.next.inj h).symm

/-! ## The legal states after a reset -/

/-- The engine's reset state is legal in every consistent configuration: column 0 lies in a line and line 0 in a frame. -/
theorem video_reset_wf {cfg : Config} (h : validConfig cfg = true) : Video.reset.wf cfg = true := by
  have hcolumn : 0 < cfg.lineCc := by simp [lineCc_eq h, visibleWidth]
  have hinside : Video.reset.inFrame cfg = true := by
    simp [Video.inFrame, Video.reset, hcolumn, frame_lines_pos h]
  simp only [Video.wf, hinside, Bool.true_and]
  rfl

/-- Settles O53: memory is as its loader left it (`hostReset_memory_wf`), and the engine is at its reset state
(`video_reset_wf`). -/
theorem legalStateHolds : Obligations.LegalStateHolds := by
  unfold Obligations.LegalStateHolds
  have hdefault : validConfig State.reset.cfg = true := by decide
  refine ⟨⟨hdefault, reset_memory_wf, video_reset_wf hdefault⟩, fun s t hreset => ⟨hostReset_memory_wf hreset, ?_⟩⟩
  intro hcfg
  cases eq_afterReset hreset
  exact video_reset_wf hcfg

/-! ## The reset vector -/

theorem read16_of_peek {a : Word} {s : State} {lo hi : Byte} (hlo : s.peek a = some lo)
    (hhi : s.peek (a + 1) = some hi) : (read16 a s).1 = wordOf lo hi := by
  rw [read16, busRead_byte_of_peek hlo s rfl, busRead_byte_of_peek hhi (busRead a s).2 rfl]

theorem wordOf_eq_zero_iff (lo hi : Byte) : wordOf lo hi = 0 ↔ lo = 0 ∧ hi = 0 := by
  constructor
  · intro h
    exact ⟨by rw [← loByte_wordOf lo hi, h]; rfl, by rw [← hiByte_wordOf lo hi, h]; rfl⟩
  · rintro ⟨rfl, rfl⟩
    rfl

/-- PC after a CPU reset whose vector lies in plain memory (R583, R584). -/
theorem cpuReset_pc {u : State} {lo hi : Byte} (hlo : u.peek resetVector = some lo)
    (hhi : u.peek (resetVector + 1) = some hi) :
    (cpuReset u).pc = if lo = 0 ∧ hi = 0 then fallbackEntry u.cfg u.mode else wordOf lo hi := by
  have hvector : (read16 resetVector (registerReset u)).1 = wordOf lo hi := read16_of_peek hlo hhi
  simp only [← wordOf_eq_zero_iff, ← hvector]
  rfl

/-- Settles O59: every field is read off `afterReset`; PC is that of the CPU reset (`cpuReset_pc`), and the
vector it read stands behind the same addresses afterwards, since a read stores nothing. -/
theorem hostResetResults : Obligations.HostResetResults := by
  unfold Obligations.HostResetResults
  refine fun s => ⟨hostReset_refused, fun hfits => ⟨_, hostReset_of_fits hfits⟩, fun t hreset => ?_⟩
  cases eq_afterReset hreset
  exact ⟨rfl, rfl, rfl, rfl, rfl, rfl, rfl, rfl, rfl, rfl, rfl, rfl, rfl, rfl, rfl, rfl,
    fun lo hi hlo hhi => cpuReset_pc hlo hhi, rfl, rfl, rfl⟩

/-! ## The queue between steps -/

/-- Every pending write is one of the console's and falls due in one of the next `3 n` color clocks. -/
def DueWithin (n : Nat) (s : State) : Prop :=
  ∀ w ∈ s.video.queue, s.dual = true ∧ 1 ≤ w.remaining ∧ w.remaining ≤ 3 * n

theorem dueWithin_of_empty {s : State} (h : s.video.queue = []) (n : Nat) : DueWithin n s := by
  simp [DueWithin, h]

/-- A store adds to the queue only in console mode, and only a write with the delay of its cycle (20_memory.md R118). -/
theorem mem_queue_busWrite {k : Nat} {addr : Word} {b : Byte} {u : State} {w : PendingWrite}
    (h : w ∈ (busWrite k addr b u).video.queue) :
    w ∈ u.video.queue ∨ u.dual = true ∧ w.remaining = writeDelay u.cfg k := by
  rw [busWrite_video, videoAfterStore] at h
  cases htarget : u.target addr with
  | video a =>
    have hdual : u.dual = true := by
      by_contra hsimple
      exact target_ne_video (by simpa [State.dual] using hsimple) addr a htarget
    rw [htarget] at h
    rcases List.mem_append.mp h with hold | hnew
    · exact .inl hold
    · rw [List.mem_singleton] at hnew
      exact .inr ⟨hdual, by rw [hnew]⟩
  | memory i writable | cartridge i | consoleRam i | peripheral p offset =>
    rw [htarget] at h
    exact .inl h

/-- Under the default delay a write on cycle `k ≤ n` falls due within `3 n` color clocks, and no other work of the CPU
reaches the queue. -/
theorem dueWithin_closed (n : Nat) : Closed n fun u => defaultDelays u.cfg ∧ DueWithin n u where
  read _ _ hu := hu
  write k hone hn addr b u := fun ⟨hdelays, hdue⟩ => by
    refine ⟨by rwa [busWrite_cfg], fun w hw => ?_⟩
    have hdual : (busWrite k addr b u).dual = u.dual := by simp [State.dual]
    rw [hdual]
    rcases mem_queue_busWrite hw with hold | ⟨hconsole, hdelay⟩
    · exact hdue w hold
    · rw [hdelays k hone] at hdelay
      exact ⟨hconsole, by omega, by omega⟩
  regs _ _ _ _ _ _ _ _ hu := hu
  jam _ hu := hu

/-- The color clocks of `n` cycles apply every write due in them. With `n = 0` (a halt opcode of `JAM_CYCLES` 0) none is
pending, as outside dual mode. -/
theorem elapse_queue_empty {n : Nat} {u : State} (h : DueWithin n u) : (elapse n u).video.queue = [] := by
  rw [elapse_video]
  by_cases hempty : u.video.queue = []
  · split
    · exact videoSteps_queue_of_empty hempty _
    · exact hempty
  · obtain ⟨w, hw⟩ := List.exists_mem_of_ne_nil _ hempty
    obtain ⟨hdual, hone, hdue⟩ := h w hw
    rw [if_pos hdual]
    exact videoSteps_queue_empty _ _ (hone.trans hdue) fun e he => (h e he).2.2

/-- Settles O57: whatever the CPU does in the `n` cycles of a step leaves only writes due within them
(`dueWithin_closed`), and the step's own color clocks apply these (`elapse_queue_empty`). -/
theorem queueEmptyAtStepBoundaries : Obligations.QueueEmptyAtStepBoundaries := by
  unfold Obligations.QueueEmptyAtStepBoundaries
  refine ⟨fun s t hdelays hempty hstep => ?_, fun k => writeDelay_default, fun s t hreset => ?_⟩
  · obtain ⟨n, u, rfl, -, hall⟩ := step_work hstep
    obtain ⟨hdelays', hdue⟩ := hall _ (dueWithin_closed n) (fun _ hv => hv) ⟨hdelays, dueWithin_of_empty hempty n⟩
    exact ⟨by rwa [elapse_cfg], elapse_queue_empty hdue⟩
  · rw [hostReset_video hreset]
    rfl

end Sys2Proof.Machine
end
